-- ==== Sys2Proof/Word.lean ====
section
/-! DEFINITION. The word types of the machine (10_state.md R21, 20_memory.md R140, 30_encoding.md R170, R174). -/

namespace Sys2Proof

/-- One byte of memory (R140). -/
abbrev Byte := BitVec 8

/-- The container of an XLEN-wide value. With XLEN = 32 its upper 32 bits are zero (log 2). -/
abbrev Word := BitVec 64

/-- An instruction word: every instruction in scope is 32 bits long (R174). -/
abbrev InstrWord := BitVec 32

/-- A 5-bit general-register number (R180 f). -/
abbrev Reg := BitVec 5

/-- A 12-bit CSR address (R170). -/
abbrev CsrAddr := BitVec 12

end Sys2Proof
end

