-- ==== Sys2Proof/Config.lean ====
section
/-! DEFINITION. What an implementation fixes (the record `cfg` of 00_scope.md R2), the reference configuration
REF64, the inputs of the platform and counter agents (R4), and the free values: constants with no body, of which
nothing can be proved. -/

namespace Sys2Proof

/-- XLEN (00_scope.md R2, decision D1). -/
inductive Xlen where
  | rv32
  | rv64
deriving DecidableEq, Repr, Inhabited

/-- A privilege mode (10_state.md R25). The reserved encoding 2 is no mode. -/
inductive Priv where
  | U
  | S
  | M
deriving DecidableEq, Repr, Inhabited

/-- The legal sets of implemented modes (60_exceptions.md R295). -/
inductive Modes where
  | m
  | mu
  | msu
deriving DecidableEq, Repr, Inhabited

/-- What an access to an unimplemented CSR does (40_csr_instructions.md R201); the policy may depend on the
address: `zeroAt` reads zero at the listed addresses and traps elsewhere. -/
inductive UnimplPolicy where
  | trap
  | zero
  | zeroAt (addresses : List CsrAddr)
deriving DecidableEq, Repr, Inhabited

/-- The trap value of an illegal instruction (60_exceptions.md R272). -/
inductive MtvalIllegal where
  | bits
  | zero
deriving DecidableEq, Repr, Inhabited

/-- The trap value of EBREAK (60_exceptions.md R272). -/
inductive MtvalEbreak where
  | pc
  | zero
deriving DecidableEq, Repr, Inhabited

/-- What a misaligned SD does (20_memory.md R148). -/
inductive Misaligned where
  | trap
  | emulate
deriving DecidableEq, Repr, Inhabited

/-- Whether WFI stalls (41_system_instructions.md R232). -/
inductive WfiMode where
  | nop
  | wait
  | either
deriving DecidableEq, Repr, Inhabited

/-- One row of a legalisation table: writing `new` over `old` leaves `result`. -/
structure WarlRow where
  old    : Nat
  new    : Nat
  result : Nat
deriving DecidableEq, Repr, Inhabited

/-- What a WARL field takes when an illegal value is written (`legal_F` of 10_state.md R30): it keeps the old value
(the spec's choice, D5), it takes the entry of that index in the field's list of legal values, or it takes what a table
says for the old and the new value; a table can spell out any function of the two (log 19). -/
inductive WarlPolicy where
  | keepOld
  | legalEntry (index : Nat)
  | byTable (rows : List WarlRow)
deriving DecidableEq, Repr, Inhabited

/-- The policy of each WARL field on its own (R30: `legal_F` is a configuration function of the field). -/
structure WarlPolicies where
  mpp       : WarlPolicy
  mtvecMode : WarlPolicy
  stvecMode : WarlPolicy
  tselect   : WarlPolicy
  dcsrPrv   : WarlPolicy
deriving DecidableEq, Repr, Inhabited

/-- Every field keeps its old value: the spec's choice (D5), and REF64. -/
def WarlPolicies.keepOld : WarlPolicies where
  mpp       := .keepOld
  mtvecMode := .keepOld
  stvecMode := .keepOld
  tselect   := .keepOld
  dcsrPrv   := .keepOld

/-- One region of the physical memory map (20_memory.md R155): `size` bytes from `base`. -/
structure MemRegion where
  base : Nat
  size : Nat
deriving DecidableEq, Repr, Inhabited

/-- The kind of a memory access (20_memory.md R153). -/
inductive Access where
  | fetch
  | load
  | store
deriving DecidableEq, Repr, Inhabited

/-- The configuration record of 00_scope.md R2. `PmpCheck` is the opaque `Config.pmpCheck`; `DEBUG` is fixed to
never (D13). The set IMPL is the table of 10_state.md R27 restricted by the fields below and less `absent` (log 31). -/
structure Config where
  xlen          : Xlen
  modes         : Modes
  /-- Listed CSR addresses that this implementation leaves out (R28: IMPL is a parameter). -/
  absent        : List CsrAddr
  unimplCsr     : UnimplPolicy
  misa          : Word
  misaWritable  : Bool
  mvendorid     : BitVec 32
  marchid       : Word
  mimpid        : Word
  mhartid       : Word
  mconfigptr    : Word
  hasF          : Bool
  pmpEntries    : Nat
  satpModes     : List Nat
  asidLen       : Nat
  ppnLen        : Nat
  mtvecModes    : List Nat
  numHpm        : Nat
  numTriggers   : Nat
  /-- What `tinfo` reads for each trigger (10_state.md R104); the source gives no value. A trigger with no entry here
  reads the free value `Config.tinfoUnlisted` (log 17). -/
  tinfo         : List Word
  hasHtrap      : Bool
  mtvalIllegal  : MtvalIllegal
  mtvalEbreak   : MtvalEbreak
  tvmTrapsReads : Bool
  misaligned    : Misaligned
  resetVector   : Word
  wfiMode       : WfiMode
  /-- `cfg.IsMemory` (20_memory.md R155): an address is memory when a region holds it. -/
  memoryMap     : List MemRegion
  warl          : WarlPolicies
deriving DecidableEq, Repr

/-- The reference configuration REF64 (00_scope.md R2). The reset vector and the memory map have no REF64 value:
those of the spec's test vectors stand here (DESIGN CHOICE, log 3). -/
def Config.ref64 : Config where
  xlen          := .rv64
  modes         := .msu
  absent        := []
  unimplCsr     := .trap
  misa          := 0x8000000000140120#64
  misaWritable  := false
  mvendorid     := 0#32
  marchid       := 0#64
  mimpid        := 0#64
  mhartid       := 0#64
  mconfigptr    := 0#64
  hasF          := true
  pmpEntries    := 0
  satpModes     := [0, 8, 9, 10]
  asidLen       := 16
  ppnLen        := 44
  mtvecModes    := [0, 1]
  numHpm        := 0
  numTriggers   := 0
  tinfo         := []
  hasHtrap      := false
  mtvalIllegal  := .bits
  mtvalEbreak   := .pc
  tvmTrapsReads := true
  misaligned    := .trap
  resetVector   := 0x80000000#64
  wfiMode       := .either
  memoryMap     := [⟨0x80000000, 0x100000⟩]
  warl          := .keepOld

/-- What the platform and counter agents supply for one step (00_scope.md R4): the levels of the interrupt wires,
the amounts by which `mcycle`, `time` and the counting performance counters advance (10_state.md R73), and the draw
of WFI's `either` (41_system_instructions.md R232). -/
structure PlatformInput where
  meip    : Bool
  mtip    : Bool
  msip    : Bool
  seipExt : Bool
  cycles  : Nat
  ticks   : Nat
  /-- Increments of the performance counters 3, 4, …; a missing entry is 0. -/
  hpm     : List Nat
  stall   : Bool
deriving DecidableEq, Repr, Inhabited

/-- FREE VALUE (log 9): the n-th input of the platform and counter agents once the inputs that a state lists are
used up; the spec states no law for it (00_scope.md R4, 10_state.md R73). -/
opaque Config.platformDraw : Nat → PlatformInput

/-- FREE VALUE (log 7): the byte that an address of memory holds at reset, drawn once (10_state.md R109,
93_implementation_defined.md I47b); the spec says any value. -/
opaque Config.memoryAtReset : Nat → Byte

/-- FREE VALUE (log 16): the PMP permission function `cfg.PmpCheck`, of which the source says nothing
(20_memory.md R153). It sees the configuration bytes, the address registers, the address and width of the access, its
kind and the effective privilege. -/
opaque Config.pmpCheck :
  List Byte → List Word → (addr width : Nat) → Access → Priv → Bool

/-- FREE VALUE (log 17): the legal value a trigger register holds after a write of `new` over `old`; the source gives
no format (10_state.md R101 to R107). `reg` is the CSR address, `index` the selected trigger. -/
opaque Config.triggerLegal :
  (reg : CsrAddr) → (index : Nat) → (old new : Word) → Word

/-- FREE VALUE (log 17): what `tinfo` reads for the trigger of that index when the configuration lists no value for it;
the source gives none (10_state.md R104). -/
opaque Config.tinfoUnlisted : (index : Nat) → Word

end Sys2Proof
end

