-- ==== Sys2Proof/Syntax.lean ====
section
/-! DEFINITION. The instructions of spec/opcode_table.json (one constructor per row), the CSRs of 10_state.md R27, and
the causes of traps (60_exceptions.md R270, R280). -/

namespace Sys2Proof

/-- The 17 instructions, operands in the order of the assembler syntax (30_encoding.md R187). -/
inductive Instr where
  /-- CSRRW rd, csr, rs1 (R207) -/
  | csrrw (rd : Reg) (csr : CsrAddr) (rs1 : Reg)
  /-- CSRRS rd, csr, rs1 (R208) -/
  | csrrs (rd : Reg) (csr : CsrAddr) (rs1 : Reg)
  /-- CSRRC rd, csr, rs1 (R209) -/
  | csrrc (rd : Reg) (csr : CsrAddr) (rs1 : Reg)
  /-- CSRRWI rd, csr, uimm (R210) -/
  | csrrwi (rd : Reg) (csr : CsrAddr) (uimm : BitVec 5)
  /-- CSRRSI rd, csr, uimm (R211) -/
  | csrrsi (rd : Reg) (csr : CsrAddr) (uimm : BitVec 5)
  /-- CSRRCI rd, csr, uimm (R212) -/
  | csrrci (rd : Reg) (csr : CsrAddr) (uimm : BitVec 5)
  /-- MRET (R230) -/
  | mret
  /-- SRET (R231) -/
  | sret
  /-- WFI (R232) -/
  | wfi
  /-- ECALL (R233) -/
  | ecall
  /-- EBREAK (R234) -/
  | ebreak
  /-- SFENCE.VMA rs1, rs2 (R235) -/
  | sfenceVma (rs1 rs2 : Reg)
  /-- ADDI rd, rs1, imm (R250) -/
  | addi (rd rs1 : Reg) (imm : BitVec 12)
  /-- ANDI rd, rs1, imm (R251) -/
  | andi (rd rs1 : Reg) (imm : BitVec 12)
  /-- ORI rd, rs1, imm (R252) -/
  | ori (rd rs1 : Reg) (imm : BitVec 12)
  /-- SRLI rd, rs1, shamt (R253); on RV32 the shift amount is below 32 (R177) -/
  | srli (rd rs1 : Reg) (shamt : BitVec 6)
  /-- SD rs2, imm(rs1) (R254); RV64 only (R178) -/
  | sd (rs2 rs1 : Reg) (imm : BitVec 12)
deriving DecidableEq, Repr, Inhabited

/-- The 281 CSRs the source lists (10_state.md R27). An index counts from the first register of its row: `mhpmevent 0`
is mhpmevent3, `pmpaddr 5` is pmpaddr5. -/
inductive Csr where
  | fflags | frm | fcsr
  | sstatus | sie | stvec | scounteren | sscratch | sepc | scause | stval | sip | satp
  | mstatus | misa | medeleg | mideleg | mie | mtvec | mcounteren | mstatush | mcountinhibit
  | mhpmevent (n : Fin 29)
  | mscratch | mepc | mcause | mtval | mip | mtinst | mtval2
  | pmpcfg (k : Fin 16)
  | pmpaddr (i : Fin 64)
  | tselect | tdata1 | tdata2 | tdata3 | tinfo | tcontrol | mcontext | scontext
  | dcsr | dpc | dscratch0 | dscratch1
  | mcycle | minstret
  | mhpmcounter (n : Fin 29)
  | mcycleh | minstreth
  | mhpmcounterh (n : Fin 29)
  | cycle | time | instret
  | hpmcounter (n : Fin 29)
  | cycleh | timeh | instreth
  | hpmcounterh (n : Fin 29)
  | mvendorid | marchid | mimpid | mhartid | mconfigptr
deriving DecidableEq, Repr, Inhabited

/-- The exceptions of 60_exceptions.md R270, under the spec's identifiers. -/
inductive Exc where
  | instructionAddressMisaligned
  | instructionAccessFault
  | illegalInstruction
  | breakpoint
  | loadAddressMisaligned
  | loadAccessFault
  | storeAddressMisaligned
  | storeAccessFault
  | environmentCallFromUMode
  | environmentCallFromSMode
  | environmentCallFromMMode
  | instructionPageFault
  | loadPageFault
  | storePageFault
deriving DecidableEq, Repr, Inhabited

/-- The interrupts the spec raises (60_exceptions.md R280). The user-level codes 0, 4, 8 are never raised (R282). -/
inductive Irq where
  | supervisorSoftware
  | machineSoftware
  | supervisorTimer
  | machineTimer
  | supervisorExternal
  | machineExternal
deriving DecidableEq, Repr, Inhabited

end Sys2Proof
end

