-- ==== Sys2Proof/WellFormed.lean ====
section
/-! DEFINITION. Which instructions exist for a given XLEN (30_encoding.md R174, R177, R178). The widths of the operand
fields are in the types of the constructors; what is left to check is what depends on XLEN. -/

namespace Sys2Proof

/-- The instruction exists with this XLEN: SRLI shifts by less than XLEN, SD needs XLEN = 64. -/
def Instr.wf (x : Xlen) : Instr → Bool
  | .csrrw _ _ _  => true
  | .csrrs _ _ _  => true
  | .csrrc _ _ _  => true
  | .csrrwi _ _ _ => true
  | .csrrsi _ _ _ => true
  | .csrrci _ _ _ => true
  | .mret         => true
  | .sret         => true
  | .wfi          => true
  | .ecall        => true
  | .ebreak       => true
  | .sfenceVma _ _ => true
  | .addi _ _ _   => true
  | .andi _ _ _   => true
  | .ori _ _ _    => true
  | .srli _ _ shamt =>
    match x with
    | .rv64 => true
    | .rv32 => decide (shamt.toNat < 32)
  | .sd _ _ _ =>
    match x with
    | .rv64 => true
    | .rv32 => false

end Sys2Proof
end

