-- ==== Sys2Proof/Decode.lean ====
section
/-! DEFINITION. The decoder, total on any bytes, the encoder, and the opcode table as rows (30_encoding.md R174 to
R182, spec/opcode_table.json). -/

namespace Sys2Proof

/-- What the decoder answers. -/
inductive Decoded where
  /-- An instruction of the opcode table. -/
  | instr (i : Instr)
  /-- A SYSTEM word that is no instruction: it raises IllegalInstruction (R182 a). -/
  | illegal
  /-- A word outside the spec: the model refuses it (R182 b, 00_scope.md R3). -/
  | outside
  /-- Fewer than the four bytes of an instruction word. -/
  | truncated
deriving DecidableEq, Repr

/-! ### The fields of an instruction word (R175 to R180) -/

def opcodeField (w : InstrWord) : BitVec 7 := w.extractLsb' 0 7
def rdField     (w : InstrWord) : Reg      := w.extractLsb' 7 5
def funct3Field (w : InstrWord) : BitVec 3 := w.extractLsb' 12 3
def rs1Field    (w : InstrWord) : Reg      := w.extractLsb' 15 5
def rs2Field    (w : InstrWord) : Reg      := w.extractLsb' 20 5
def funct7Field (w : InstrWord) : BitVec 7 := w.extractLsb' 25 7
/-- Bits 31:20: the CSR address, the I-format immediate, or funct12. -/
def imm12Field  (w : InstrWord) : BitVec 12 := w.extractLsb' 20 12
/-- Bits 31:26, fixed to 0 in SRLI (R177). -/
def funct6Field (w : InstrWord) : BitVec 6 := w.extractLsb' 26 6
def shamtField  (w : InstrWord) : BitVec 6 := w.extractLsb' 20 6
/-- The S-format immediate: bits 31:25 over bits 11:7 (R178, R180 e). -/
def storeImm    (w : InstrWord) : BitVec 12 := funct7Field w ++ rdField w

def opcodeSystem : BitVec 7 := 0b1110011#7
def opcodeOpImm  : BitVec 7 := 0b0010011#7
def opcodeStore  : BitVec 7 := 0b0100011#7

/-- SYSTEM words with funct3 = 000: the fixed words and SFENCE.VMA (R179); every other pattern is illegal (R182 a). -/
def decodePrivileged (w : InstrWord) : Decoded :=
  if w = 0x00000073#32 then .instr .ecall
  else if w = 0x00100073#32 then .instr .ebreak
  else if w = 0x10200073#32 then .instr .sret
  else if w = 0x30200073#32 then .instr .mret
  else if w = 0x10500073#32 then .instr .wfi
  else if funct7Field w = 0b0001001#7 ∧ rdField w = 0#5 then .instr (.sfenceVma (rs1Field w) (rs2Field w))
  else .illegal

/-- The SYSTEM opcode by funct3 (R175, R176, R179, R181, R182 a). -/
def decodeSystem (w : InstrWord) : Decoded :=
  if funct3Field w = 0b001#3 then .instr (.csrrw (rdField w) (imm12Field w) (rs1Field w))
  else if funct3Field w = 0b010#3 then .instr (.csrrs (rdField w) (imm12Field w) (rs1Field w))
  else if funct3Field w = 0b011#3 then .instr (.csrrc (rdField w) (imm12Field w) (rs1Field w))
  else if funct3Field w = 0b101#3 then .instr (.csrrwi (rdField w) (imm12Field w) (rs1Field w))
  else if funct3Field w = 0b110#3 then .instr (.csrrsi (rdField w) (imm12Field w) (rs1Field w))
  else if funct3Field w = 0b111#3 then .instr (.csrrci (rdField w) (imm12Field w) (rs1Field w))
  else if funct3Field w = 0b000#3 then decodePrivileged w
  else .illegal

/-- SRLI: bits 31:26 are 0, and on RV32 bit 25 too (R177). -/
def srliPattern (x : Xlen) (w : InstrWord) : Bool :=
  match x with
  | .rv64 => funct6Field w == 0#6
  | .rv32 => funct7Field w == 0#7

/-- The OP-IMM opcode (R177, R182 b). -/
def decodeOpImm (x : Xlen) (w : InstrWord) : Decoded :=
  if funct3Field w = 0b000#3 then .instr (.addi (rdField w) (rs1Field w) (imm12Field w))
  else if funct3Field w = 0b111#3 then .instr (.andi (rdField w) (rs1Field w) (imm12Field w))
  else if funct3Field w = 0b110#3 then .instr (.ori (rdField w) (rs1Field w) (imm12Field w))
  else if funct3Field w = 0b101#3 ∧ srliPattern x w = true then
    .instr (.srli (rdField w) (rs1Field w) (shamtField w))
  else .outside

/-- The STORE opcode: SD, on RV64 only (R178, R182 b). -/
def decodeStore (x : Xlen) (w : InstrWord) : Decoded :=
  if funct3Field w = 0b011#3 ∧ x = .rv64 then .instr (.sd (rs2Field w) (rs1Field w) (storeImm w))
  else .outside

/-- The decoder on one instruction word (R181). -/
def decodeWord (x : Xlen) (w : InstrWord) : Decoded :=
  if opcodeField w = opcodeSystem then decodeSystem w
  else if opcodeField w = opcodeOpImm then decodeOpImm x w
  else if opcodeField w = opcodeStore then decodeStore x w
  else .outside

/-- The instruction word at the head of a byte list, lowest address first, little-endian (20_memory.md R145). -/
def wordOfBytes : List Byte → Option InstrWord
  | b0 :: b1 :: b2 :: b3 :: _ => some (b3 ++ b2 ++ b1 ++ b0)
  | _ => none

/-- The four bytes of an instruction word, lowest address first. -/
def bytesOfWord (w : InstrWord) : List Byte :=
  [w.extractLsb' 0 8, w.extractLsb' 8 8, w.extractLsb' 16 8, w.extractLsb' 24 8]

/-- The decoder on any bytes. -/
def decode (x : Xlen) (bytes : List Byte) : Decoded :=
  match wordOfBytes bytes with
  | some w => decodeWord x w
  | none => .truncated

/-! ### The encoder (R175 to R179) -/

/-- The CSR formats: csr, rs1 or uimm, funct3, rd, opcode (R175, R176). -/
def encodeCsr (f3 : BitVec 3) (csr : CsrAddr) (src : BitVec 5) (rd : Reg) : InstrWord :=
  csr ++ src ++ f3 ++ rd ++ opcodeSystem

/-- The I format: imm, rs1, funct3, rd, opcode (R177). -/
def encodeImm (f3 : BitVec 3) (imm : BitVec 12) (rs1 rd : Reg) : InstrWord :=
  imm ++ rs1 ++ f3 ++ rd ++ opcodeOpImm

/-- The word of an instruction. -/
def encode : Instr → InstrWord
  | .csrrw rd csr rs1   => encodeCsr 0b001#3 csr rs1 rd
  | .csrrs rd csr rs1   => encodeCsr 0b010#3 csr rs1 rd
  | .csrrc rd csr rs1   => encodeCsr 0b011#3 csr rs1 rd
  | .csrrwi rd csr uimm => encodeCsr 0b101#3 csr uimm rd
  | .csrrsi rd csr uimm => encodeCsr 0b110#3 csr uimm rd
  | .csrrci rd csr uimm => encodeCsr 0b111#3 csr uimm rd
  | .mret   => 0x30200073#32
  | .sret   => 0x10200073#32
  | .wfi    => 0x10500073#32
  | .ecall  => 0x00000073#32
  | .ebreak => 0x00100073#32
  | .sfenceVma rs1 rs2 => 0b0001001#7 ++ rs2 ++ rs1 ++ 0b000#3 ++ 0b00000#5 ++ opcodeSystem
  | .addi rd rs1 imm   => encodeImm 0b000#3 imm rs1 rd
  | .andi rd rs1 imm   => encodeImm 0b111#3 imm rs1 rd
  | .ori rd rs1 imm    => encodeImm 0b110#3 imm rs1 rd
  | .srli rd rs1 shamt => encodeImm 0b101#3 (0b000000#6 ++ shamt) rs1 rd
  | .sd rs2 rs1 imm    =>
    imm.extractLsb' 5 7 ++ rs2 ++ rs1 ++ 0b011#3 ++ imm.extractLsb' 0 5 ++ opcodeStore

/-! ### The opcode table -/

/-- One row of spec/opcode_table.json: a word w is the row's instruction when `w &&& mask = pattern`. -/
structure OpcodeRow where
  mnemonic : String
  mask     : InstrWord
  pattern  : InstrWord
deriving DecidableEq, Repr

/-- The row of an instruction, with the masks of XLEN = 64. -/
def Instr.row : Instr → OpcodeRow
  | .csrrw _ _ _   => ⟨"CSRRW", 0x0000707F#32, 0x00001073#32⟩
  | .csrrs _ _ _   => ⟨"CSRRS", 0x0000707F#32, 0x00002073#32⟩
  | .csrrc _ _ _   => ⟨"CSRRC", 0x0000707F#32, 0x00003073#32⟩
  | .csrrwi _ _ _  => ⟨"CSRRWI", 0x0000707F#32, 0x00005073#32⟩
  | .csrrsi _ _ _  => ⟨"CSRRSI", 0x0000707F#32, 0x00006073#32⟩
  | .csrrci _ _ _  => ⟨"CSRRCI", 0x0000707F#32, 0x00007073#32⟩
  | .mret          => ⟨"MRET", 0xFFFFFFFF#32, 0x30200073#32⟩
  | .sret          => ⟨"SRET", 0xFFFFFFFF#32, 0x10200073#32⟩
  | .wfi           => ⟨"WFI", 0xFFFFFFFF#32, 0x10500073#32⟩
  | .ecall         => ⟨"ECALL", 0xFFFFFFFF#32, 0x00000073#32⟩
  | .ebreak        => ⟨"EBREAK", 0xFFFFFFFF#32, 0x00100073#32⟩
  | .sfenceVma _ _ => ⟨"SFENCE.VMA", 0xFE007FFF#32, 0x12000073#32⟩
  | .addi _ _ _    => ⟨"ADDI", 0x0000707F#32, 0x00000013#32⟩
  | .andi _ _ _    => ⟨"ANDI", 0x0000707F#32, 0x00007013#32⟩
  | .ori _ _ _     => ⟨"ORI", 0x0000707F#32, 0x00006013#32⟩
  | .srli _ _ _    => ⟨"SRLI", 0xFC00707F#32, 0x00005013#32⟩
  | .sd _ _ _      => ⟨"SD", 0x0000707F#32, 0x00003023#32⟩

/-- The 17 rows of spec/opcode_table.json. -/
def opcodeTable : List OpcodeRow :=
  [Instr.row (.csrrw 0 0 0), Instr.row (.csrrs 0 0 0), Instr.row (.csrrc 0 0 0),
   Instr.row (.csrrwi 0 0 0), Instr.row (.csrrsi 0 0 0), Instr.row (.csrrci 0 0 0),
   Instr.row .mret, Instr.row .sret, Instr.row .wfi, Instr.row .ecall, Instr.row .ebreak, Instr.row (.sfenceVma 0 0),
   Instr.row (.addi 0 0 0), Instr.row (.andi 0 0 0), Instr.row (.ori 0 0 0), Instr.row (.srli 0 0 0), Instr.row (.sd 0 0 0)]

/-- The instruction the decoder reads from the `nbits` bits of `w` (every bit above them zero), laid out as memory holds
it, with the XLEN of the reference configuration. -/
def decodeTableWord (nbits w : Nat) : Option Instr :=
  match decode Config.ref64.xlen (bytesOfWord (BitVec.ofNat 32 (w % 2 ^ nbits))) with
  | .instr i => some i
  | _ => none

end Sys2Proof
end

