-- ==== Sys2Proof/Machine/State.lean ====
section
/-! DEFINITION. The state of one hart as plain data (10_state.md R20 to R27; INVENTORY.md, "State"), the reasons a step
ends in no next state, and the state after reset (R109, 70_reset_and_hazards.md R330). -/

namespace Sys2Proof.Machine

/-- Memory: the (address, byte) pairs written since reset, in one canonical form, addresses strictly rising
(`Memory.wf`). An address that is not listed holds its byte of reset, a free value (`memByte`; log 7). -/
abbrev Memory := List Host.Cell

/-- The tag of a cached translation: the address it was made for and its address space. What the translation says is
not in the source (10_state.md R26 b; log 13). -/
structure TlbEntry where
  vaddr : Word
  asid  : Word
deriving DecidableEq, Repr, Inhabited

/-- The data registers of one trigger (10_state.md R101 to R103). -/
structure Trigger where
  tdata1 : Word
  tdata2 : Word
  tdata3 : Word
deriving DecidableEq, Repr, Inhabited

/-- The state of the hart. Every field names the rule that gives it to the machine; the last five are the model's own
(INVENTORY.md). -/
structure State where
  /-- x0 to x31 (R21). -/
  x             : Vector Word 32
  /-- The program counter (R23). -/
  pc            : Word
  /-- The current privilege mode (R25). -/
  priv          : Priv
  /-- Debug Mode, never entered (R26 a). -/
  debugMode     : Bool
  /-- Stalled in WFI (R26 d). -/
  waiting       : Bool
  /-- The translation buffer (R26 b). -/
  tlb           : List TlbEntry
  /-- The wire behind mip bit 11 (R26 c, R62). -/
  meip          : Bool
  /-- The wire behind mip bit 7 (R26 c, R62). -/
  mtip          : Bool
  /-- The wire behind mip bit 3 (R26 c, R62). -/
  msip          : Bool
  /-- The external part of mip bit 9 (R26 c, R62). -/
  seipExt       : Bool
  /-- Memory (20_memory.md R140). -/
  mem           : Memory
  /-- The stored bits of mstatus (R37, R49). -/
  mstatus       : Word
  /-- R53 -/
  medeleg       : Word
  /-- R54 -/
  mideleg       : Word
  /-- R55 -/
  mie           : Word
  /-- R56 -/
  mtvec         : Word
  /-- R57 -/
  mcounteren    : BitVec 32
  /-- R71 -/
  mcountinhibit : BitVec 32
  /-- mhpmevent3 to mhpmevent31 (R72). -/
  mhpmevent     : Vector Word 29
  /-- R58 -/
  mscratch      : Word
  /-- R59 -/
  mepc          : Word
  /-- R60 -/
  mcause        : Word
  /-- R61 -/
  mtval         : Word
  /-- The software-written bits 9, 5, 1 of mip (R62). -/
  mipSw         : Word
  /-- R63 -/
  mtinst        : Word
  /-- R64 -/
  mtval2        : Word
  /-- The configuration bytes of PMP entries 0 to 63 (R65). -/
  pmpcfg        : Vector Byte 64
  /-- pmpaddr0 to pmpaddr63 (R66). -/
  pmpaddr       : Vector Word 64
  /-- R67 -/
  mcycle        : BitVec 64
  /-- R68 -/
  minstret      : BitVec 64
  /-- mhpmcounter3 to mhpmcounter31 (R69). -/
  mhpmcounter   : Vector (BitVec 64) 29
  /-- The platform's timer as the hart reads it (R91). -/
  time          : BitVec 64
  /-- R76 -/
  stvec         : Word
  /-- R77 -/
  scounteren    : BitVec 32
  /-- R78 -/
  sscratch      : Word
  /-- R79 -/
  sepc          : Word
  /-- R80 -/
  scause        : Word
  /-- R81 -/
  stval         : Word
  /-- R83 to R85 -/
  satp          : Word
  /-- frm over fflags (R86 to R88). -/
  fcsr          : BitVec 8
  /-- R96 -/
  dcsr          : BitVec 32
  /-- R97 -/
  dpc           : Word
  /-- R98 -/
  dscratch0     : Word
  /-- R98 -/
  dscratch1     : Word
  /-- R100 -/
  tselect       : Word
  /-- tdata1 to tdata3 of every trigger (R101 to R103). -/
  triggers      : List Trigger
  /-- R105 -/
  tcontrol      : Word
  /-- R106 -/
  mcontext      : Word
  /-- R107 -/
  scontext      : Word
  /-- MODEL: the configuration, which no step changes (00_scope.md R2; log 1). -/
  cfg           : Config
  /-- MODEL: the addresses the run has stored to, strictly rising (20_memory.md R160; log 23). -/
  stored        : List Nat
  /-- MODEL: the inputs of the platform and counter agents still to come (00_scope.md R4; log 9). -/
  inputs        : List PlatformInput
  /-- MODEL: how many inputs were drawn after `inputs` was used up (log 9). -/
  draws         : Nat
  /-- MODEL: this step's draw for WFI's `either` (R232; log 9). -/
  stallDraw     : Bool
deriving DecidableEq, Repr

/-- Why the machine stops with a fault. It is safe: the machine stops where a hart would go on. -/
inductive Fault where
  /-- Raised by MRET and by a store with MPRV = 1 when mstatus.MPP holds the reserved value 2, which no reachable
  state does (10_state.md R40; log 22). Safe. -/
  | reservedMpp
deriving DecidableEq, Repr

/-- Why a step is given no meaning. All are safe: nothing is claimed about what a hart does there. -/
inductive Refusal where
  /-- An instruction that has no meaning in this model yet (none is left). Safe. -/
  | notModelled (mnemonic : String)
  /-- Raised by the step on a word outside the spec (30_encoding.md R182 b). Safe. -/
  | outsideSpec
  /-- Raised by a fetch or a store for which translation is active (20_memory.md R152). Safe. -/
  | translatedAccess
  /-- Raised by the fetch of a byte the run has stored to (20_memory.md R160). Safe. -/
  | modifiedCode
  /-- Raised by a write of misa when the configuration makes it writable (93_implementation_defined.md I8). Safe. -/
  | misaWrite
  /-- Raised by exec on an instruction that the XLEN of the state does not have, which the decoder never answers
  (30_encoding.md R177, R178; log 33). Safe. -/
  | wrongXlen
deriving DecidableEq, Repr

/-- The machine right after reset, in the configuration REF64: pc, priv, mstatus.MIE, mstatus.MPRV, mcause, misa, the PMP
configuration, waiting and debugMode as R109 and R330 say; mstatus.FS = 1 (Initial), so that the floating-point CSRs are
accessible (70_reset_and_hazards.md R331 c); every other register 0 (DESIGN CHOICE, log 3 to log 6). -/
def State.reset : State where
  x             := Vector.replicate 32 0#64
  pc            := Config.ref64.resetVector
  priv          := .M
  debugMode     := false
  waiting       := false
  tlb           := []
  meip          := false
  mtip          := false
  msip          := false
  seipExt       := false
  mem           := []
  mstatus       := 0x2000#64
  medeleg       := 0#64
  mideleg       := 0#64
  mie           := 0#64
  mtvec         := 0#64
  mcounteren    := 0#32
  mcountinhibit := 0#32
  mhpmevent     := Vector.replicate 29 0#64
  mscratch      := 0#64
  mepc          := 0#64
  mcause        := 0#64
  mtval         := 0#64
  mipSw         := 0#64
  mtinst        := 0#64
  mtval2        := 0#64
  pmpcfg        := Vector.replicate 64 0#8
  pmpaddr       := Vector.replicate 64 0#64
  mcycle        := 0#64
  minstret      := 0#64
  mhpmcounter   := Vector.replicate 29 0#64
  time          := 0#64
  stvec         := 0#64
  scounteren    := 0#32
  sscratch      := 0#64
  sepc          := 0#64
  scause        := 0#64
  stval         := 0#64
  satp          := 0#64
  fcsr          := 0#8
  dcsr          := 0#32
  dpc           := 0#64
  dscratch0     := 0#64
  dscratch1     := 0#64
  tselect       := 0#64
  triggers      := []
  tcontrol      := 0#64
  mcontext      := 0#64
  scontext      := 0#64
  cfg           := Config.ref64
  stored        := []
  inputs        := []
  draws         := 0
  stallDraw     := false

/-- The outcome of a step or of an instruction's meaning. -/
abbrev Result := Host.Outcome State Fault Refusal

end Sys2Proof.Machine
end

