-- ==== Sys2Proof/Machine/Flags.lean ====
section
/-! DEFINITION. Bit fields. The ISA has no condition flags (40_csr_instructions.md): its flags are the fields of mstatus
(10_state.md R37 to R50), of fcsr (R86 to R88) and of satp (R83, R84), and the privilege encodings (R25). -/

namespace Sys2Proof.Machine

/-! ### Single bits of a word -/

/-- A word with bit `i` equal to `b` and every other bit 0. -/
def bitWord (i : Nat) (b : Bool) : Word := if b then 1#64 <<< i else 0#64

/-- `w` with bit `i` set to `b`. -/
def setBit (w : Word) (i : Nat) (b : Bool) : Word := (w &&& ~~~(1#64 <<< i)) ||| bitWord i b

/-! ### Privilege encodings and implemented modes (R25, 60_exceptions.md R295) -/

/-- The encoding of a mode: U = 0, S = 1, M = 3. -/
def privBits : Priv → BitVec 2
  | .U => 0#2
  | .S => 1#2
  | .M => 3#2

/-- The mode of an encoding; 2 is reserved. -/
def privOfBits (b : BitVec 2) : Option Priv :=
  if b = 0#2 then some .U else if b = 1#2 then some .S else if b = 3#2 then some .M else none

/-- S is in `cfg.MODES`. -/
def hasS (c : Config) : Bool := c.modes == .msu

/-- U is in `cfg.MODES`. -/
def hasU (c : Config) : Bool := c.modes != .m

/-- The encodings of the implemented modes. -/
def modeEncodings (c : Config) : List Nat :=
  match c.modes with
  | .m   => [3]
  | .mu  => [0, 3]
  | .msu => [0, 1, 3]

/-- The mode is implemented. -/
def implementsMode (c : Config) : Priv → Bool
  | .U => hasU c
  | .S => hasS c
  | .M => true

/-- The least privileged implemented mode (R40). -/
def leastMode (c : Config) : Priv := if hasU c then .U else .M

/-! ### Legalisation of WARL fields (R30) -/

/-- `legal_F(old, new)`: the new value if it is in the field's list of legal values, else what the field's policy says;
what a table gives counts only if it is legal. -/
def legalise (policy : WarlPolicy) (legal : List Nat) (old new : Nat) : Nat :=
  if new ∈ legal then new
  else match policy with
    | .keepOld => old
    | .legalEntry k => legal.getD k old
    | .byTable rows =>
      match rows.find? (fun r => r.old == old && r.new == new) with
      | some r => if r.result ∈ legal then r.result else old
      | none => old

/-! ### Fields of mstatus (R37 to R45) -/

def mstatusSIE  (m : Word) : Bool := m.getLsbD 1
def mstatusMIE  (m : Word) : Bool := m.getLsbD 3
def mstatusSPIE (m : Word) : Bool := m.getLsbD 5
def mstatusMPIE (m : Word) : Bool := m.getLsbD 7
def mstatusSPP  (m : Word) : Bool := m.getLsbD 8
def mstatusMPP  (m : Word) : BitVec 2 := m.extractLsb' 11 2
def mstatusFS   (m : Word) : BitVec 2 := m.extractLsb' 13 2
def mstatusXS   (m : Word) : BitVec 2 := m.extractLsb' 15 2
def mstatusMPRV (m : Word) : Bool := m.getLsbD 17
def mstatusTVM  (m : Word) : Bool := m.getLsbD 20
def mstatusTW   (m : Word) : Bool := m.getLsbD 21
def mstatusTSR  (m : Word) : Bool := m.getLsbD 22

def setSIE  (m : Word) (b : Bool) : Word := setBit m 1 b
def setMIE  (m : Word) (b : Bool) : Word := setBit m 3 b
def setSPIE (m : Word) (b : Bool) : Word := setBit m 5 b
def setMPIE (m : Word) (b : Bool) : Word := setBit m 7 b
def setSPP  (m : Word) (b : Bool) : Word := setBit m 8 b
def setMPRV (m : Word) (b : Bool) : Word := setBit m 17 b

/-- `m` with MPP (bits 12:11) replaced. -/
def setMPP (m : Word) (v : BitVec 2) : Word := (m &&& ~~~0x1800#64) ||| (v.setWidth 64 <<< 11)

/-- `m` with FS (bits 14:13) set to 3, Dirty (R89). -/
def setFSDirty (m : Word) : Word := m ||| 0x6000#64

/-- SD, the summary of FS and XS (R45). -/
def mstatusSD (m : Word) : Bool := mstatusFS m == 3#2 || mstatusXS m == 3#2

/-- The stored bits a CSR write of mstatus can change: 0x7E79AA (R49), less MPRV without U-mode (R41), less MXR, SUM,
TVM, TW and TSR without S-mode (R42, R43), less FS without floating point (R44). -/
def mstatusMask (c : Config) : Word :=
  0x0079AA#64 &&& (if c.hasF then ~~~0#64 else ~~~0x6000#64)
    ||| (if hasU c then 0x20000#64 else 0#64)
    ||| (if hasS c then 0x7C0000#64 else 0#64)

/-- What mstatus reads: the stored bits, SXL = UXL = 2 on RV64 (R46), SD at the top bit (R45, R49, R50). -/
def mstatusRead (c : Config) (m : Word) : Word :=
  match c.xlen with
  | .rv64 => m ||| 0x0000000A00000000#64 ||| bitWord 63 (mstatusSD m)
  | .rv32 => m ||| bitWord 31 (mstatusSD m)

/-- The stored bits after a CSR write of `v` (R49): the writable bits are written, and MPP takes a legal value (R40). -/
def mstatusWrite (c : Config) (m v : Word) : Word :=
  let written := (m &&& ~~~mstatusMask c) ||| (v &&& mstatusMask c)
  setMPP written
    (BitVec.ofNat 2 (legalise c.warl.mpp (modeEncodings c) (mstatusMPP m).toNat (mstatusMPP v).toNat))

/-- The fields sstatus shows (R74). -/
def sstatusReadMask (c : Config) : Word :=
  match c.xlen with
  | .rv64 => 0x80000003000DE122#64
  | .rv32 => 0x800DE122#64

/-- The fields sstatus writes (R74): MXR, SUM, FS, SPP, SPIE, SIE. -/
def sstatusWriteMask : Word := 0xC6122#64

/-! ### Fields of satp (R83, R84) -/

/-- satp.MODE. -/
def satpMode (x : Xlen) (v : Word) : Nat :=
  match x with
  | .rv64 => (v.extractLsb' 60 4).toNat
  | .rv32 => (v.extractLsb' 31 1).toNat

/-- The bits of satp that hold MODE, and the implemented bits of ASID and PPN (R85 b). -/
def satpMask (c : Config) : Word :=
  match c.xlen with
  | .rv64 => 0xF000000000000000#64 ||| BitVec.ofNat 64 ((2 ^ min c.asidLen 16 - 1) * 2 ^ 44)
               ||| BitVec.ofNat 64 (2 ^ min c.ppnLen 44 - 1)
  | .rv32 => 0x80000000#64 ||| BitVec.ofNat 64 ((2 ^ min c.asidLen 9 - 1) * 2 ^ 22)
               ||| BitVec.ofNat 64 (2 ^ min c.ppnLen 22 - 1)

/-- satp after a CSR write of `v`: nothing changes if MODE is not accepted (R85 b). -/
def satpWrite (c : Config) (old v : Word) : Word :=
  if satpMode c.xlen v ∈ c.satpModes then v &&& satpMask c else old

/-! ### Fields of mtvec and stvec (R56, R76) -/

/-- mtvec or stvec after a CSR write of `v`: BASE is written, MODE is legalised by that register's policy. -/
def tvecWrite (c : Config) (policy : WarlPolicy) (old v : Word) : Word :=
  (v &&& ~~~3#64) |||
    BitVec.ofNat 64
      (legalise policy c.mtvecModes (old.extractLsb' 0 2).toNat (v.extractLsb' 0 2).toNat % 4)

/-! ### Codes of traps (60_exceptions.md R270, R280) -/

/-- The exception code (R270). -/
def excCode : Exc → Nat
  | .instructionAddressMisaligned => 0
  | .instructionAccessFault => 1
  | .illegalInstruction => 2
  | .breakpoint => 3
  | .loadAddressMisaligned => 4
  | .loadAccessFault => 5
  | .storeAddressMisaligned => 6
  | .storeAccessFault => 7
  | .environmentCallFromUMode => 8
  | .environmentCallFromSMode => 9
  | .environmentCallFromMMode => 11
  | .instructionPageFault => 12
  | .loadPageFault => 13
  | .storePageFault => 15

/-- The interrupt code, which is also the position of the enable and pending bits (R280). -/
def irqCode : Irq → Nat
  | .supervisorSoftware => 1
  | .machineSoftware => 3
  | .supervisorTimer => 5
  | .machineTimer => 7
  | .supervisorExternal => 9
  | .machineExternal => 11

end Sys2Proof.Machine
end

