-- ==== Sys2Proof/Machine/Operands.lean ====
section
/-! DEFINITION. Operand forms (30_encoding.md R180): register reads, immediates, the address of a store; and arithmetic
modulo 2^XLEN (00_scope.md section 7). -/

namespace Sys2Proof.Machine

/-- XLEN in bits. -/
def xlenBits : Xlen → Nat
  | .rv32 => 32
  | .rv64 => 64

/-- A value modulo 2^XLEN, in its 64-bit container (log 2). -/
def trunc (x : Xlen) (v : Word) : Word :=
  match x with
  | .rv64 => v
  | .rv32 => (v.setWidth 32).setWidth 64

/-- `sext_XLEN` of a 12-bit immediate (R180 c, e). -/
def sextImm (x : Xlen) (imm : BitVec 12) : Word := trunc x (imm.signExtend 64)

/-- `zext_XLEN` of the 5-bit immediate of the CSR forms (R180 b). -/
def zextUimm (uimm : BitVec 5) : Word := uimm.setWidth 64

/-- `x[r]`: x0 reads as zero (10_state.md R21). -/
def readX (s : State) (r : Reg) : Word :=
  if r = 0#5 then 0#64 else s.x[r.toNat]'(by have := r.isLt; omega)

/-- The address of a store: `x[rs1] + sext(imm)` modulo 2^XLEN (42_support_instructions.md R254). -/
def storeAddress (s : State) (rs1 : Reg) (imm : BitVec 12) : Word :=
  trunc s.cfg.xlen (readX s rs1 + sextImm s.cfg.xlen imm)

/-- The address of byte `k` of an access at `addr`, modulo 2^XLEN (20_memory.md R146). -/
def byteAddr (x : Xlen) (addr : Word) (k : Nat) : Nat := (trunc x (addr + BitVec.ofNat 64 k)).toNat

end Sys2Proof.Machine
end

