-- ==== Sys2Proof/Machine/Ops.lean ====
section
/-! DEFINITION. The named operations over memory and registers, the checks of a memory access (20_memory.md R150 to
R155), retirement (10_state.md R23, R73), TAKING A TRAP and RETURNING from one (60_exceptions.md R289 to R293,
41_system_instructions.md R230, R231), and the flush of the translation buffer (R235). -/

namespace Sys2Proof.Machine

/-! ### Memory as a canonical list -/

/-- The canonical form: addresses strictly rising. Which addresses are listed is which were written: a listed byte is
kept even if it equals the free value its address held at reset, which nothing can compare it with (log 7). -/
abbrev Memory.wf (m : Memory) : Prop := (m.map Prod.fst).Pairwise (· < ·)

/-- The byte written at an address; none when nothing has written it since reset. -/
def memRead : Memory → Nat → Option Byte
  | [], _ => none
  | (a, b) :: rest, at' => if a = at' then some b else memRead rest at'

/-- The byte at an address replaced or inserted. -/
def memWrite : Memory → Nat → Byte → Memory
  | [], at', v => [(at', v)]
  | (a, b) :: rest, at', v =>
    if at' < a then (at', v) :: (a, b) :: rest
    else if at' = a then (at', v) :: rest
    else (a, b) :: memWrite rest at' v

/-- Insertion into a strictly rising list of addresses. -/
def insertAddr : List Nat → Nat → List Nat
  | [], n => [n]
  | a :: rest, n =>
    if n < a then n :: a :: rest
    else if n = a then a :: rest
    else a :: insertAddr rest n

/-- The addresses of an access of `n` bytes at `addr`, lowest offset first. -/
def accessAddrs (x : Xlen) (addr : Word) (n : Nat) : List Nat := (List.range n).map (byteAddr x addr)

/-- `M[a]` (20_memory.md R146): the byte written there, else the one drawn at reset (I47b; log 7). -/
def memByte (m : Memory) (a : Nat) : Byte := (memRead m a).getD (Config.memoryAtReset a)

/-- The bytes at some addresses: `MemRead`, lowest offset first (R146). -/
def readBytes (m : Memory) (addrs : List Nat) : List Byte := addrs.map (memByte m)

/-- Write byte `k` of `v` to the k-th of some addresses, for offsets from `k` on: little-endian (R147). -/
def writeBytesFrom (m : Memory) (k : Nat) (v : Word) : List Nat → Memory
  | [] => m
  | a :: rest => writeBytesFrom (memWrite m a (v.extractLsb' (8 * k) 8)) (k + 1) v rest

/-- `MemWrite(addr, n, v)` (R147). -/
def writeBytes (x : Xlen) (m : Memory) (addr : Word) (n : Nat) (v : Word) : Memory :=
  writeBytesFrom m 0 v (accessAddrs x addr n)

/-! ### The checks of a memory access -/

/-- The memory map holds this physical address (R155); on RV64 its bits above 55 must be zero (R141; log 15). -/
def isMemory (c : Config) (a : Nat) : Bool :=
  c.memoryMap.any (fun r => decide (r.base ≤ a) && decide (a < r.base + r.size))
    && (c.xlen == .rv32 || decide (a < 2 ^ 56))

/-- Memory answers at every byte of the access (R150, R154). -/
def memoryAnswers (c : Config) (addr : Word) (n : Nat) : Bool :=
  (accessAddrs c.xlen addr n).all (isMemory c)

/-- `cfg.PmpCheck` (R153): always ok without PMP entries. -/
def pmpAllows (s : State) (addr : Word) (n : Nat) (kind : Access) (p : Priv) : Bool :=
  s.cfg.pmpEntries == 0 ||
    Config.pmpCheck (s.pmpcfg.toList.take s.cfg.pmpEntries) (s.pmpaddr.toList.take s.cfg.pmpEntries)
      addr.toNat n kind p

/-- The effective privilege of a data access (R151): MPP when MPRV = 1. None when MPP holds the reserved 2. -/
def dataPriv (s : State) : Option Priv :=
  if mstatusMPRV s.mstatus then privOfBits (mstatusMPP s.mstatus) else some s.priv

/-- Translation is active for an access of effective privilege `p` (R151). -/
def translationActive (s : State) (p : Priv) : Bool :=
  hasS s.cfg && p != .M && satpMode s.cfg.xlen s.satp != 0

/-! ### General registers and retirement -/

/-- `x[r] <- v`: a write to x0 is discarded (10_state.md R21). -/
def setX (s : State) (r : Reg) (v : Word) : State :=
  if r = 0#5 then s
  else { s with x := s.x.set r.toNat (trunc s.cfg.xlen v) (by have := r.isLt; omega) }

/-- `pc <- pc + 4` modulo 2^XLEN (R23). -/
def advancePc (s : State) : State := { s with pc := trunc s.cfg.xlen (s.pc + 4#64) }

/-- Count a retired instruction (R73 b), unless counter 2 is inhibited or the instruction wrote the counter. `inhibit` is
mcountinhibit before the instruction (log 11). -/
def countRetired (inhibit : BitVec 32) (wrote : Bool) (s : State) : State :=
  if inhibit.getLsbD 2 || wrote then s else { s with minstret := s.minstret + 1#64 }

/-- An instruction that does not write the counters retires and goes on to the next. -/
def retire (s : State) : State := advancePc (countRetired s.mcountinhibit false s)

/-! ### Interrupt pending bits -/

/-- What mip reads (10_state.md R62): the software-written bits, the wires, and bit 9 the OR of both its parts. -/
def mipRead (s : State) : Word :=
  s.mipSw ||| bitWord 11 s.meip ||| bitWord 7 s.mtip ||| bitWord 3 s.msip ||| bitWord 9 s.seipExt

/-! ### Trap entry -/

/-- The mode that handles a trap (60_exceptions.md R289). -/
def trapTarget (s : State) (interrupt : Bool) (code : Nat) : Priv :=
  if hasS s.cfg && s.priv != .M && (if interrupt then s.mideleg else s.medeleg).getLsbD code then .S else .M

/-- The handler's address (R291). -/
def trapVector (x : Xlen) (tvec : Word) (interrupt : Bool) (code : Nat) : Word :=
  if tvec.extractLsb' 0 2 = 1#2 ∧ interrupt = true
  then trunc x ((tvec &&& ~~~3#64) + BitVec.ofNat 64 (4 * code))
  else tvec &&& ~~~3#64

/-- The value of mcause or scause (R290): the Interrupt bit at XLEN-1 over the code. -/
def trapCause (x : Xlen) (interrupt : Bool) (code : Nat) : Word :=
  bitWord (xlenBits x - 1) interrupt ||| BitVec.ofNat 64 code

/-- TRAP ENTRY, the one shared operation (R290). -/
def takeTrap (interrupt : Bool) (code : Nat) (tval epc : Word) (target : Priv) (s : State) : State :=
  if target = .M then
    { s with
      mepc    := epc &&& ~~~3#64
      mcause  := trapCause s.cfg.xlen interrupt code
      mtval   := tval
      mstatus := setMPP (setMIE (setMPIE s.mstatus (mstatusMIE s.mstatus)) false) (privBits s.priv)
      mtinst  := if s.cfg.hasHtrap then 0#64 else s.mtinst
      mtval2  := if s.cfg.hasHtrap then 0#64 else s.mtval2
      priv    := .M
      pc      := trapVector s.cfg.xlen s.mtvec interrupt code }
  else
    { s with
      sepc    := epc &&& ~~~3#64
      scause  := trapCause s.cfg.xlen interrupt code
      stval   := tval
      mstatus := setSPP (setSIE (setSPIE s.mstatus (mstatusSIE s.mstatus)) false) (s.priv == .S)
      priv    := .S
      pc      := trapVector s.cfg.xlen s.stvec interrupt code }

/-- `raise E(info)` by the instruction at pc (R290). -/
def raiseExc (e : Exc) (info : Word) (s : State) : State :=
  takeTrap false (excCode e) info s.pc (trapTarget s false (excCode e)) s

/-- `raise IllegalInstruction` for an instruction word, with the trap value of 40_csr_instructions.md R202. -/
def raiseIllegal (word : InstrWord) (s : State) : State :=
  raiseExc .illegalInstruction
    (match s.cfg.mtvalIllegal with
      | .bits => word.setWidth 64
      | .zero => 0#64) s

/-! ### Return from a trap -/

/-- The state change of MRET to the mode `new` that MPP named (41_system_instructions.md R230). -/
def returnFromM (new : Priv) (s : State) : State :=
  let m := setMPP (setMPIE (setMIE s.mstatus (mstatusMPIE s.mstatus)) true) (privBits (leastMode s.cfg))
  { s with
    mstatus := if new = .M then m else setMPRV m false
    priv    := new
    pc      := s.mepc }

/-- The mode SRET returns to (R231). -/
def sretTarget (s : State) : Priv := if mstatusSPP s.mstatus then .S else .U

/-- The state change of SRET (R231). -/
def returnFromS (s : State) : State :=
  { s with
    mstatus := setMPRV (setSPP (setSPIE (setSIE s.mstatus (mstatusSPIE s.mstatus)) true) false) false
    priv    := sretTarget s
    pc      := s.sepc }

/-! ### Stores -/

/-- The bytes of a store land, and the run has stored to them (R147, R160). -/
def commitStore (addr : Word) (n : Nat) (v : Word) (s : State) : State :=
  { s with
    mem    := writeBytes s.cfg.xlen s.mem addr n v
    stored := (accessAddrs s.cfg.xlen addr n).foldl insertAddr s.stored }

/-- A store instruction of `n` bytes: the checks of R154 in their order, then the bytes, then retirement. With
`cfg.misaligned = emulate` the bytes of a misaligned store land one by one within the step (R148; log 28). -/
def storeInstr (addr : Word) (n : Nat) (v : Word) (s : State) : Result :=
  if s.cfg.misaligned = .trap ∧ addr.toNat % n ≠ 0 then
    .next (raiseExc .storeAddressMisaligned addr s)
  else match dataPriv s with
    | none => .fault .reservedMpp
    | some p =>
      if translationActive s p then .refused .translatedAccess
      else if pmpAllows s addr n .store p && memoryAnswers s.cfg addr n then
        .next (retire (commitStore addr n v s))
      else .next (raiseExc .storeAccessFault addr s)

/-! ### The translation buffer -/

/-- Two addresses lie in one 4 KiB page (20_memory.md R141; log 13). -/
def samePage (a b : Word) : Bool := a >>> 12 == b >>> 12

/-- `flush_tlb`: every matching cached translation is removed (41_system_instructions.md R235). -/
def flushTlb (rs1 rs2 : Reg) (s : State) : State :=
  { s with
    tlb := s.tlb.filter fun e =>
      !((rs1 == 0#5 || samePage e.vaddr (readX s rs1)) && (rs2 == 0#5 || e.asid == readX s rs2)) }

end Sys2Proof.Machine
end

