-- ==== Sys2Proof/Machine/Base.lean ====
section
/-! DEFINITION. The base instructions the source's examples use (42_support_instructions.md R250 to R254). -/

namespace Sys2Proof.Machine

/-- A register-immediate instruction: rd takes a value and the instruction retires. -/
def writeResult (rd : Reg) (v : Word) (s : State) : Result := .next (retire (setX s rd v))

/-- ADDI (R250): overflow wraps. -/
def execAddi (rd rs1 : Reg) (imm : BitVec 12) (s : State) : Result :=
  writeResult rd (readX s rs1 + sextImm s.cfg.xlen imm) s

/-- ANDI (R251). -/
def execAndi (rd rs1 : Reg) (imm : BitVec 12) (s : State) : Result :=
  writeResult rd (readX s rs1 &&& sextImm s.cfg.xlen imm) s

/-- ORI (R252). -/
def execOri (rd rs1 : Reg) (imm : BitVec 12) (s : State) : Result :=
  writeResult rd (readX s rs1 ||| sextImm s.cfg.xlen imm) s

/-- SRLI (R253): zeros enter at the top. A shift of 32 or more does not exist on RV32 (log 33). -/
def execSrli (rd rs1 : Reg) (shamt : BitVec 6) (s : State) : Result :=
  if Instr.wf s.cfg.xlen (.srli rd rs1 shamt) then writeResult rd (readX s rs1 >>> shamt.toNat) s
  else .refused .wrongXlen

/-- SD (R254): the 8-byte store, RV64 only (log 33). -/
def execSd (rs2 rs1 : Reg) (imm : BitVec 12) (s : State) : Result :=
  if Instr.wf s.cfg.xlen (.sd rs2 rs1 imm) then storeInstr (storeAddress s rs1 imm) 8 (readX s rs2) s
  else .refused .wrongXlen

end Sys2Proof.Machine
end

