-- ==== Sys2Proof/Machine/CsrFile.lean ====
section
/-! DEFINITION. The CSR file: the table of addresses (10_state.md R27), which registers exist (R28), what each reads and
what a write of each does (R30 to R107), and the access checks (40_csr_instructions.md R200, R201). -/

namespace Sys2Proof.Machine

/-! ### The table of addresses (R27) -/

/-- The address of a CSR. -/
def csrAddr : Csr → CsrAddr
  | .fflags => 0x001#12
  | .frm => 0x002#12
  | .fcsr => 0x003#12
  | .sstatus => 0x100#12
  | .sie => 0x104#12
  | .stvec => 0x105#12
  | .scounteren => 0x106#12
  | .sscratch => 0x140#12
  | .sepc => 0x141#12
  | .scause => 0x142#12
  | .stval => 0x143#12
  | .sip => 0x144#12
  | .satp => 0x180#12
  | .mstatus => 0x300#12
  | .misa => 0x301#12
  | .medeleg => 0x302#12
  | .mideleg => 0x303#12
  | .mie => 0x304#12
  | .mtvec => 0x305#12
  | .mcounteren => 0x306#12
  | .mstatush => 0x310#12
  | .mcountinhibit => 0x320#12
  | .mhpmevent n => BitVec.ofNat 12 (0x323 + n.val)
  | .mscratch => 0x340#12
  | .mepc => 0x341#12
  | .mcause => 0x342#12
  | .mtval => 0x343#12
  | .mip => 0x344#12
  | .mtinst => 0x34A#12
  | .mtval2 => 0x34B#12
  | .pmpcfg k => BitVec.ofNat 12 (0x3A0 + k.val)
  | .pmpaddr i => BitVec.ofNat 12 (0x3B0 + i.val)
  | .tselect => 0x7A0#12
  | .tdata1 => 0x7A1#12
  | .tdata2 => 0x7A2#12
  | .tdata3 => 0x7A3#12
  | .tinfo => 0x7A4#12
  | .tcontrol => 0x7A5#12
  | .mcontext => 0x7A8#12
  | .scontext => 0x7AA#12
  | .dcsr => 0x7B0#12
  | .dpc => 0x7B1#12
  | .dscratch0 => 0x7B2#12
  | .dscratch1 => 0x7B3#12
  | .mcycle => 0xB00#12
  | .minstret => 0xB02#12
  | .mhpmcounter n => BitVec.ofNat 12 (0xB03 + n.val)
  | .mcycleh => 0xB80#12
  | .minstreth => 0xB82#12
  | .mhpmcounterh n => BitVec.ofNat 12 (0xB83 + n.val)
  | .cycle => 0xC00#12
  | .time => 0xC01#12
  | .instret => 0xC02#12
  | .hpmcounter n => BitVec.ofNat 12 (0xC03 + n.val)
  | .cycleh => 0xC80#12
  | .timeh => 0xC81#12
  | .instreth => 0xC82#12
  | .hpmcounterh n => BitVec.ofNat 12 (0xC83 + n.val)
  | .mvendorid => 0xF11#12
  | .marchid => 0xF12#12
  | .mimpid => 0xF13#12
  | .mhartid => 0xF14#12
  | .mconfigptr => 0xF15#12

/-- The registers that have a row of their own. -/
def singleCsrs : List Csr :=
  [.fflags, .frm, .fcsr, .sstatus, .sie, .stvec, .scounteren, .sscratch, .sepc, .scause, .stval, .sip, .satp,
   .mstatus, .misa, .medeleg, .mideleg, .mie, .mtvec, .mcounteren, .mstatush, .mcountinhibit,
   .mscratch, .mepc, .mcause, .mtval, .mip, .mtinst, .mtval2,
   .tselect, .tdata1, .tdata2, .tdata3, .tinfo, .tcontrol, .mcontext, .scontext,
   .dcsr, .dpc, .dscratch0, .dscratch1,
   .mcycle, .minstret, .mcycleh, .minstreth, .cycle, .time, .instret, .cycleh, .timeh, .instreth,
   .mvendorid, .marchid, .mimpid, .mhartid, .mconfigptr]

/-- The registers of the rows that cover a range of addresses. -/
def csrInRange (n : Nat) : Option Csr :=
  if h : 0x323 ≤ n ∧ n ≤ 0x33F then some (.mhpmevent ⟨n - 0x323, by omega⟩)
  else if h : 0x3A0 ≤ n ∧ n ≤ 0x3AF then some (.pmpcfg ⟨n - 0x3A0, by omega⟩)
  else if h : 0x3B0 ≤ n ∧ n ≤ 0x3EF then some (.pmpaddr ⟨n - 0x3B0, by omega⟩)
  else if h : 0xB03 ≤ n ∧ n ≤ 0xB1F then some (.mhpmcounter ⟨n - 0xB03, by omega⟩)
  else if h : 0xB83 ≤ n ∧ n ≤ 0xB9F then some (.mhpmcounterh ⟨n - 0xB83, by omega⟩)
  else if h : 0xC03 ≤ n ∧ n ≤ 0xC1F then some (.hpmcounter ⟨n - 0xC03, by omega⟩)
  else if h : 0xC83 ≤ n ∧ n ≤ 0xC9F then some (.hpmcounterh ⟨n - 0xC83, by omega⟩)
  else none

/-- The listed CSR at an address, if there is one. -/
def csrAt (a : CsrAddr) : Option Csr :=
  match singleCsrs.find? (fun c => csrAddr c == a) with
  | some c => some c
  | none => csrInRange a.toNat

/-! ### Which CSRs exist (R28; log 31) -/

/-- pmpcfg `k` exists with this XLEN: the odd-numbered ones are RV32 only (R65). -/
def pmpcfgExists (x : Xlen) (k : Nat) : Bool := x == .rv32 || k % 2 == 0

/-- The register exists for this XLEN, these modes and these options. -/
def csrExists (c : Config) : Csr → Bool
  | .fflags | .frm | .fcsr => c.hasF
  | .sstatus | .sie | .stvec | .scounteren | .sscratch | .sepc | .scause | .stval | .sip | .satp => hasS c
  | .medeleg | .mideleg => hasS c
  | .mstatush | .mcycleh | .minstreth | .mhpmcounterh _
  | .cycleh | .timeh | .instreth | .hpmcounterh _ => c.xlen == .rv32
  | .mtinst | .mtval2 => c.hasHtrap
  | .pmpcfg k => c.pmpEntries != 0 && pmpcfgExists c.xlen k.val
  | .pmpaddr _ => c.pmpEntries != 0
  | .tselect | .tdata1 | .tdata2 | .tdata3 | .tinfo | .tcontrol | .mcontext | .scontext => c.numTriggers != 0
  | .mstatus | .misa | .mie | .mtvec | .mcounteren | .mcountinhibit | .mhpmevent _
  | .mscratch | .mepc | .mcause | .mtval | .mip
  | .dcsr | .dpc | .dscratch0 | .dscratch1
  | .mcycle | .minstret | .mhpmcounter _
  | .cycle | .time | .instret | .hpmcounter _
  | .mvendorid | .marchid | .mimpid | .mhartid | .mconfigptr => true

/-- The implemented CSR at an address: the set IMPL (R28). -/
def csrImpl (c : Config) (a : CsrAddr) : Option Csr :=
  match csrAt a with
  | some r => if csrExists c r && !c.absent.contains a then some r else none
  | none => none

/-! ### Reads (R31 to R107) -/

/-- The low XLEN bits of a 64-bit counter (R67). -/
def counterLow (x : Xlen) (v : BitVec 64) : Word := trunc x v

/-- Bits 63:32 of a 64-bit counter (R70). -/
def counterHigh (v : BitVec 64) : Word := v >>> 32

/-- The configuration byte of PMP entry `i`: 0 at or above `PMP_ENTRIES` (R65). -/
def pmpByte (s : State) (i : Nat) : Byte :=
  if i < s.cfg.pmpEntries then s.pmpcfg[i]?.getD 0#8 else 0#8

/-- How many configuration bytes a pmpcfg register holds (R65). -/
def pmpBytesPerReg (x : Xlen) : Nat := xlenBits x / 8

/-- What pmpcfg `k` reads: entries 4k, 4k+1, …, lowest in the low byte (R65); one that does not exist holds none. -/
def pmpcfgRead (s : State) (k : Nat) : Word :=
  if pmpcfgExists s.cfg.xlen k then
    (List.range (pmpBytesPerReg s.cfg.xlen)).foldl
      (fun acc j => acc ||| ((pmpByte s (4 * k + j)).setWidth 64 <<< (8 * j))) 0#64
  else 0#64

/-- What a counting performance counter holds; the others read 0 (R69). -/
def hpmValue (s : State) (n : Fin 29) : BitVec 64 := if n.val < s.cfg.numHpm then s.mhpmcounter[n] else 0#64

/-- What tinfo reads for the selected trigger: the configuration's value, or a free one where it lists none (R104;
log 17). -/
def tinfoRead (s : State) : Word :=
  match s.cfg.tinfo[s.tselect.toNat]? with
  | some v => v
  | none => trunc s.cfg.xlen (Config.tinfoUnlisted s.tselect.toNat)

/-- The selected trigger's registers (R100); an index beyond the list of triggers, which no run reaches, reads zeros
(log 34). -/
def selectedTrigger (s : State) : Trigger := s.triggers.getD s.tselect.toNat ⟨0#64, 0#64, 0#64⟩

/-- The delegated supervisor interrupts, the mask of sie and sip (R75, R82). -/
def delegatedMask (s : State) : Word := s.mideleg &&& 0x222#64

/-- `csr_read` of a listed CSR (R31): its fields at their positions, every other bit zero. -/
def readCsr (s : State) : Csr → Word
  | .fflags => (s.fcsr.extractLsb' 0 5).setWidth 64
  | .frm => (s.fcsr.extractLsb' 5 3).setWidth 64
  | .fcsr => s.fcsr.setWidth 64
  | .sstatus => mstatusRead s.cfg s.mstatus &&& sstatusReadMask s.cfg
  | .sie => s.mie &&& delegatedMask s
  | .stvec => s.stvec
  | .scounteren => s.scounteren.setWidth 64
  | .sscratch => s.sscratch
  | .sepc => s.sepc
  | .scause => s.scause
  | .stval => s.stval
  | .sip => mipRead s &&& delegatedMask s
  | .satp => s.satp
  | .mstatus => mstatusRead s.cfg s.mstatus
  | .misa => s.cfg.misa
  | .medeleg => s.medeleg
  | .mideleg => s.mideleg
  | .mie => s.mie
  | .mtvec => s.mtvec
  | .mcounteren => s.mcounteren.setWidth 64
  | .mstatush => 0#64
  | .mcountinhibit => s.mcountinhibit.setWidth 64
  | .mhpmevent n => if n.val < s.cfg.numHpm then s.mhpmevent[n] else 0#64
  | .mscratch => s.mscratch
  | .mepc => s.mepc
  | .mcause => s.mcause
  | .mtval => s.mtval
  | .mip => mipRead s
  | .mtinst => s.mtinst
  | .mtval2 => s.mtval2
  | .pmpcfg k => pmpcfgRead s k.val
  | .pmpaddr i => if i.val < s.cfg.pmpEntries then s.pmpaddr[i] else 0#64
  | .tselect => s.tselect
  | .tdata1 => (selectedTrigger s).tdata1
  | .tdata2 => (selectedTrigger s).tdata2
  | .tdata3 => (selectedTrigger s).tdata3
  | .tinfo => tinfoRead s
  | .tcontrol => s.tcontrol
  | .mcontext => s.mcontext
  | .scontext => s.scontext
  | .dcsr => s.dcsr.setWidth 64
  | .dpc => s.dpc
  | .dscratch0 => s.dscratch0
  | .dscratch1 => s.dscratch1
  | .mcycle => counterLow s.cfg.xlen s.mcycle
  | .minstret => counterLow s.cfg.xlen s.minstret
  | .mhpmcounter n => counterLow s.cfg.xlen (hpmValue s n)
  | .mcycleh => counterHigh s.mcycle
  | .minstreth => counterHigh s.minstret
  | .mhpmcounterh n => counterHigh (hpmValue s n)
  | .cycle => counterLow s.cfg.xlen s.mcycle
  | .time => counterLow s.cfg.xlen s.time
  | .instret => counterLow s.cfg.xlen s.minstret
  | .hpmcounter n => counterLow s.cfg.xlen (hpmValue s n)
  | .cycleh => counterHigh s.mcycle
  | .timeh => counterHigh s.time
  | .instreth => counterHigh s.minstret
  | .hpmcounterh n => counterHigh (hpmValue s n)
  | .mvendorid => s.cfg.mvendorid.setWidth 64
  | .marchid => s.cfg.marchid
  | .mimpid => s.cfg.mimpid
  | .mhartid => s.cfg.mhartid
  | .mconfigptr => s.cfg.mconfigptr

/-! ### Writes (R30 to R107) -/

/-- A 64-bit counter after a write of its CSR: all of it on RV64, bits 31:0 on RV32 (R67). -/
def counterWriteLow (x : Xlen) (old : BitVec 64) (v : Word) : BitVec 64 :=
  match x with
  | .rv64 => v
  | .rv32 => old.extractLsb' 32 32 ++ v.extractLsb' 0 32

/-- A 64-bit counter after a write of its high half (R70). -/
def counterWriteHigh (old : BitVec 64) (v : Word) : BitVec 64 := v.extractLsb' 0 32 ++ old.extractLsb' 0 32

/-- The writable bits of mie: the six enables, the supervisor ones only with S-mode (R55). -/
def mieMask (c : Config) : Word := if hasS c then 0xAAA#64 else 0x888#64

/-- The writable bits of medeleg (R53). -/
def medelegMask : Word := 0xB3FF#64

/-- The writable bits of mideleg (R54), and of mip (R62). -/
def supervisorIrqMask : Word := 0x222#64

/-- The writable bits of mcountinhibit: mcycle, minstret, and the counters that count (R71; log 18). -/
def mcountinhibitMask (c : Config) : BitVec 32 :=
  0x5#32 ||| (BitVec.ofNat 32 (2 ^ min c.numHpm 29 - 1) <<< 3)

/-- The configuration bytes after a write of pmpcfg `k` (R65). -/
def pmpcfgWrite (s : State) (k : Nat) (v : Word) : Vector Byte 64 :=
  if pmpcfgExists s.cfg.xlen k then
    (List.range (pmpBytesPerReg s.cfg.xlen)).foldl
      (fun bytes j =>
        if 4 * k + j < s.cfg.pmpEntries then bytes.setIfInBounds (4 * k + j) (v.extractLsb' (8 * j) 8) else bytes)
      s.pmpcfg
  else s.pmpcfg

/-- The value a trigger register takes: a free legal value (log 17). -/
def triggerWrite (s : State) (reg : CsrAddr) (old v : Word) : Word :=
  trunc s.cfg.xlen (Config.triggerLegal reg s.tselect.toNat old v)

/-- dcsr after a write (R96): step is written, prv takes a legal mode, every other bit keeps its value. -/
def dcsrWrite (c : Config) (old : BitVec 32) (v : Word) : BitVec 32 :=
  (old &&& 0xFFFFFFF8#32) ||| (v.extractLsb' 0 32 &&& 0x4#32) |||
    BitVec.ofNat 32
      (legalise c.warl.dcsrPrv (modeEncodings c) (old.extractLsb' 0 2).toNat (v.extractLsb' 0 2).toNat % 4)

/-- The state with the selected trigger replaced, if there is one. -/
def setTrigger (s : State) (t : Trigger) : State := { s with triggers := s.triggers.set s.tselect.toNat t }

/-- A write of fflags, frm or fcsr also makes mstatus.FS dirty (R89). -/
def writeFcsr (s : State) (v : BitVec 8) : State := { s with fcsr := v, mstatus := setFSDirty s.mstatus }

/-- `csr_write` of a listed CSR (R30), with `v` an XLEN-bit value. Registers that are read-only by their address or by
all their fields keep their value. -/
def writeCsr (s : State) (r : Csr) (v : Word) : State :=
  match r with
  | .fflags => writeFcsr s (s.fcsr.extractLsb' 5 3 ++ v.extractLsb' 0 5)
  | .frm => writeFcsr s (v.extractLsb' 0 3 ++ s.fcsr.extractLsb' 0 5)
  | .fcsr => writeFcsr s (v.extractLsb' 0 8)
  | .sstatus =>
    { s with
      mstatus :=
        mstatusWrite s.cfg s.mstatus ((s.mstatus &&& ~~~sstatusWriteMask) ||| (v &&& sstatusWriteMask)) }
  | .sie => { s with mie := (s.mie &&& ~~~delegatedMask s) ||| (v &&& delegatedMask s) }
  | .stvec => { s with stvec := tvecWrite s.cfg s.cfg.warl.stvecMode s.stvec v }
  | .scounteren => { s with scounteren := v.extractLsb' 0 32 }
  | .sscratch => { s with sscratch := v }
  | .sepc => { s with sepc := v &&& ~~~3#64 }
  | .scause => { s with scause := v }
  | .stval => { s with stval := v }
  | .sip => if s.mideleg.getLsbD 1 then { s with mipSw := setBit s.mipSw 1 (v.getLsbD 1) } else s
  | .satp => { s with satp := satpWrite s.cfg s.satp v }
  | .mstatus => { s with mstatus := mstatusWrite s.cfg s.mstatus v }
  | .misa => s
  | .medeleg => { s with medeleg := v &&& medelegMask }
  | .mideleg => { s with mideleg := v &&& supervisorIrqMask }
  | .mie => { s with mie := v &&& mieMask s.cfg }
  | .mtvec => { s with mtvec := tvecWrite s.cfg s.cfg.warl.mtvecMode s.mtvec v }
  | .mcounteren => { s with mcounteren := v.extractLsb' 0 32 }
  | .mstatush => s
  | .mcountinhibit => { s with mcountinhibit := v.extractLsb' 0 32 &&& mcountinhibitMask s.cfg }
  | .mhpmevent n => if n.val < s.cfg.numHpm then { s with mhpmevent := s.mhpmevent.set n.val v } else s
  | .mscratch => { s with mscratch := v }
  | .mepc => { s with mepc := v &&& ~~~3#64 }
  | .mcause => { s with mcause := v }
  | .mtval => { s with mtval := v }
  | .mip => { s with mipSw := v &&& supervisorIrqMask }
  | .mtinst => { s with mtinst := v }
  | .mtval2 => { s with mtval2 := v }
  | .pmpcfg k => { s with pmpcfg := pmpcfgWrite s k.val v }
  | .pmpaddr i => if i.val < s.cfg.pmpEntries then { s with pmpaddr := s.pmpaddr.set i.val v } else s
  | .tselect =>
    { s with
      tselect :=
        BitVec.ofNat 64 (legalise s.cfg.warl.tselect (List.range s.cfg.numTriggers) s.tselect.toNat v.toNat) }
  | .tdata1 =>
    setTrigger s { selectedTrigger s with tdata1 := triggerWrite s (csrAddr .tdata1) (selectedTrigger s).tdata1 v }
  | .tdata2 =>
    setTrigger s { selectedTrigger s with tdata2 := triggerWrite s (csrAddr .tdata2) (selectedTrigger s).tdata2 v }
  | .tdata3 =>
    setTrigger s { selectedTrigger s with tdata3 := triggerWrite s (csrAddr .tdata3) (selectedTrigger s).tdata3 v }
  | .tinfo => s
  | .tcontrol => { s with tcontrol := triggerWrite s (csrAddr .tcontrol) s.tcontrol v }
  | .mcontext => { s with mcontext := triggerWrite s (csrAddr .mcontext) s.mcontext v }
  | .scontext => { s with scontext := triggerWrite s (csrAddr .scontext) s.scontext v }
  | .dcsr =>
    { s with dcsr := dcsrWrite s.cfg s.dcsr v }
  | .dpc => { s with dpc := v &&& ~~~3#64 }
  | .dscratch0 => { s with dscratch0 := v }
  | .dscratch1 => { s with dscratch1 := v }
  | .mcycle => { s with mcycle := counterWriteLow s.cfg.xlen s.mcycle v }
  | .minstret => { s with minstret := counterWriteLow s.cfg.xlen s.minstret v }
  | .mhpmcounter n =>
    if n.val < s.cfg.numHpm then
      { s with mhpmcounter := s.mhpmcounter.set n.val (counterWriteLow s.cfg.xlen s.mhpmcounter[n] v) }
    else s
  | .mcycleh => { s with mcycle := counterWriteHigh s.mcycle v }
  | .minstreth => { s with minstret := counterWriteHigh s.minstret v }
  | .mhpmcounterh n =>
    if n.val < s.cfg.numHpm then
      { s with mhpmcounter := s.mhpmcounter.set n.val (counterWriteHigh s.mhpmcounter[n] v) }
    else s
  | .cycle | .time | .instret | .hpmcounter _ | .cycleh | .timeh | .instreth | .hpmcounterh _ => s
  | .mvendorid | .marchid | .mimpid | .mhartid | .mconfigptr => s

/-! ### By address: what an instruction reads and writes (R201) -/

/-- `csr_read(a)`; an unimplemented CSR reads zero where it does not trap (R201). -/
def csrRead (s : State) (a : CsrAddr) : Word :=
  match csrImpl s.cfg a with
  | some r => readCsr s r
  | none => 0#64

/-- `csr_write(a, v)`; a write of an unimplemented CSR is ignored where it does not trap (R201). -/
def csrWrite (s : State) (a : CsrAddr) (v : Word) : State :=
  match csrImpl s.cfg a with
  | some r => writeCsr s r (trunc s.cfg.xlen v)
  | none => s

/-- The value a set or clear instruction combines with its operand: what it reads, but for mip without the external
part of bit 9 (R62). -/
def csrModifyBase (s : State) (a : CsrAddr) : Word :=
  match csrImpl s.cfg a with
  | some .mip => mipRead { s with seipExt := false }
  | _ => csrRead s a

/-- The address names minstret or its high half (R73 b). -/
def namesMinstret (s : State) (a : CsrAddr) : Bool :=
  csrImpl s.cfg a == some .minstret || csrImpl s.cfg a == some .minstreth

/-! ### Access checks (R200) -/

/-- The lowest privilege of an address: bits 9:8 (30_encoding.md R171). -/
def csrLevel (a : CsrAddr) : Nat := (a.extractLsb' 8 2).toNat

/-- The address is read-only: bits 11:10 are 11 (R172). -/
def csrReadOnly (a : CsrAddr) : Bool := a.extractLsb' 10 2 == 3#2

/-- An access to an unimplemented address does not trap (R201). -/
def unimplReadsZero (c : Config) (a : CsrAddr) : Bool :=
  match c.unimplCsr with
  | .trap => false
  | .zero => true
  | .zeroAt as => as.contains a

/-- A user counter is enabled for the current privilege (10_state.md R95); `n` is bits 4:0 of its address. Where a
configuration leaves mcounteren or scounteren out (`cfg.absent`), no write reaches it and its stored reset value counts:
the model's choice (log 36). -/
def counterEnabled (s : State) (n : Nat) : Bool :=
  match s.priv with
  | .M => true
  | .S => s.mcounteren.getLsbD n
  | .U => s.mcounteren.getLsbD n && (!hasS s.cfg || s.scounteren.getLsbD n)

/-- The gate of one register: Debug Mode (R99), mstatus.FS (R89), the counter enables (R95), mstatus.TVM (R85). -/
def csrGate (s : State) (a : CsrAddr) (wr : Bool) : Csr → Bool
  | .dcsr | .dpc | .dscratch0 | .dscratch1 => s.debugMode
  | .fflags | .frm | .fcsr => mstatusFS s.mstatus != 0#2
  | .cycle | .time | .instret | .hpmcounter _ | .cycleh | .timeh | .instreth | .hpmcounterh _ =>
    counterEnabled s (a.extractLsb' 0 5).toNat
  | .satp => !(s.priv == .S && mstatusTVM s.mstatus && (s.cfg.tvmTrapsReads || wr))
  | _ => true

/-- Checks 4 and 5 of R200 at an address, whether or not the register there is implemented: R99, R89, R95 and R85 speak
of every CSR instruction naming the address (log 27). -/
def csrGateAt (s : State) (a : CsrAddr) (wr : Bool) : Bool :=
  match csrAt a with
  | some r => csrGate s a wr r
  | none => true

/-- The access check of a CSR instruction (R200): privilege, read-only, existence, and the register's own gate. -/
def csrPermitted (s : State) (a : CsrAddr) (wr : Bool) : Bool :=
  decide (csrLevel a ≤ (privBits s.priv).toNat) && !(wr && csrReadOnly a) &&
    ((csrImpl s.cfg a).isSome || unimplReadsZero s.cfg a) && csrGateAt s a wr

/-- A write of misa that the spec gives no rule for (93_implementation_defined.md I8; log 20). -/
def misaWriteOpen (s : State) (a : CsrAddr) (wr : Bool) : Bool :=
  wr && s.cfg.misaWritable && csrImpl s.cfg a == some .misa

/-! ### The one operation behind the six CSR instructions (R200 to R206) -/

/-- A CSR instruction with instruction word `word`, naming `a`: check, read, write `new` of the old value if `wr`, put
the value read in rd if `rdEn`, retire. All reads come before the writes (R204). -/
def csrInstr (word : InstrWord) (a : CsrAddr) (rd : Reg) (wr rdEn : Bool) (new : Word → Word) (s : State) : Result :=
  if !csrPermitted s a wr then .next (raiseIllegal word s)
  else if misaWriteOpen s a wr then .refused .misaWrite
  else
    let written := if wr then csrWrite s a (new (csrModifyBase s a)) else s
    let result := if rdEn then setX written rd (csrRead s a) else written
    .next (advancePc (countRetired s.mcountinhibit (wr && namesMinstret s a) result))

end Sys2Proof.Machine
end

