-- ==== Sys2Proof/Machine/CsrInstr.lean ====
section
/-! DEFINITION. The six CSR instructions (40_csr_instructions.md R203 to R212). Which of them reads and which writes the
CSR is the table of R203: CSRRW and CSRRWI always write and read unless rd is x0; the set and clear forms always read and
write unless the register number, or the 5-bit immediate, is 0. -/

namespace Sys2Proof.Machine

/-- CSRRW (R207). -/
def execCsrrw (rd : Reg) (csr : CsrAddr) (rs1 : Reg) (s : State) : Result :=
  csrInstr (encode (.csrrw rd csr rs1)) csr rd true (rd != 0#5) (fun _ => readX s rs1) s

/-- CSRRS (R208). -/
def execCsrrs (rd : Reg) (csr : CsrAddr) (rs1 : Reg) (s : State) : Result :=
  csrInstr (encode (.csrrs rd csr rs1)) csr rd (rs1 != 0#5) true (fun t => t ||| readX s rs1) s

/-- CSRRC (R209). -/
def execCsrrc (rd : Reg) (csr : CsrAddr) (rs1 : Reg) (s : State) : Result :=
  csrInstr (encode (.csrrc rd csr rs1)) csr rd (rs1 != 0#5) true (fun t => t &&& ~~~readX s rs1) s

/-- CSRRWI (R210). -/
def execCsrrwi (rd : Reg) (csr : CsrAddr) (uimm : BitVec 5) (s : State) : Result :=
  csrInstr (encode (.csrrwi rd csr uimm)) csr rd true (rd != 0#5) (fun _ => zextUimm uimm) s

/-- CSRRSI (R211). -/
def execCsrrsi (rd : Reg) (csr : CsrAddr) (uimm : BitVec 5) (s : State) : Result :=
  csrInstr (encode (.csrrsi rd csr uimm)) csr rd (uimm != 0#5) true (fun t => t ||| zextUimm uimm) s

/-- CSRRCI (R212). -/
def execCsrrci (rd : Reg) (csr : CsrAddr) (uimm : BitVec 5) (s : State) : Result :=
  csrInstr (encode (.csrrci rd csr uimm)) csr rd (uimm != 0#5) true (fun t => t &&& ~~~zextUimm uimm) s

end Sys2Proof.Machine
end

