-- ==== Sys2Proof/Machine/System.lean ====
section
/-! DEFINITION. The system instructions (41_system_instructions.md R230 to R235). -/

namespace Sys2Proof.Machine

/-- MRET (R230): illegal below M-mode; else the return, retired. -/
def execMret (s : State) : Result :=
  if s.priv ≠ .M then .next (raiseIllegal (encode .mret) s)
  else match privOfBits (mstatusMPP s.mstatus) with
    | none => .fault .reservedMpp
    | some new => .next (returnFromM new (countRetired s.mcountinhibit false s))

/-- SRET (R231): illegal without S-mode, in U-mode, and in S-mode with TSR = 1; else the return, retired. -/
def execSret (s : State) : Result :=
  if hasS s.cfg = false ∨ s.priv = .U ∨ (s.priv = .S ∧ mstatusTSR s.mstatus = true) then
    .next (raiseIllegal (encode .sret) s)
  else .next (returnFromS (countRetired s.mcountinhibit false s))

/-- Whether WFI stalls the hart (R232). -/
def wfiWaits (s : State) : Bool :=
  match s.cfg.wfiMode with
  | .nop => s.waiting
  | .wait => true
  | .either => s.stallDraw

/-- WFI (R232): illegal in U-mode when S-mode exists, and below M-mode with TW = 1; else it retires and may stall. -/
def execWfi (s : State) : Result :=
  if (s.priv = .U ∧ hasS s.cfg = true) ∨ (s.priv ≠ .M ∧ mstatusTW s.mstatus = true) then
    .next (raiseIllegal (encode .wfi) s)
  else .next { retire s with waiting := wfiWaits s }

/-- The exception of ECALL by the mode that executes it (R233). -/
def ecallExc : Priv → Exc
  | .U => .environmentCallFromUMode
  | .S => .environmentCallFromSMode
  | .M => .environmentCallFromMMode

/-- ECALL (R233): always raises, with trap value 0. -/
def execEcall (s : State) : Result := .next (raiseExc (ecallExc s.priv) 0#64 s)

/-- EBREAK (R234): always raises Breakpoint. -/
def execEbreak (s : State) : Result :=
  .next (raiseExc .breakpoint
    (match s.cfg.mtvalEbreak with
      | .pc => s.pc
      | .zero => 0#64) s)

/-- SFENCE.VMA (R235): illegal without S-mode, in U-mode, and in S-mode with TVM = 1; else it flushes and retires. -/
def execSfenceVma (rs1 rs2 : Reg) (s : State) : Result :=
  if hasS s.cfg = false ∨ s.priv = .U ∨ (s.priv = .S ∧ mstatusTVM s.mstatus = true) then
    .next (raiseIllegal (encode (.sfenceVma rs1 rs2)) s)
  else .next (retire (flushTlb rs1 rs2 s))

end Sys2Proof.Machine
end

