-- ==== Sys2Proof/Machine/Hart.lean ====
section
/-! DEFINITION. One step of the hart around the instruction (00_scope.md R3): the agents move (R4, 10_state.md R73), a
waiting hart may wake (41_system_instructions.md R232), an interrupt may be taken (60_exceptions.md R286), else the
instruction at pc is fetched (20_memory.md R150, R160), decoded (30_encoding.md R182) and executed. -/

namespace Sys2Proof.Machine

/-! ### The platform and counter agents -/

/-- The input of this step: the next one listed, else a draw (log 9). -/
def nextInput (s : State) : PlatformInput :=
  match s.inputs with
  | i :: _ => i
  | [] => Config.platformDraw s.draws

/-- The performance counters that count, advanced unless inhibited (R69, R71). -/
def advanceHpm (s : State) (amounts : List Nat) : Vector (BitVec 64) 29 :=
  (List.range (min s.cfg.numHpm 29)).foldl
    (fun v k =>
      if s.mcountinhibit.getLsbD (k + 3) then v
      else v.setIfInBounds k (v[k]?.getD 0#64 + BitVec.ofNat 64 (amounts.getD k 0)))
    s.mhpmcounter

/-- The platform drives its wires and its timer, and the counters advance unless inhibited (R4, R73). The move comes
before everything else of the step, so an instruction that writes mcycle leaves what it wrote (log 10). -/
def moveAgents (s : State) : State :=
  { s with
    meip        := (nextInput s).meip
    mtip        := (nextInput s).mtip
    msip        := (nextInput s).msip
    seipExt     := (nextInput s).seipExt
    time        := s.time + BitVec.ofNat 64 (nextInput s).ticks
    mcycle      := if s.mcountinhibit.getLsbD 0 then s.mcycle
                   else s.mcycle + BitVec.ofNat 64 (nextInput s).cycles
    mhpmcounter := advanceHpm s (nextInput s).hpm
    stallDraw   := (nextInput s).stall
    inputs      := s.inputs.tail
    draws       := match s.inputs with
                   | _ :: _ => s.draws
                   | [] => s.draws + 1 }

/-! ### Waking from WFI -/

/-- A waiting hart goes on when any interrupt is pending and individually enabled, whether or not it is globally
enabled or delegated (R232). -/
def wake (s : State) : State :=
  if s.waiting && (mipRead s &&& s.mie) != 0#64 then { s with waiting := false } else s

/-! ### Interrupts -/

/-- The interrupt is pending and individually enabled: its bit of `csr_read(mip) & mie` (R286). -/
def irqPending (s : State) (i : Irq) : Bool := s.mie.getLsbD (irqCode i) && (mipRead s).getLsbD (irqCode i)

/-- The interrupt is delegated to S-mode (R289). -/
def irqDelegated (s : State) (i : Irq) : Bool := s.mideleg.getLsbD (irqCode i)

/-- Interrupts handled in M-mode can be taken (R286). -/
def machineEnabled (s : State) : Bool := s.priv != .M || mstatusMIE s.mstatus

/-- Interrupts handled in S-mode can be taken (R286). -/
def supervisorEnabled (s : State) : Bool :=
  match s.priv with
  | .U => true
  | .S => mstatusSIE s.mstatus
  | .M => false

/-- The priority order of the interrupts handled in M-mode, highest first (R287). -/
def machineOrder : List Irq :=
  [.machineExternal, .machineSoftware, .machineTimer, .supervisorExternal, .supervisorSoftware, .supervisorTimer]

/-- The priority order of the interrupts handled in S-mode, highest first (R286). -/
def supervisorOrder : List Irq := [.supervisorExternal, .supervisorSoftware, .supervisorTimer]

/-- The interrupt taken before fetch, with the mode that handles it (R286). -/
def interruptTaken (s : State) : Option (Irq × Priv) :=
  match (if machineEnabled s then machineOrder.find? (fun i => irqPending s i && !irqDelegated s i) else none) with
  | some i => some (i, .M)
  | none =>
    match (if supervisorEnabled s then supervisorOrder.find? (fun i => irqPending s i && irqDelegated s i)
           else none) with
    | some i => some (i, .S)
    | none => none

/-! ### Fetch -/

/-- What a fetch answers. -/
inductive Fetched where
  /-- The four bytes at pc. -/
  | bytes (bs : List Byte)
  /-- The fetch raises an exception with pc as its trap value. -/
  | raises (e : Exc)
  /-- The spec gives the fetch no meaning. -/
  | refused (r : Refusal)
deriving DecidableEq, Repr

/-- The addresses of the four bytes at pc. -/
def fetchAddrs (s : State) : List Nat := accessAddrs s.cfg.xlen s.pc 4

/-- Fetch at pc (R150): translation, PMP, memory map, then the bytes, none of which the run has stored to (R160). -/
def fetch (s : State) : Fetched :=
  if translationActive s s.priv then .refused .translatedAccess
  else if !(pmpAllows s s.pc 4 .fetch s.priv) then .raises .instructionAccessFault
  else if !(memoryAnswers s.cfg s.pc 4) then .raises .instructionAccessFault
  else if (fetchAddrs s).any (fun a => s.stored.contains a) then .refused .modifiedCode
  else .bytes (readBytes s.mem (fetchAddrs s))

/-! ### The step -/

/-- Decode and execute the bytes fetched: an illegal SYSTEM word raises IllegalInstruction (R182 a), a word outside the
spec is refused (R182 b). -/
def runBytes (bs : List Byte) (s : State) : Result :=
  match decode s.cfg.xlen bs with
  | .instr i => exec i s
  | .illegal => .next (raiseIllegal ((wordOfBytes bs).getD 0#32) s)
  | .outside => .refused .outsideSpec
  | .truncated => .refused .outsideSpec

/-- The instruction at pc. -/
def runAtPc (s : State) : Result :=
  match fetch s with
  | .bytes bs => runBytes bs s
  | .raises e => .next (raiseExc e s.pc s)
  | .refused r => .refused r

/-- What a hart does once the agents have moved (R3, R232). -/
def hartAct (s : State) : Result :=
  if s.waiting then .next s
  else match interruptTaken s with
    | some (i, target) => .next (takeTrap true (irqCode i) 0#64 s.pc target s)
    | none => runAtPc s

/-- One step of the hart. -/
def hartStep (s : State) : Result := hartAct (wake (moveAgents s))

/-- The state with an instruction word loaded from outside the machine at pc (log 8): its bytes stand in memory, and the
run has not stored to them. -/
def loadWordAtPc (s : State) (w : InstrWord) : State :=
  { s with
    mem    := writeBytes s.cfg.xlen s.mem s.pc 4 (w.setWidth 64)
    stored := s.stored.filter (fun a => !(fetchAddrs s).contains a) }

end Sys2Proof.Machine
end

