-- ==== Sys2Proof/Machine/Step.lean ====
section
/-! DEFINITION. The step of the machine, and the loading of one instruction where the step fetches. -/

namespace Sys2Proof.Machine

/-- One step (00_scope.md R3). -/
def step (s : State) : Host.Outcome State Fault Refusal := hartStep s

/-- The state with the instruction of the `nbits` bits of `w`, every bit above them zero, stored at pc. -/
def State.withFetchWord (s : State) (nbits w : Nat) : State := loadWordAtPc s (BitVec.ofNat 32 (w % 2 ^ nbits))

end Sys2Proof.Machine
end

