-- ==== Sys2Proof/Safety.lean ====
section
/-! DEFINITION. What claims say about states and instructions: the invariant every reachable state has, the width
invariant of XLEN = 32, which CSR an instruction names and whether it reads or writes it (40_csr_instructions.md R203),
which CSRs share storage, and what counts as a completed or safe step. -/

namespace Sys2Proof.Machine

/-! ### Outcomes -/

/-- A step is safe when it ends in a next state. -/
def Completes (r : Result) : Prop := ∃ t, r = .next t

/-- A state from which no run stops: every number of steps ends in a next state. -/
def Safe (s : State) : Prop := ∀ k, Completes (Host.Core.run Sys2Proof.core k s)

/-! ### Configurations a hart can have -/

/-- The satp.MODE values the source lists (10_state.md R83, R84). -/
def listedSatpModes : Xlen → List Nat
  | .rv64 => [0, 8, 9, 10]
  | .rv32 => [0, 1]

/-- The value fits XLEN bits. -/
def FitsXlen (x : Xlen) (v : Word) : Prop := trunc x v = v

/-- The configuration keeps within what 00_scope.md R2 allows each parameter. -/
structure ConfigWf (c : Config) : Prop where
  mtvecModes  : ∀ m ∈ c.mtvecModes, m = 0 ∨ m = 1
  satpModes   : ∀ m ∈ c.satpModes, m ∈ listedSatpModes c.xlen
  pmpEntries  : c.pmpEntries ≤ 64
  numHpm      : c.numHpm ≤ 29
  numTriggers : c.numTriggers ≤ 2 ^ 32
  resetVector : FitsXlen c.xlen c.resetVector ∧ c.resetVector &&& 3#64 = 0#64
  constants   : FitsXlen c.xlen c.misa ∧ FitsXlen c.xlen c.marchid ∧ FitsXlen c.xlen c.mimpid ∧
                FitsXlen c.xlen c.mhartid ∧ FitsXlen c.xlen c.mconfigptr
  tinfo       : ∀ v ∈ c.tinfo, FitsXlen c.xlen v

/-! ### The invariants -/

/-- What every state of a run satisfies: memory in its canonical form, x0 zero (R21), pc, mepc and sepc 4-byte aligned
(R24, R59, R79), the mode and MPP implemented modes (R25, R40), the read-only bits of mstatus, mie, mip, medeleg, mideleg
and mcountinhibit zero (R49 to R55, R62, R71), the MODE fields legal (R56, R76, R85), Debug Mode not entered (R26). -/
structure Inv (s : State) : Prop where
  config        : ConfigWf s.cfg
  memory        : Memory.wf s.mem
  stored        : s.stored.Pairwise (· < ·)
  x0            : s.x[0] = 0#64
  pcAligned     : s.pc &&& 3#64 = 0#64
  mepcAligned   : s.mepc &&& 3#64 = 0#64
  sepcAligned   : s.sepc &&& 3#64 = 0#64
  privLegal     : implementsMode s.cfg s.priv = true
  mppLegal      : (mstatusMPP s.mstatus).toNat ∈ modeEncodings s.cfg
  mstatusMasked : s.mstatus &&& ~~~mstatusMask s.cfg = 0#64
  mieMasked     : s.mie &&& ~~~mieMask s.cfg = 0#64
  mipMasked     : s.mipSw &&& ~~~supervisorIrqMask = 0#64
  medelegMasked : s.medeleg &&& ~~~medelegMask = 0#64
  midelegMasked : s.mideleg &&& ~~~supervisorIrqMask = 0#64
  noDelegation  : hasS s.cfg = false → s.medeleg = 0#64 ∧ s.mideleg = 0#64
  inhibitMasked : s.mcountinhibit &&& ~~~mcountinhibitMask s.cfg = 0#32
  mtvecLegal    : (s.mtvec.extractLsb' 0 2).toNat ∈ s.cfg.mtvecModes
  stvecLegal    : (s.stvec.extractLsb' 0 2).toNat ∈ s.cfg.mtvecModes
  satpLegal     : satpMode s.cfg.xlen s.satp ∈ s.cfg.satpModes
  noDebug       : s.debugMode = false

/-- The three registers of a trigger fit XLEN bits (R101 to R103). -/
structure TriggerFits (x : Xlen) (t : Trigger) : Prop where
  tdata1 : FitsXlen x t.tdata1
  tdata2 : FitsXlen x t.tdata2
  tdata3 : FitsXlen x t.tdata3

/-- Every XLEN-wide register that no mask of `Inv` bounds fits XLEN bits: with XLEN = 32 its container's upper half is
zero (log 2). The others are mstatus, mie, mip, medeleg and mideleg, whose writable bits all lie below bit 32, and the
constants of the configuration (`ConfigWf`). -/
structure WidthInv (s : State) : Prop where
  x         : ∀ r : Fin 32, FitsXlen s.cfg.xlen s.x[r]
  pc        : FitsXlen s.cfg.xlen s.pc
  mtvec     : FitsXlen s.cfg.xlen s.mtvec
  mscratch  : FitsXlen s.cfg.xlen s.mscratch
  mepc      : FitsXlen s.cfg.xlen s.mepc
  mcause    : FitsXlen s.cfg.xlen s.mcause
  mtval     : FitsXlen s.cfg.xlen s.mtval
  mtinst    : FitsXlen s.cfg.xlen s.mtinst
  mtval2    : FitsXlen s.cfg.xlen s.mtval2
  stvec     : FitsXlen s.cfg.xlen s.stvec
  sscratch  : FitsXlen s.cfg.xlen s.sscratch
  sepc      : FitsXlen s.cfg.xlen s.sepc
  scause    : FitsXlen s.cfg.xlen s.scause
  stval     : FitsXlen s.cfg.xlen s.stval
  satp      : FitsXlen s.cfg.xlen s.satp
  mhpmevent : ∀ n : Fin 29, FitsXlen s.cfg.xlen s.mhpmevent[n]
  pmpaddr   : ∀ i : Fin 64, FitsXlen s.cfg.xlen s.pmpaddr[i]
  dpc       : FitsXlen s.cfg.xlen s.dpc
  dscratch0 : FitsXlen s.cfg.xlen s.dscratch0
  dscratch1 : FitsXlen s.cfg.xlen s.dscratch1
  tselect   : FitsXlen s.cfg.xlen s.tselect
  triggers  : ∀ t ∈ s.triggers, TriggerFits s.cfg.xlen t
  tcontrol  : FitsXlen s.cfg.xlen s.tcontrol
  mcontext  : FitsXlen s.cfg.xlen s.mcontext
  scontext  : FitsXlen s.cfg.xlen s.scontext

/-! ### What a CSR instruction names, reads and writes (R203) -/

/-- The CSR address an instruction names. -/
def csrNamed : Instr → Option CsrAddr
  | .csrrw _ a _ | .csrrs _ a _ | .csrrc _ a _ | .csrrwi _ a _ | .csrrsi _ a _ | .csrrci _ a _ => some a
  | .mret | .sret | .wfi | .ecall | .ebreak | .sfenceVma _ _
  | .addi _ _ _ | .andi _ _ _ | .ori _ _ _ | .srli _ _ _ | .sd _ _ _ => none

/-- The register an instruction puts a result in: rd, and x0 for an instruction without one. -/
def destReg : Instr → Reg
  | .csrrw rd _ _ | .csrrs rd _ _ | .csrrc rd _ _ | .csrrwi rd _ _ | .csrrsi rd _ _ | .csrrci rd _ _ => rd
  | .addi rd _ _ | .andi rd _ _ | .ori rd _ _ | .srli rd _ _ => rd
  | .mret | .sret | .wfi | .ecall | .ebreak | .sfenceVma _ _ | .sd _ _ _ => 0#5

/-- `wr` of R203: the instruction writes the CSR it names. -/
def csrWrites : Instr → Bool
  | .csrrw _ _ _ | .csrrwi _ _ _ => true
  | .csrrs _ _ rs1 | .csrrc _ _ rs1 => rs1 != 0#5
  | .csrrsi _ _ uimm | .csrrci _ _ uimm => uimm != 0#5
  | .mret | .sret | .wfi | .ecall | .ebreak | .sfenceVma _ _
  | .addi _ _ _ | .andi _ _ _ | .ori _ _ _ | .srli _ _ _ | .sd _ _ _ => false

/-! ### Which CSRs share storage -/

/-- A write of CSR `r` may change what CSR `q` reads: `q` is `r` itself, another view of the same storage (R74, R75,
R82, R86 to R88, R90 to R94), a view through a mask that `r` holds (sie and sip through mideleg), mstatus made dirty by a
floating-point CSR (R89), or a register of the trigger that tselect selects (R100). -/
def mayAffect (r q : Csr) : Bool :=
  r == q ||
  match r, q with
  | .mstatus, .sstatus | .sstatus, .mstatus => true
  | .fflags, .frm | .fflags, .fcsr | .frm, .fflags | .frm, .fcsr | .fcsr, .fflags | .fcsr, .frm => true
  | .fflags, .mstatus | .frm, .mstatus | .fcsr, .mstatus => true
  | .fflags, .sstatus | .frm, .sstatus | .fcsr, .sstatus => true
  | .mie, .sie | .sie, .mie | .mip, .sip | .sip, .mip => true
  | .mideleg, .sie | .mideleg, .sip => true
  | .mcycle, .mcycleh | .mcycle, .cycle | .mcycle, .cycleh => true
  | .mcycleh, .mcycle | .mcycleh, .cycle | .mcycleh, .cycleh => true
  | .minstret, .minstreth | .minstret, .instret | .minstret, .instreth => true
  | .minstreth, .minstret | .minstreth, .instret | .minstreth, .instreth => true
  | .mhpmcounter n, .mhpmcounterh k | .mhpmcounter n, .hpmcounter k | .mhpmcounter n, .hpmcounterh k => n == k
  | .mhpmcounterh n, .mhpmcounter k | .mhpmcounterh n, .hpmcounter k | .mhpmcounterh n, .hpmcounterh k => n == k
  | .tselect, .tdata1 | .tselect, .tdata2 | .tselect, .tdata3 | .tselect, .tinfo => true
  | _, _ => false

/-! ### Parts of the state -/

/-- The two states agree in everything but the general registers, pc and minstret: what a CSR access leaves to the
rules of the general registers (R21), of pc (R23) and of retirement (R73). -/
def AgreeButXPcInstret (s t : State) : Prop :=
  { s with x := t.x, pc := t.pc, minstret := t.minstret } = t

/-- The count of retired instructions after one more, unless counter 2 is inhibited (R73 b). -/
def countOne (s : State) : BitVec 64 :=
  if s.mcountinhibit.getLsbD 2 then s.minstret else s.minstret + 1#64

/-- The address of the next instruction (R23). -/
def nextPc (s : State) : Word := trunc s.cfg.xlen (s.pc + 4#64)

/-- `t` is what an instruction leaves that retires at `s`: register `rd` holds `v` and every other register what it held
(x0 stays zero), pc is at the next instruction, and everything else but minstret is as in `u`. -/
structure RetiresWriting (s u t : State) (rd : Reg) (v : Word) : Prop where
  rest : AgreeButXPcInstret u t
  regs : ∀ r, readX t r = if r = rd ∧ r ≠ 0#5 then v else readX s r
  pc   : t.pc = nextPc s

/-! ### Interrupt priority (60_exceptions.md R287) -/

/-- The rank of an interrupt, 0 the highest: 11, 3, 7, 9, 1, 5. -/
def irqRank : Irq → Nat
  | .machineExternal => 0
  | .machineSoftware => 1
  | .machineTimer => 2
  | .supervisorExternal => 3
  | .supervisorSoftware => 4
  | .supervisorTimer => 5

/-- The interrupt is one of those S-mode can handle: 9, 1, 5. -/
def irqSupervisor : Irq → Bool
  | .supervisorExternal | .supervisorSoftware | .supervisorTimer => true
  | .machineExternal | .machineSoftware | .machineTimer => false

end Sys2Proof.Machine
end

