-- ==== Sys2Proof/Certificates/Slice0/Obligations.lean ====
section
/-! DEFINITION. The statements for the provers. Each docstring names the rule of spec/ it formalises. -/

open Sys2Proof Sys2Proof.Machine

/-! ### Encoding (30_encoding.md) -/

/-- R174 to R182: the decoder reads back every instruction that exists with this XLEN from the bytes its encoding
stores, with every operand at every value. -/
def Obligations.DecodeOfEncodeIsIdentity : Prop :=
  ∀ (x : Xlen) (i : Instr), i.wf x = true → decode x (bytesOfWord (encode i)) = .instr i

/-- R174 to R182: whatever bytes decode to an instruction, they begin with that instruction's encoding, and the
instruction exists with this XLEN. -/
def Obligations.EncodeOfDecodeIsIdentity : Prop :=
  ∀ (x : Xlen) (bytes : List Byte) (i : Instr), decode x bytes = .instr i →
    i.wf x = true ∧ ∃ rest, bytes = bytesOfWord (encode i) ++ rest

/-- R181 and spec/opcode_table.json: a word decodes (XLEN = 64) to an instruction of a row exactly when it matches that
row's mask and pattern, for each of the 17 rows. -/
def Obligations.DecodeFollowsOpcodeTable : Prop :=
  opcodeTable.length = 17 ∧
  ∀ r ∈ opcodeTable, ∀ w : InstrWord,
    (w &&& r.mask = r.pattern ↔ ∃ i : Instr, decodeWord .rv64 w = .instr i ∧ i.row = r)

/-- R182 (a), (b): a word is illegal exactly when its opcode is SYSTEM with funct3 = 100, or funct3 = 000 and none of
the patterns of R179; and with another opcode, or an OP-IMM or STORE pattern of no row, it is outside the spec. The
instructions that RV32 lacks (R177, R178) exec refuses by name there (log 33). -/
def Obligations.UnlistedWordsIllegalOrOutside : Prop :=
  ∀ (x : Xlen) (w : InstrWord),
    (decodeWord x w = .illegal ↔
      opcodeField w = 0b1110011#7 ∧
        (funct3Field w = 0b100#3 ∨
          (funct3Field w = 0b000#3 ∧
            w ∉ [0x00000073#32, 0x00100073#32, 0x10200073#32, 0x30200073#32, 0x10500073#32] ∧
            ¬ (funct7Field w = 0b0001001#7 ∧ rdField w = 0#5)))) ∧
    (decodeWord x w = .outside ↔
      (opcodeField w ≠ 0b1110011#7 ∧ opcodeField w ≠ 0b0010011#7 ∧ opcodeField w ≠ 0b0100011#7) ∨
      (opcodeField w = 0b0010011#7 ∧
        funct3Field w ∉ [0b000#3, 0b110#3, 0b111#3] ∧
        ¬ (funct3Field w = 0b101#3 ∧ w.extractLsb' 26 6 = 0#6 ∧ (x = .rv32 → w.getLsbD 25 = false))) ∨
      (opcodeField w = 0b0100011#7 ∧ ¬ (funct3Field w = 0b011#3 ∧ x = .rv64))) ∧
    (∀ s : State, s.cfg.xlen = .rv32 →
      (∀ rs2 rs1 imm, exec (.sd rs2 rs1 imm) s = .refused .wrongXlen) ∧
      (∀ rd rs1 shamt, 32 ≤ shamt.toNat → exec (.srli rd rs1 shamt) s = .refused .wrongXlen))

/-- The words of 95_test_vectors.md group TH, written from the formats of R175 to R179, decode to what they stand for.
-/
def Obligations.SampleWordsDecode : Prop :=
  decodeWord .rv64 0x34011173#32 = .instr (.csrrw 2 0x340 2) ∧
  decodeWord .rv64 0x300472F3#32 = .instr (.csrrci 5 0x300 8) ∧
  decodeWord .rv64 0x30200073#32 = .instr .mret ∧
  decodeWord .rv64 0x12B50073#32 = .instr (.sfenceVma 10 11) ∧
  decodeWord .rv64 0xF0010113#32 = .instr (.addi 2 2 0xF00) ∧
  decodeWord .rv64 0x03F2D293#32 = .instr (.srli 5 5 63) ∧
  decodeWord .rv64 0xFE613C23#32 = .instr (.sd 6 2 0xFF8)

/-! ### CSR addresses and access checks (10_state.md R27, R89, R95, R99; 30_encoding.md R171, R172; R200, R201) -/

/-- R27: the table gives every listed CSR its own address, and an address at most one CSR. -/
def Obligations.CsrTableIsOneToOne : Prop :=
  (∀ r : Csr, csrAt (csrAddr r) = some r) ∧
  (∀ (a : CsrAddr) (r : Csr), csrAt a = some r → csrAddr r = a)

/-- R171, R172, checks 1 and 2 of R200: bits 9:8 of the address are the lowest privilege that may access the register,
and bits 11:10 = 11 make it read-only: a CSR instruction below that level, or one that writes a read-only address,
raises IllegalInstruction; every other access to an implemented register whose own gate (R89, R95, R99, R85) is open
completes, stays in its mode and goes on to the next instruction. (A write of a writable misa is refused, log 20.) -/
def Obligations.CsrAccessByLevelAndKind : Prop :=
  ∀ (i : Instr) (a : CsrAddr) (s : State), csrNamed i = some a →
    let level := (a.extractLsb' 8 2).toNat
    let readOnly := a.extractLsb' 10 2 = 0b11#2
    ((privBits s.priv).toNat < level → exec i s = .next (raiseIllegal (encode i) s)) ∧
    (csrWrites i = true → readOnly → exec i s = .next (raiseIllegal (encode i) s)) ∧
    (∀ r : Csr, level ≤ (privBits s.priv).toNat → ¬ (csrWrites i = true ∧ readOnly) → csrImpl s.cfg a = some r →
      csrGate s a (csrWrites i) r = true → misaWriteOpen s a (csrWrites i) = false →
      ∃ t, exec i s = .next t ∧ t.priv = s.priv ∧ t.pc = nextPc s)

/-- R201: where the policy is to trap, every CSR instruction naming an address outside IMPL raises IllegalInstruction;
where it is to read zero, one that passes the other checks of R200 reads zero, writes nothing, and retires. That the
checks 4 and 5, the gates, are asked by address and so also of an address outside IMPL is read from R99, R89, R95 and
R85 (DEDUCED, log 27). -/
def Obligations.UnimplementedCsrTrapsOrReadsZero : Prop :=
  ∀ (i : Instr) (a : CsrAddr) (s : State), csrNamed i = some a → csrImpl s.cfg a = none →
    (unimplReadsZero s.cfg a = false → exec i s = .next (raiseIllegal (encode i) s)) ∧
    (csrGateAt s a (csrWrites i) = false → exec i s = .next (raiseIllegal (encode i) s)) ∧
    (unimplReadsZero s.cfg a = true → (a.extractLsb' 8 2).toNat ≤ (privBits s.priv).toNat →
      ¬ (csrWrites i = true ∧ a.extractLsb' 10 2 = 0b11#2) → csrGateAt s a (csrWrites i) = true →
      ∃ t, exec i s = .next t ∧ RetiresWriting s s t (destReg i) 0#64 ∧ t.minstret = countOne s)

/-- R99, R301 (a), check 4 of R200: outside Debug Mode any CSR instruction naming 0x7B0 to 0x7B3 raises
IllegalInstruction, whatever the privilege, and whether or not the configuration implements the register. -/
def Obligations.DebugCsrTrapsOutsideDebugMode : Prop :=
  ∀ (i : Instr) (a : CsrAddr) (s : State), csrNamed i = some a →
    a ∈ [0x7B0#12, 0x7B1#12, 0x7B2#12, 0x7B3#12] → s.debugMode = false →
    exec i s = .next (raiseIllegal (encode i) s)

/-- R89: with FS = 0 every CSR instruction naming 0x001 to 0x003 raises IllegalInstruction; otherwise one naming an
implemented register completes, and FS becomes 3 exactly when it writes the register. (That the gate stands where the
register is not implemented is log 27.) -/
def Obligations.FloatCsrsGatedByFS : Prop :=
  ∀ (i : Instr) (a : CsrAddr) (s : State), csrNamed i = some a →
    a ∈ [0x001#12, 0x002#12, 0x003#12] →
    (mstatusFS s.mstatus = 0#2 → exec i s = .next (raiseIllegal (encode i) s)) ∧
    (mstatusFS s.mstatus ≠ 0#2 → csrImpl s.cfg a ≠ none → ∃ t, exec i s = .next t ∧ t.priv = s.priv ∧ t.pc = nextPc s ∧
      (csrWrites i = true → t.mstatus = s.mstatus ||| 0x6000#64) ∧
      (csrWrites i = false → t.mstatus = s.mstatus ∧ t.fcsr = s.fcsr))

/-- R95: which CSR instructions that read a user counter raise IllegalInstruction: bit N of the enables decides, N the
low five bits of the address; the others, naming an implemented counter, complete and write nothing but rd. (That the
gate stands where the counter is not implemented is log 27; what an enable register outside IMPL holds is log 36.) -/
def Obligations.CounterEnableCheck : Prop :=
  ∀ (i : Instr) (a : CsrAddr) (s : State), csrNamed i = some a → csrWrites i = false →
    ((0xC00 ≤ a.toNat ∧ a.toNat ≤ 0xC1F) ∨ (0xC80 ≤ a.toNat ∧ a.toNat ≤ 0xC9F)) →
    let n := (a.extractLsb' 0 5).toNat
    let denied := (s.priv = .S ∧ s.mcounteren.getLsbD n = false) ∨
      (s.priv = .U ∧ (s.mcounteren.getLsbD n = false ∨ (hasS s.cfg = true ∧ s.scounteren.getLsbD n = false)))
    (denied → exec i s = .next (raiseIllegal (encode i) s)) ∧
    (¬ denied → csrImpl s.cfg a ≠ none → ∃ t, exec i s = .next t ∧
      RetiresWriting s s t (destReg i) (trunc s.cfg.xlen (csrRead s a)) ∧ t.minstret = countOne s)

/-- R85 (a), R43: in S-mode with TVM = 1 a CSR instruction naming satp raises IllegalInstruction if it writes, or if the
configuration traps reads too; in every other state an access from S-mode or M-mode to an implemented satp completes.
(That the gate stands where satp is not implemented is log 27.) -/
def Obligations.TvmTrapsSatpAccess : Prop :=
  ∀ (i : Instr) (s : State), csrNamed i = some 0x180#12 → s.priv ≠ .U →
    let trapped := s.priv = .S ∧ mstatusTVM s.mstatus = true ∧ (s.cfg.tvmTrapsReads = true ∨ csrWrites i = true)
    (trapped → exec i s = .next (raiseIllegal (encode i) s)) ∧
    (¬ trapped → csrImpl s.cfg 0x180#12 ≠ none → ∃ t, exec i s = .next t ∧ t.priv = s.priv ∧ t.pc = nextPc s)

/-! ### The six CSR instructions (40_csr_instructions.md R207 to R212) -/

/-- R207: CSRRW writes the CSR with x[rs1], and puts its old value in rd unless rd is x0; or it raises
IllegalInstruction. What follows of minstret from mcountinhibit as it was before the instruction is the model's
reading (DEDUCED, log 11), and a write of a writable misa is shut out here: it is refused (log 20,
MisaWriteRefusedOrIgnored). -/
def Obligations.CsrrwSwapsCsr : Prop :=
  ∀ (rd : Reg) (a : CsrAddr) (rs1 : Reg) (s : State),
    encode (.csrrw rd a rs1) &&& 0x0000707F#32 = 0x00001073#32 ∧
    (csrPermitted s a true = false →
      exec (.csrrw rd a rs1) s = .next (raiseIllegal (encode (.csrrw rd a rs1)) s)) ∧
    (csrPermitted s a true = true → misaWriteOpen s a true = false →
      ∃ t, exec (.csrrw rd a rs1) s = .next t ∧
        RetiresWriting s (csrWrite s a (readX s rs1)) t rd (trunc s.cfg.xlen (csrRead s a)) ∧
        t.minstret = if namesMinstret s a then (csrWrite s a (readX s rs1)).minstret else countOne s)

/-- R208: CSRRS sets the bits of x[rs1] in the CSR unless rs1 is x0, and puts its old value in rd; or it raises
IllegalInstruction. The value combined is the value read for every CSR but mip (R62). What follows of minstret from
mcountinhibit as it was before the instruction is the model's reading (DEDUCED, log 11), and a write of a writable
misa is shut out here: it is refused (log 20, MisaWriteRefusedOrIgnored). -/
def Obligations.CsrrsSetsBits : Prop :=
  ∀ (rd : Reg) (a : CsrAddr) (rs1 : Reg) (s : State),
    encode (.csrrs rd a rs1) &&& 0x0000707F#32 = 0x00002073#32 ∧
    (csrImpl s.cfg a ≠ some .mip → csrModifyBase s a = csrRead s a) ∧
    (csrPermitted s a (rs1 != 0#5) = false →
      exec (.csrrs rd a rs1) s = .next (raiseIllegal (encode (.csrrs rd a rs1)) s)) ∧
    (csrPermitted s a (rs1 != 0#5) = true → misaWriteOpen s a (rs1 != 0#5) = false →
      let u := if rs1 = 0#5 then s else csrWrite s a (csrModifyBase s a ||| readX s rs1)
      ∃ t, exec (.csrrs rd a rs1) s = .next t ∧
        RetiresWriting s u t rd (trunc s.cfg.xlen (csrRead s a)) ∧
        t.minstret = if rs1 ≠ 0#5 ∧ namesMinstret s a = true then u.minstret else countOne s)

/-- R209: CSRRC clears the bits of x[rs1] in the CSR unless rs1 is x0, and puts its old value in rd; or it raises
IllegalInstruction. The value combined is the value read for every CSR but mip (R62). What follows of minstret from
mcountinhibit as it was before the instruction is the model's reading (DEDUCED, log 11), and a write of a writable
misa is shut out here: it is refused (log 20, MisaWriteRefusedOrIgnored). -/
def Obligations.CsrrcClearsBits : Prop :=
  ∀ (rd : Reg) (a : CsrAddr) (rs1 : Reg) (s : State),
    encode (.csrrc rd a rs1) &&& 0x0000707F#32 = 0x00003073#32 ∧
    (csrImpl s.cfg a ≠ some .mip → csrModifyBase s a = csrRead s a) ∧
    (csrPermitted s a (rs1 != 0#5) = false →
      exec (.csrrc rd a rs1) s = .next (raiseIllegal (encode (.csrrc rd a rs1)) s)) ∧
    (csrPermitted s a (rs1 != 0#5) = true → misaWriteOpen s a (rs1 != 0#5) = false →
      let u := if rs1 = 0#5 then s else csrWrite s a (csrModifyBase s a &&& ~~~readX s rs1)
      ∃ t, exec (.csrrc rd a rs1) s = .next t ∧
        RetiresWriting s u t rd (trunc s.cfg.xlen (csrRead s a)) ∧
        t.minstret = if rs1 ≠ 0#5 ∧ namesMinstret s a = true then u.minstret else countOne s)

/-- R210: CSRRWI writes the CSR with the zero-extended 5-bit immediate, 0 included, and puts its old value in rd
unless rd is x0; or it raises IllegalInstruction. What follows of minstret from mcountinhibit as it was before the
instruction is the model's reading (DEDUCED, log 11), and a write of a writable misa is shut out here: it is refused
(log 20, MisaWriteRefusedOrIgnored). -/
def Obligations.CsrrwiWritesImmediate : Prop :=
  ∀ (rd : Reg) (a : CsrAddr) (uimm : BitVec 5) (s : State),
    encode (.csrrwi rd a uimm) &&& 0x0000707F#32 = 0x00005073#32 ∧
    (csrPermitted s a true = false →
      exec (.csrrwi rd a uimm) s = .next (raiseIllegal (encode (.csrrwi rd a uimm)) s)) ∧
    (csrPermitted s a true = true → misaWriteOpen s a true = false →
      let u := csrWrite s a (BitVec.ofNat 64 uimm.toNat)
      ∃ t, exec (.csrrwi rd a uimm) s = .next t ∧
        RetiresWriting s u t rd (trunc s.cfg.xlen (csrRead s a)) ∧
        t.minstret = if namesMinstret s a then u.minstret else countOne s)

/-- R211: CSRRSI sets the bits of the zero-extended immediate in the CSR unless it is 0, and puts the old value in rd;
or it raises IllegalInstruction. The value combined is the value read for every CSR but mip (R62). What follows of
minstret from mcountinhibit as it was before the instruction is the model's reading (DEDUCED, log 11), and a write of
a writable misa is shut out here: it is refused (log 20, MisaWriteRefusedOrIgnored). -/
def Obligations.CsrrsiSetsImmediateBits : Prop :=
  ∀ (rd : Reg) (a : CsrAddr) (uimm : BitVec 5) (s : State),
    encode (.csrrsi rd a uimm) &&& 0x0000707F#32 = 0x00006073#32 ∧
    (csrImpl s.cfg a ≠ some .mip → csrModifyBase s a = csrRead s a) ∧
    (csrPermitted s a (uimm != 0#5) = false →
      exec (.csrrsi rd a uimm) s = .next (raiseIllegal (encode (.csrrsi rd a uimm)) s)) ∧
    (csrPermitted s a (uimm != 0#5) = true → misaWriteOpen s a (uimm != 0#5) = false →
      let u := if uimm = 0#5 then s else csrWrite s a (csrModifyBase s a ||| BitVec.ofNat 64 uimm.toNat)
      ∃ t, exec (.csrrsi rd a uimm) s = .next t ∧
        RetiresWriting s u t rd (trunc s.cfg.xlen (csrRead s a)) ∧
        t.minstret = if uimm ≠ 0#5 ∧ namesMinstret s a = true then u.minstret else countOne s)

/-- R212: CSRRCI clears the bits of the zero-extended immediate in the CSR unless it is 0, and puts the old value in
rd; or it raises IllegalInstruction. The value combined is the value read for every CSR but mip (R62). What follows of
minstret from mcountinhibit as it was before the instruction is the model's reading (DEDUCED, log 11), and a write of
a writable misa is shut out here: it is refused (log 20, MisaWriteRefusedOrIgnored). -/
def Obligations.CsrrciClearsImmediateBits : Prop :=
  ∀ (rd : Reg) (a : CsrAddr) (uimm : BitVec 5) (s : State),
    encode (.csrrci rd a uimm) &&& 0x0000707F#32 = 0x00007073#32 ∧
    (csrImpl s.cfg a ≠ some .mip → csrModifyBase s a = csrRead s a) ∧
    (csrPermitted s a (uimm != 0#5) = false →
      exec (.csrrci rd a uimm) s = .next (raiseIllegal (encode (.csrrci rd a uimm)) s)) ∧
    (csrPermitted s a (uimm != 0#5) = true → misaWriteOpen s a (uimm != 0#5) = false →
      let u := if uimm = 0#5 then s else csrWrite s a (csrModifyBase s a &&& ~~~BitVec.ofNat 64 uimm.toNat)
      ∃ t, exec (.csrrci rd a uimm) s = .next t ∧
        RetiresWriting s u t rd (trunc s.cfg.xlen (csrRead s a)) ∧
        t.minstret = if uimm ≠ 0#5 ∧ namesMinstret s a = true then u.minstret else countOne s)

/-- 93_implementation_defined.md I8: a permitted CSR instruction that writes misa is refused when the configuration
makes misa writable, and when it does not the write is ignored. -/
def Obligations.MisaWriteRefusedOrIgnored : Prop :=
  ∀ (i : Instr) (s : State), csrNamed i = some 0x301#12 → csrWrites i = true → s.priv = .M →
    csrImpl s.cfg 0x301#12 ≠ none →
    (s.cfg.misaWritable = true → exec i s = .refused .misaWrite) ∧
    (s.cfg.misaWritable = false →
      ∃ t, exec i s = .next t ∧
        RetiresWriting s s t (destReg i) (trunc s.cfg.xlen (csrRead s 0x301#12)) ∧ t.minstret = countOne s)

/-! ### The CSRs (10_state.md) -/

/-- R49, R50: reading and writing mstatus with all three modes, floating point, and the spec's policy for illegal
values: with XLEN = 64 it shows SXL and UXL and has SD at bit 63, with XLEN = 32 it has neither and SD at bit 31. -/
def Obligations.MstatusReadAndWrite : Prop :=
  ∀ (s : State) (v : Word), s.cfg.modes = .msu → s.cfg.hasF = true → s.cfg.warl.mpp = .keepOld →
    s.mstatus &&& ~~~0x7E79AA#64 = 0#64 → csrImpl s.cfg 0x300#12 = some .mstatus →
    (s.cfg.xlen = .rv64 → csrRead s 0x300#12 =
      0x0000000A00000000#64 ||| s.mstatus |||
        (if s.mstatus.extractLsb' 13 2 = 3#2 then 0x8000000000000000#64 else 0#64)) ∧
    (s.cfg.xlen = .rv32 → csrRead s 0x300#12 =
      s.mstatus ||| (if s.mstatus.extractLsb' 13 2 = 3#2 then 0x80000000#64 else 0#64)) ∧
    (v.extractLsb' 11 2 ≠ 2#2 →
      csrWrite s 0x300#12 v = { s with mstatus := (s.mstatus &&& ~~~0x7E79AA#64) ||| (v &&& 0x7E79AA#64) }) ∧
    (v.extractLsb' 11 2 = 2#2 →
      csrWrite s 0x300#12 v =
        { s with mstatus := (s.mstatus &&& 0x1800#64) ||| (v &&& 0x7E61AA#64) })

/-- R74: sstatus is a view of mstatus: it reads mstatus through its mask, and a write changes MXR, SUM, FS, SPP, SPIE
and SIE and no other bit of mstatus. -/
def Obligations.SstatusIsViewOfMstatus : Prop :=
  ∀ (s : State) (v : Word), csrImpl s.cfg 0x100#12 = some .sstatus → csrImpl s.cfg 0x300#12 = some .mstatus →
    s.cfg.hasF = true → (mstatusMPP s.mstatus).toNat ∈ modeEncodings s.cfg →
    csrRead s 0x100#12 =
      csrRead s 0x300#12 &&& (if s.cfg.xlen = .rv64 then 0x80000003000DE122#64 else 0x800DE122#64) ∧
    csrWrite s 0x100#12 v = { s with mstatus := (s.mstatus &&& ~~~0xC6122#64) ||| (v &&& 0xC6122#64) }

/-- R75, R82: sie and sip show the delegated supervisor interrupts of mie and mip; a write of sie changes those bits of
mie, a write of sip changes SSIP, when it is delegated, and nothing else. -/
def Obligations.SieAndSipAreDelegatedViews : Prop :=
  ∀ (s : State) (v : Word), csrImpl s.cfg 0x104#12 = some .sie → csrImpl s.cfg 0x144#12 = some .sip →
    let m := s.mideleg &&& 0x222#64
    csrRead s 0x104#12 = s.mie &&& m ∧
    csrWrite s 0x104#12 v = { s with mie := (s.mie &&& ~~~m) ||| (v &&& m) } ∧
    csrRead s 0x144#12 = mipRead s &&& m ∧
    (s.mideleg.getLsbD 1 = false → csrWrite s 0x144#12 v = s) ∧
    (s.mideleg.getLsbD 1 = true →
      csrWrite s 0x144#12 v = { s with mipSw := (s.mipSw &&& ~~~0x2#64) ||| (v &&& 0x2#64) })

/-- R62: mip reads the software bits and the wires, bit 9 the OR of both parts; a write changes the software bits 9,
5, 1 and nothing else; and CSRRS, CSRRC, CSRRSI and CSRRCI combine their operand with the software-written part of bit
9 alone, while rd takes the value read. -/
def Obligations.MipWritesSoftwareBitsOnly : Prop :=
  ∀ (s : State) (v : Word) (rd rs1 : Reg) (uimm : BitVec 5), csrImpl s.cfg 0x344#12 = some .mip →
    s.mipSw &&& ~~~0x222#64 = 0#64 →
    ((csrRead s 0x344#12).getLsbD 9 = (s.mipSw.getLsbD 9 || s.seipExt) ∧
      (csrRead s 0x344#12).getLsbD 11 = s.meip ∧ (csrRead s 0x344#12).getLsbD 7 = s.mtip ∧
      (csrRead s 0x344#12).getLsbD 3 = s.msip ∧ (csrRead s 0x344#12).getLsbD 5 = s.mipSw.getLsbD 5 ∧
      (csrRead s 0x344#12).getLsbD 1 = s.mipSw.getLsbD 1 ∧ csrRead s 0x344#12 &&& ~~~0xAAA#64 = 0#64) ∧
    csrWrite s 0x344#12 v = { s with mipSw := v &&& 0x222#64 } ∧
    (s.priv = .M → rs1 ≠ 0#5 →
      (∃ t, exec (.csrrs rd 0x344#12 rs1) s = .next t ∧
        t.mipSw = s.mipSw ||| (readX s rs1 &&& 0x222#64) ∧ t.seipExt = s.seipExt ∧
        (rd ≠ 0#5 → readX t rd = csrRead s 0x344#12)) ∧
      (∃ t, exec (.csrrc rd 0x344#12 rs1) s = .next t ∧
        t.mipSw = s.mipSw &&& ~~~readX s rs1 ∧ t.seipExt = s.seipExt ∧
        (rd ≠ 0#5 → readX t rd = csrRead s 0x344#12))) ∧
    (s.priv = .M → uimm ≠ 0#5 →
      (∃ t, exec (.csrrsi rd 0x344#12 uimm) s = .next t ∧
        t.mipSw = s.mipSw ||| (BitVec.ofNat 64 uimm.toNat &&& 0x222#64) ∧ t.seipExt = s.seipExt ∧
        (rd ≠ 0#5 → readX t rd = csrRead s 0x344#12)) ∧
      (∃ t, exec (.csrrci rd 0x344#12 uimm) s = .next t ∧
        t.mipSw = s.mipSw &&& ~~~BitVec.ofNat 64 uimm.toNat ∧ t.seipExt = s.seipExt ∧
        (rd ≠ 0#5 → readX t rd = csrRead s 0x344#12)))

/-- R56, R76: a write of mtvec or stvec writes BASE, and MODE when it is a mode the configuration accepts; an illegal
MODE leaves MODE unchanged under the spec's policy (D5, D32). -/
def Obligations.TvecWriteKeepsLegalMode : Prop :=
  ∀ (s : State) (v : Word), s.cfg.warl.mtvecMode = .keepOld → s.cfg.warl.stvecMode = .keepOld →
    s.cfg.mtvecModes = [0, 1] →
    let new (old : Word) :=
      if v.extractLsb' 0 2 = 0#2 ∨ v.extractLsb' 0 2 = 1#2 then trunc s.cfg.xlen v
      else (trunc s.cfg.xlen v &&& ~~~3#64) ||| (old &&& 3#64)
    (csrImpl s.cfg 0x305#12 = some .mtvec →
      csrRead s 0x305#12 = s.mtvec ∧ csrWrite s 0x305#12 v = { s with mtvec := new s.mtvec }) ∧
    (csrImpl s.cfg 0x105#12 = some .stvec →
      csrRead s 0x105#12 = s.stvec ∧ csrWrite s 0x105#12 v = { s with stvec := new s.stvec })

/-- R85 (b), R83, R84: a write of satp whose MODE is not accepted changes nothing; otherwise MODE, the low ASIDLEN
bits of ASID and the low PPNLEN bits of PPN are written, and every other bit of the register becomes 0. -/
def Obligations.SatpWriteLegalises : Prop :=
  ∀ (s : State) (v : Word), csrImpl s.cfg 0x180#12 = some .satp →
    (s.cfg.xlen = .rv64 →
      ((v.extractLsb' 60 4).toNat ∉ s.cfg.satpModes → csrWrite s 0x180#12 v = s) ∧
      ((v.extractLsb' 60 4).toNat ∈ s.cfg.satpModes →
        ∃ w : Word, csrWrite s 0x180#12 v = { s with satp := w } ∧
          ∀ k < 64, w.getLsbD k = true ↔ v.getLsbD k = true ∧
            (60 ≤ k ∨ (44 ≤ k ∧ k < 60 ∧ k < 44 + s.cfg.asidLen) ∨ (k < 44 ∧ k < s.cfg.ppnLen)))) ∧
    (s.cfg.xlen = .rv32 →
      ((v.extractLsb' 31 1).toNat ∉ s.cfg.satpModes → csrWrite s 0x180#12 v = s) ∧
      ((v.extractLsb' 31 1).toNat ∈ s.cfg.satpModes →
        ∃ w : Word, csrWrite s 0x180#12 v = { s with satp := w } ∧
          ∀ k < 64, w.getLsbD k = true ↔ v.getLsbD k = true ∧
            (k = 31 ∨ (22 ≤ k ∧ k < 31 ∧ k < 22 + s.cfg.asidLen) ∨ (k < 22 ∧ k < s.cfg.ppnLen))))

/-- R86, R87, R88: fflags and frm are views of fcsr[4:0] and fcsr[7:5]; frm stores all eight values. -/
def Obligations.FcsrViews : Prop :=
  ∀ (s : State) (v : Word), csrImpl s.cfg 0x001#12 = some .fflags → csrImpl s.cfg 0x002#12 = some .frm →
    csrImpl s.cfg 0x003#12 = some .fcsr →
    (csrRead s 0x003#12 = s.fcsr.setWidth 64 ∧ csrRead s 0x001#12 = csrRead s 0x003#12 &&& 0x1F#64 ∧
      csrRead s 0x002#12 = csrRead s 0x003#12 >>> 5) ∧
    csrRead (csrWrite s 0x003#12 v) 0x003#12 = v &&& 0xFF#64 ∧
    (csrRead (csrWrite s 0x001#12 v) 0x001#12 = v &&& 0x1F#64 ∧
      csrRead (csrWrite s 0x001#12 v) 0x002#12 = csrRead s 0x002#12) ∧
    (csrRead (csrWrite s 0x002#12 v) 0x002#12 = v &&& 0x7#64 ∧
      csrRead (csrWrite s 0x002#12 v) 0x001#12 = csrRead s 0x001#12)

/-- R53 to R55, R57 to R61, R63, R64, R71, R77 to R81, with the spec's decisions D6, D9, D16, D30 and D43: what the
plain registers hold after a CSR write, with every set of modes: the writable masks of medeleg and mideleg, that of
mie, whose supervisor bits are writable only with S-mode, the 32 bits of mcounteren and scounteren, mcountinhibit
where no performance counter counts, mepc and sepc with their low bits zero, and every XLEN-bit value in the scratch,
cause and trap-value registers. -/
def Obligations.MaskedCsrWrites : Prop :=
  ∀ (s : State) (v : Word),
    let after (a : CsrAddr) := csrRead (csrWrite s a v) a
    let v' := trunc s.cfg.xlen v
    (csrImpl s.cfg 0x302#12 = some .medeleg → after 0x302#12 = v &&& 0xB3FF#64) ∧
    (csrImpl s.cfg 0x303#12 = some .mideleg → after 0x303#12 = v &&& 0x222#64) ∧
    (csrImpl s.cfg 0x304#12 = some .mie →
      after 0x304#12 = v &&& (if s.cfg.modes = .msu then 0xAAA#64 else 0x888#64)) ∧
    (csrImpl s.cfg 0x306#12 = some .mcounteren → after 0x306#12 = v &&& 0xFFFFFFFF#64) ∧
    (csrImpl s.cfg 0x106#12 = some .scounteren → after 0x106#12 = v &&& 0xFFFFFFFF#64) ∧
    (csrImpl s.cfg 0x320#12 = some .mcountinhibit → s.cfg.numHpm = 0 → after 0x320#12 = v &&& 0x5#64) ∧
    (csrImpl s.cfg 0x341#12 = some .mepc → after 0x341#12 = v' &&& ~~~3#64) ∧
    (csrImpl s.cfg 0x141#12 = some .sepc → after 0x141#12 = v' &&& ~~~3#64) ∧
    ∀ r : Csr, r ∈ [.mscratch, .sscratch, .mcause, .scause, .mtval, .stval, .mtinst, .mtval2] →
      csrImpl s.cfg (csrAddr r) = some r → after (csrAddr r) = v'

/-- R100, R101 to R104: with triggers, tselect takes an index below their number and keeps its value at another (the
spec's policy, D5), tinfo ignores writes, and a write of a data register changes no trigger but the selected one (what
value the register takes is free, log 17). -/
def Obligations.TriggerSelection : Prop :=
  ∀ (s : State) (v : Word), s.cfg.warl.tselect = .keepOld → s.cfg.numTriggers ≤ 2 ^ 32 →
    writeCsr s .tselect v = (if v.toNat < s.cfg.numTriggers then { s with tselect := v } else s) ∧
    readCsr s .tselect = s.tselect ∧ writeCsr s .tinfo v = s ∧
    ∀ r : Csr, r ∈ [.tdata1, .tdata2, .tdata3] →
      { s with triggers := (writeCsr s r v).triggers } = writeCsr s r v ∧
      (writeCsr s r v).triggers.length = s.triggers.length ∧
      ∀ k, k ≠ s.tselect.toNat → (writeCsr s r v).triggers[k]? = s.triggers[k]?

/-- R67 to R70, R72, R90 to R94: the 64-bit counters mcycle and minstret and the performance counters that count
(those below NUM_HPM, log 18), with their event selectors, which hold what is written (DEDUCED, log 18), and the user
counters, which read the machine counters of the same number, and the platform's timer. On RV64 a CSR write replaces
all 64 bits; on RV32 every counter is two registers, each write replaces one half, and the other half does not change. -/
def Obligations.CountersAndShadows : Prop :=
  ∀ (s : State) (v : Word),
    let halves (lo hi : Csr) (counter : BitVec 64) :=
      csrImpl s.cfg (csrAddr lo) = some lo → csrImpl s.cfg (csrAddr hi) = some hi →
      (csrRead s (csrAddr lo)).toNat = counter.toNat % 2 ^ 32 ∧
      (csrRead s (csrAddr hi)).toNat = counter.toNat / 2 ^ 32 ∧
      csrRead (csrWrite s (csrAddr lo) v) (csrAddr hi) = csrRead s (csrAddr hi) ∧
      (csrRead (csrWrite s (csrAddr lo) v) (csrAddr lo)).toNat = v.toNat % 2 ^ 32 ∧
      csrRead (csrWrite s (csrAddr hi) v) (csrAddr lo) = csrRead s (csrAddr lo) ∧
      (csrRead (csrWrite s (csrAddr hi) v) (csrAddr hi)).toNat = v.toNat % 2 ^ 32
    (s.cfg.xlen = .rv64 → csrImpl s.cfg 0xB00#12 = some .mcycle → csrImpl s.cfg 0xB02#12 = some .minstret →
      csrRead s 0xB00#12 = s.mcycle ∧ csrWrite s 0xB00#12 v = { s with mcycle := v } ∧
      csrRead s 0xB02#12 = s.minstret ∧ csrWrite s 0xB02#12 v = { s with minstret := v }) ∧
    (s.cfg.xlen = .rv64 → ∀ n : Fin 29, n.val < s.cfg.numHpm →
      readCsr s (.mhpmcounter n) = s.mhpmcounter[n] ∧
      writeCsr s (.mhpmcounter n) v = { s with mhpmcounter := s.mhpmcounter.set n.val v }) ∧
    (∀ n : Fin 29, n.val < s.cfg.numHpm →
      let a := csrAddr (.mhpmevent n)
      a.toNat = 0x323 + n.val ∧
      (csrImpl s.cfg a = some (.mhpmevent n) →
        csrRead s a = s.mhpmevent[n] ∧
        csrWrite s a v = { s with mhpmevent := s.mhpmevent.set n.val (trunc s.cfg.xlen v) } ∧
        csrRead (csrWrite s a v) a = trunc s.cfg.xlen v)) ∧
    (s.cfg.xlen = .rv32 →
      halves .mcycle .mcycleh s.mcycle ∧ halves .minstret .minstreth s.minstret ∧
      (∀ n : Fin 29, n.val < s.cfg.numHpm → halves (.mhpmcounter n) (.mhpmcounterh n) s.mhpmcounter[n]) ∧
      (csrImpl s.cfg 0xC80#12 = some .cycleh → (csrRead s 0xC80#12).toNat = s.mcycle.toNat / 2 ^ 32) ∧
      (csrImpl s.cfg 0xC81#12 = some .timeh → (csrRead s 0xC81#12).toNat = s.time.toNat / 2 ^ 32) ∧
      (csrImpl s.cfg 0xC82#12 = some .instreth → (csrRead s 0xC82#12).toNat = s.minstret.toNat / 2 ^ 32)) ∧
    (csrImpl s.cfg 0xC00#12 = some .cycle → csrImpl s.cfg 0xB00#12 = some .mcycle →
      csrRead s 0xC00#12 = csrRead s 0xB00#12) ∧
    (csrImpl s.cfg 0xC01#12 = some .time → csrRead s 0xC01#12 = trunc s.cfg.xlen s.time) ∧
    (csrImpl s.cfg 0xC02#12 = some .instret → csrImpl s.cfg 0xB02#12 = some .minstret →
      csrRead s 0xC02#12 = csrRead s 0xB02#12) ∧
    (∀ n : Fin 29, readCsr s (.hpmcounter n) = readCsr s (.mhpmcounter n) ∧
      readCsr s (.hpmcounterh n) = readCsr s (.mhpmcounterh n) ∧
      (csrAddr (.mhpmcounter n)).toNat = 0xB03 + n.val ∧ (csrAddr (.mhpmcounterh n)).toNat = 0xB83 + n.val ∧
      (csrAddr (.hpmcounter n)).toNat = 0xC03 + n.val ∧ (csrAddr (.hpmcounterh n)).toNat = 0xC83 + n.val) ∧
    [Csr.mcycle, .mcycleh, .minstret, .minstreth].map csrAddr = [0xB00#12, 0xB80#12, 0xB02#12, 0xB82#12]

/-- R32 to R36, R51, R52, R104 and, where fewer are implemented than listed, R65, R66, R69, R72: registers, and
configuration bytes of PMP entries, that no CSR write changes, and the constants they read. That the counters and
selectors which do not count are those at or above NUM_HPM is the model's choice (DEDUCED, log 18). -/
def Obligations.ReadOnlyRegistersIgnoreWrites : Prop :=
  ∀ (s : State) (v : Word),
    (readCsr s .mvendorid = s.cfg.mvendorid.setWidth 64 ∧ readCsr s .marchid = s.cfg.marchid ∧
      readCsr s .mimpid = s.cfg.mimpid ∧ readCsr s .mhartid = s.cfg.mhartid ∧
      readCsr s .mconfigptr = s.cfg.mconfigptr ∧ readCsr s .misa = s.cfg.misa ∧ readCsr s .mstatush = 0#64) ∧
    (∀ r : Csr, r ∈ [.misa, .mstatush, .tinfo] → writeCsr s r v = s) ∧
    (∀ n : Fin 29, s.cfg.numHpm ≤ n.val →
      (readCsr s (.mhpmcounter n) = 0#64 ∧ writeCsr s (.mhpmcounter n) v = s) ∧
      (readCsr s (.mhpmevent n) = 0#64 ∧ writeCsr s (.mhpmevent n) v = s)) ∧
    (∀ i : Fin 64, s.cfg.pmpEntries ≤ i.val →
      readCsr s (.pmpaddr i) = 0#64 ∧ writeCsr s (.pmpaddr i) v = s ∧ pmpByte s i.val = 0#8 ∧
      (∀ k : Fin 16, (writeCsr s (.pmpcfg k) v).pmpcfg[i] = s.pmpcfg[i]) ∧
      (s.cfg.xlen = .rv64 → ∀ k : Fin 16, k.val = 2 * (i.val / 8) →
        (readCsr s (.pmpcfg k)).extractLsb' (8 * (i.val % 8)) 8 = 0#8) ∧
      (s.cfg.xlen = .rv32 → ∀ k : Fin 16, k.val = i.val / 4 →
        (readCsr s (.pmpcfg k)).extractLsb' (8 * (i.val % 4)) 8 = 0#8))

/-- R65, R66: with XLEN = 64 PMP entry i is byte i mod 8 of pmpcfg(2 * (i div 8)), with XLEN = 32 byte i mod 4 of
pmpcfg(i div 4); a write of that register sets the entry and no entry of another register, and pmpaddr(i)
holds what is written, when the entry is implemented (that any byte is legal is the model's choice, log 16). -/
def Obligations.PmpEntryByteLayout : Prop :=
  ∀ (s : State) (i : Fin 64) (v : Word), i.val < s.cfg.pmpEntries →
    (s.cfg.xlen = .rv64 → ∀ k : Fin 16, k.val = 2 * (i.val / 8) →
      (readCsr s (.pmpcfg k)).extractLsb' (8 * (i.val % 8)) 8 = s.pmpcfg[i] ∧
      (writeCsr s (.pmpcfg k) v).pmpcfg[i] = v.extractLsb' (8 * (i.val % 8)) 8 ∧
      ∀ j : Fin 64, j.val / 8 ≠ i.val / 8 → (writeCsr s (.pmpcfg k) v).pmpcfg[j] = s.pmpcfg[j]) ∧
    (s.cfg.xlen = .rv32 → ∀ k : Fin 16, k.val = i.val / 4 →
      (readCsr s (.pmpcfg k)).extractLsb' (8 * (i.val % 4)) 8 = s.pmpcfg[i] ∧
      (writeCsr s (.pmpcfg k) v).pmpcfg[i] = v.extractLsb' (8 * (i.val % 4)) 8 ∧
      ∀ j : Fin 64, j.val / 4 ≠ i.val / 4 → (writeCsr s (.pmpcfg k) v).pmpcfg[j] = s.pmpcfg[j]) ∧
    readCsr (writeCsr s (.pmpaddr i) v) (.pmpaddr i) = v

/-- R30, R31, R74 to R94, R140 (a), R296: a write of one CSR changes no other CSR's value but those that are views of
the same storage, and no general register, pc, mode, byte of memory, wire or configuration. -/
def Obligations.CsrWriteFrame : Prop :=
  ∀ (s : State) (r : Csr) (v : Word),
    let t := writeCsr s r v
    (∀ q : Csr, mayAffect r q = false → readCsr t q = readCsr s q) ∧
    t.x = s.x ∧ t.pc = s.pc ∧ t.priv = s.priv ∧ t.debugMode = s.debugMode ∧ t.waiting = s.waiting ∧
    t.tlb = s.tlb ∧ t.meip = s.meip ∧ t.mtip = s.mtip ∧ t.msip = s.msip ∧ t.seipExt = s.seipExt ∧
    t.mem = s.mem ∧ t.stored = s.stored ∧ t.time = s.time ∧ t.cfg = s.cfg ∧ t.inputs = s.inputs ∧
    t.draws = s.draws ∧ t.stallDraw = s.stallDraw

/-! ### System instructions (41_system_instructions.md) -/

/-- R230: MRET below M-mode raises IllegalInstruction; in M-mode it goes to the mode MPP names at mepc, with MIE from
MPIE, MPIE 1, MPP the least privileged mode, MPRV cleared unless that mode is M, every other bit of mstatus and every
other register kept, and retires. With MPP = 2, which no state of a run holds, it faults (log 22). -/
def Obligations.MretReturns : Prop :=
  ∀ s : State,
    (s.priv ≠ .M → exec .mret s = .next (raiseIllegal (encode .mret) s)) ∧
    (∀ new : Priv, s.priv = .M → mstatusMPP s.mstatus = privBits new →
      ∃ m : Word,
        exec .mret s = .next { s with mstatus := m, priv := new, pc := s.mepc, minstret := countOne s } ∧
        mstatusMIE m = mstatusMPIE s.mstatus ∧ mstatusMPIE m = true ∧
        mstatusMPP m = privBits (leastMode s.cfg) ∧
        mstatusMPRV m = (if new = .M then mstatusMPRV s.mstatus else false) ∧
        ∀ i, i ∉ [3, 7, 11, 12, 17] → m.getLsbD i = s.mstatus.getLsbD i) ∧
    (s.priv = .M → mstatusMPP s.mstatus = 2#2 → exec .mret s = .fault .reservedMpp)

/-- R231: SRET, the word 0x10200073, raises IllegalInstruction without S-mode, in U-mode, and in S-mode with TSR = 1;
else it goes to the mode SPP names at sepc, with SIE from SPIE, SPIE 1, SPP and MPRV 0, the rest kept, and retires. -/
def Obligations.SretReturns : Prop :=
  ∀ s : State,
    let illegal := hasS s.cfg = false ∨ s.priv = .U ∨ (s.priv = .S ∧ mstatusTSR s.mstatus = true)
    encode .sret = 0x10200073#32 ∧
    (illegal → exec .sret s = .next (raiseIllegal 0x10200073#32 s)) ∧
    (¬ illegal →
      ∃ m : Word,
        exec .sret s = .next { s with
          mstatus := m, priv := if mstatusSPP s.mstatus = true then .S else .U, pc := s.sepc,
          minstret := countOne s } ∧
        mstatusSIE m = mstatusSPIE s.mstatus ∧ mstatusSPIE m = true ∧ mstatusSPP m = false ∧ mstatusMPRV m = false ∧
        ∀ i, i ∉ [1, 5, 8, 17] → m.getLsbD i = s.mstatus.getLsbD i)

/-- R232: WFI raises IllegalInstruction in U-mode when S-mode exists and below M-mode with TW = 1; else it retires at
the next pc, and the hart waits, or not, as the configuration and the draw of the step say. -/
def Obligations.WfiRetiresAndMayStall : Prop :=
  ∀ s : State,
    let illegal := (s.priv = .U ∧ hasS s.cfg = true) ∨ (s.priv ≠ .M ∧ mstatusTW s.mstatus = true)
    (illegal → exec .wfi s = .next (raiseIllegal (encode .wfi) s)) ∧
    (¬ illegal →
      exec .wfi s = .next { s with
        pc := nextPc s, minstret := countOne s,
        waiting := match s.cfg.wfiMode with
          | .nop => s.waiting
          | .wait => true
          | .either => s.stallDraw })

/-- R232: while a hart waits, a step in which no pending interrupt is individually enabled executes no instruction and
takes no trap: it leaves what the agents' move leaves; with one pending and enabled the hart goes on as if it had not
waited, whether or not interrupts are globally enabled. -/
def Obligations.WaitingHartWakesOnPendingInterrupt : Prop :=
  ∀ s : State, s.waiting = true →
    let s' := moveAgents s
    (mipRead s' &&& s'.mie = 0#64 → step s = .next s') ∧
    (mipRead s' &&& s'.mie ≠ 0#64 → step s = hartAct { s' with waiting := false })

/-- R233, R234: ECALL, the word 0x00000073, raises the environment call of its mode, with trap value 0, and EBREAK,
the word 0x00100073, raises Breakpoint, code 3, with pc or 0 as trap value by the configuration (the spec's decisions
D21 and D26); both at their own pc, and neither retires. -/
def Obligations.EcallAndEbreakRaise : Prop :=
  encode .ecall = 0x00000073#32 ∧ encode .ebreak = 0x00100073#32 ∧
  ∀ s : State,
    (s.priv = .U → exec .ecall s = .next (takeTrap false 8 0#64 s.pc (trapTarget s false 8) s)) ∧
    (s.priv = .S → exec .ecall s = .next (takeTrap false 9 0#64 s.pc (trapTarget s false 9) s)) ∧
    (s.priv = .M → exec .ecall s = .next (takeTrap false 11 0#64 s.pc .M s)) ∧
    (s.cfg.mtvalEbreak = .pc →
      exec .ebreak s = .next (takeTrap false 3 s.pc s.pc (trapTarget s false 3) s)) ∧
    (s.cfg.mtvalEbreak = .zero →
      exec .ebreak s = .next (takeTrap false 3 0#64 s.pc (trapTarget s false 3) s)) ∧
    (∀ t, (exec .ecall s = .next t ∨ exec .ebreak s = .next t) →
      t.minstret = s.minstret ∧ t.x = s.x ∧ t.mem = s.mem)

/-- R235: SFENCE.VMA raises IllegalInstruction without S-mode, in U-mode, and in S-mode with TVM = 1; else it retires,
and changes nothing but the translation buffer, which keeps no entry of the address and the address space named, x0
naming all of them (the page size is log 13). -/
def Obligations.SfenceVmaFlushes : Prop :=
  ∀ (rs1 rs2 : Reg) (s : State),
    let illegal := hasS s.cfg = false ∨ s.priv = .U ∨ (s.priv = .S ∧ mstatusTVM s.mstatus = true)
    (illegal → exec (.sfenceVma rs1 rs2) s = .next (raiseIllegal (encode (.sfenceVma rs1 rs2)) s)) ∧
    (¬ illegal →
      ∃ buffer : List TlbEntry,
        exec (.sfenceVma rs1 rs2) s =
          .next { s with tlb := buffer, pc := nextPc s, minstret := countOne s } ∧
        ∀ e, e ∈ buffer ↔ e ∈ s.tlb ∧
          ¬ ((rs1 = 0#5 ∨ e.vaddr.toNat / 4096 = (readX s rs1).toNat / 4096) ∧
             (rs2 = 0#5 ∨ e.asid = readX s rs2)))

/-! ### Base instructions (42_support_instructions.md) -/

/-- R250: ADDI adds the sign-extended immediate modulo 2^XLEN, changes no other register, and retires. -/
def Obligations.AddiAddsModuloXlen : Prop :=
  ∀ (rd rs1 : Reg) (imm : BitVec 12) (s : State), (readX s rs1).toNat < 2 ^ xlenBits s.cfg.xlen →
    encode (.addi rd rs1 imm) &&& 0x0000707F#32 = 0x00000013#32 ∧
    ∃ t v, exec (.addi rd rs1 imm) s = .next t ∧ RetiresWriting s s t rd v ∧ t.minstret = countOne s ∧
      (v.toNat : Int) = ((readX s rs1).toNat + imm.toInt) % 2 ^ xlenBits s.cfg.xlen

/-- R251, R252: ANDI and ORI combine x[rs1] bit by bit with the immediate, whose bit 11 fills every higher bit up to
XLEN, change no other register, and retire. -/
def Obligations.AndiOriCombineBits : Prop :=
  ∀ (rd rs1 : Reg) (imm : BitVec 12) (s : State),
    let immBit (k : Nat) := k < xlenBits s.cfg.xlen ∧ imm.getLsbD (min k 11) = true
    encode (.andi rd rs1 imm) &&& 0x0000707F#32 = 0x00007013#32 ∧
    encode (.ori rd rs1 imm) &&& 0x0000707F#32 = 0x00006013#32 ∧
    (∃ t v, exec (.andi rd rs1 imm) s = .next t ∧ RetiresWriting s s t rd v ∧ t.minstret = countOne s ∧
      ∀ k, v.getLsbD k = true ↔ (readX s rs1).getLsbD k = true ∧ immBit k) ∧
    (∃ t v, exec (.ori rd rs1 imm) s = .next t ∧ RetiresWriting s s t rd v ∧ t.minstret = countOne s ∧
      ∀ k, v.getLsbD k = true ↔
        k < xlenBits s.cfg.xlen ∧ ((readX s rs1).getLsbD k = true ∨ immBit k))

/-- R253: SRLI divides the unsigned x[rs1] by 2^shamt, changes no other register, and retires. -/
def Obligations.SrliShiftsRight : Prop :=
  ∀ (rd rs1 : Reg) (shamt : BitVec 6) (s : State), shamt.toNat < xlenBits s.cfg.xlen →
    (readX s rs1).toNat < 2 ^ xlenBits s.cfg.xlen →
    ∃ t v, exec (.srli rd rs1 shamt) s = .next t ∧ RetiresWriting s s t rd v ∧ t.minstret = countOne s ∧
      v.toNat = (readX s rs1).toNat / 2 ^ shamt.toNat

/-- R254: an SD that is aligned (or emulated), not translated, and allowed by PMP and the memory map, stores the eight
bytes of x[rs2] little-endian at x[rs1] + imm, changes no other byte and no other state, and retires. -/
def Obligations.SdStoresEightBytes : Prop :=
  ∀ (rs2 rs1 : Reg) (imm : BitVec 12) (s : State) (p : Priv), s.cfg.xlen = .rv64 →
    let addr := storeAddress s rs1 imm
    (addr.toNat % 8 = 0 ∨ s.cfg.misaligned = .emulate) →
    dataPriv s = some p → translationActive s p = false →
    pmpAllows s addr 8 .store p = true → memoryAnswers s.cfg addr 8 = true →
    ∃ t, exec (.sd rs2 rs1 imm) s = .next t ∧
      { s with mem := t.mem, stored := t.stored, pc := nextPc s, minstret := countOne s } = t ∧
      (addr.toNat : Int) = ((readX s rs1).toNat + imm.toInt) % 2 ^ 64 ∧
      (∀ k < 8, memRead t.mem ((addr.toNat + k) % 2 ^ 64) = some ((readX s rs2).extractLsb' (8 * k) 8)) ∧
      (∀ a, (∀ k < 8, a ≠ (addr.toNat + k) % 2 ^ 64) → memRead t.mem a = memRead s.mem a) ∧
      (∀ a, a ∈ t.stored ↔ a ∈ s.stored ∨ ∃ k < 8, a = (addr.toNat + k) % 2 ^ 64)

/-- R254, R148, R152, R154: in this order, a misaligned SD traps (code 6) where the configuration traps, a translated
one is refused, and one that PMP or the memory map denies traps (code 7); each trap value is the address, and no byte
is written. With MPRV = 1 and MPP = 2, which no state of a run holds, an SD that is not misaligned faults (log 22). -/
def Obligations.SdTrapsAndRefusals : Prop :=
  ∀ (rs2 rs1 : Reg) (imm : BitVec 12) (s : State), s.cfg.xlen = .rv64 →
    let addr := storeAddress s rs1 imm
    let misaligned := s.cfg.misaligned = .trap ∧ addr.toNat % 8 ≠ 0
    (misaligned →
      exec (.sd rs2 rs1 imm) s = .next (takeTrap false 6 addr s.pc (trapTarget s false 6) s)) ∧
    (∀ p, ¬ misaligned → dataPriv s = some p → translationActive s p = true →
      exec (.sd rs2 rs1 imm) s = .refused .translatedAccess) ∧
    (∀ p, ¬ misaligned → dataPriv s = some p → translationActive s p = false →
      (pmpAllows s addr 8 .store p = false ∨ memoryAnswers s.cfg addr 8 = false) →
      exec (.sd rs2 rs1 imm) s = .next (takeTrap false 7 addr s.pc (trapTarget s false 7) s)) ∧
    (¬ misaligned → dataPriv s = none → exec (.sd rs2 rs1 imm) s = .fault .reservedMpp) ∧
    (∀ interrupt code tval epc target,
      (takeTrap interrupt code tval epc target s).mem = s.mem)

/-- R145, R146, R147: after `MemWrite(a, n, v)` the byte at a + k (modulo 2^XLEN) is v[8k+7:8k], for each of the n
bytes, every other address reads as before, and the canonical form of memory is kept. -/
def Obligations.MemWriteIsLittleEndian : Prop :=
  ∀ (x : Xlen) (m : Memory) (addr v : Word) (n : Nat), n ≤ 8 → addr.toNat < 2 ^ xlenBits x →
    (∀ k < n, memRead (writeBytes x m addr n v) ((addr.toNat + k) % 2 ^ xlenBits x) =
      some (v.extractLsb' (8 * k) 8)) ∧
    (∀ a, (∀ k < n, a ≠ (addr.toNat + k) % 2 ^ xlenBits x) →
      memRead (writeBytes x m addr n v) a = memRead m a) ∧
    (Memory.wf m → Memory.wf (writeBytes x m addr n v))

/-! ### Traps (60_exceptions.md) -/

/-- R290: trap entry into M-mode and into S-mode: which registers take the pc, the cause and the trap value, which
fields of mstatus move, the new mode and pc; every other bit of mstatus and every other field of the state is kept. An
exception enters with the code of R270, the pc of the raising instruction, and the target of R289; IllegalInstruction
is code 2, and its trap value is the instruction word, zero-extended, or 0, by the configuration (R202, R272). -/
def Obligations.TrapEntry : Prop :=
  ∀ (interrupt : Bool) (code : Nat) (tval epc : Word) (s : State), code < 16 →
    (∃ t, takeTrap interrupt code tval epc .M s = t ∧
      { s with
        mepc := epc &&& ~~~3#64, mcause := t.mcause, mtval := tval, mstatus := t.mstatus, priv := .M,
        pc := trapVector s.cfg.xlen s.mtvec interrupt code,
        mtinst := if s.cfg.hasHtrap = true then 0#64 else s.mtinst,
        mtval2 := if s.cfg.hasHtrap = true then 0#64 else s.mtval2 } = t ∧
      t.mcause.toNat = (if interrupt then 2 ^ (xlenBits s.cfg.xlen - 1) else 0) + code ∧
      mstatusMPIE t.mstatus = mstatusMIE s.mstatus ∧ mstatusMIE t.mstatus = false ∧
      mstatusMPP t.mstatus = privBits s.priv ∧
      (∀ i, i ∉ [3, 7, 11, 12] → t.mstatus.getLsbD i = s.mstatus.getLsbD i)) ∧
    (∃ t, takeTrap interrupt code tval epc .S s = t ∧
      { s with
        sepc := epc &&& ~~~3#64, scause := t.scause, stval := tval, mstatus := t.mstatus, priv := .S,
        pc := trapVector s.cfg.xlen s.stvec interrupt code } = t ∧
      t.scause.toNat = (if interrupt then 2 ^ (xlenBits s.cfg.xlen - 1) else 0) + code ∧
      mstatusSPIE t.mstatus = mstatusSIE s.mstatus ∧ mstatusSIE t.mstatus = false ∧
      mstatusSPP t.mstatus = (s.priv == .S) ∧
      (∀ i, i ∉ [1, 5, 8] → t.mstatus.getLsbD i = s.mstatus.getLsbD i)) ∧
    (∀ e : Exc, raiseExc e tval s =
      takeTrap false (excCode e) tval s.pc (trapTarget s false (excCode e)) s) ∧
    (∀ w : InstrWord, raiseIllegal w s =
      takeTrap false 2 (if s.cfg.mtvalIllegal = .bits then w.setWidth 64 else 0#64) s.pc (trapTarget s false 2) s)

/-- R289: a trap is handled in S-mode exactly when S exists, the hart is not in M-mode, and the delegation bit of its
code is 1, and in M-mode otherwise; so a trap never lowers the privilege. -/
def Obligations.TrapTargetByDelegation : Prop :=
  ∀ (s : State) (interrupt : Bool) (code : Nat),
    (trapTarget s interrupt code = .S ↔ hasS s.cfg = true ∧ s.priv ≠ .M ∧
      (if interrupt = true then s.mideleg else s.medeleg).getLsbD code = true) ∧
    (trapTarget s interrupt code = .M ∨ trapTarget s interrupt code = .S) ∧
    privBits s.priv ≤ privBits (trapTarget s interrupt code)

/-- R291: exceptions, and every trap when MODE is not 1, go to BASE; an interrupt under MODE 1 goes to BASE + 4 * code
modulo 2^XLEN. -/
def Obligations.HandlerAddress : Prop :=
  ∀ (x : Xlen) (tv : Word) (interrupt : Bool) (code : Nat), tv.toNat < 2 ^ xlenBits x →
    (trapVector x tv interrupt code).toNat =
      if tv.toNat % 4 = 1 ∧ interrupt = true then (tv.toNat / 4 * 4 + 4 * code) % 2 ^ xlenBits x
      else tv.toNat / 4 * 4

/-- R286, R287: which interrupt is taken before fetch. One bound for M-mode is taken when the hart is below M-mode or
MIE is 1, the one of highest rank that is pending, enabled and not delegated; else one bound for S-mode when the hart
is in U-mode, or in S-mode with SIE = 1, the one of highest rank that is pending, enabled and delegated; else none. -/
def Obligations.InterruptSelection : Prop :=
  ∀ s : State,
    let pend (i : Irq) := (mipRead s &&& s.mie).getLsbD (irqCode i) = true
    let machineBound (i : Irq) :=
      (s.priv ≠ .M ∨ mstatusMIE s.mstatus = true) ∧ pend i ∧ s.mideleg.getLsbD (irqCode i) = false
    let supervisorBound (i : Irq) :=
      (s.priv = .U ∨ (s.priv = .S ∧ mstatusSIE s.mstatus = true)) ∧ pend i ∧
        s.mideleg.getLsbD (irqCode i) = true ∧ irqSupervisor i = true
    (∀ i, interruptTaken s = some (i, .M) ↔
      machineBound i ∧ ∀ j, irqRank j < irqRank i → ¬ machineBound j) ∧
    (∀ i, interruptTaken s = some (i, .S) ↔
      (∀ j, ¬ machineBound j) ∧ supervisorBound i ∧ ∀ j, irqRank j < irqRank i → ¬ supervisorBound j) ∧
    (interruptTaken s = none ↔ ∀ j, ¬ machineBound j ∧ ¬ supervisorBound j)

/-! ### The step (00_scope.md R3) -/

/-- R3: a step of a hart that is not waiting and takes no interrupt runs the instruction its bytes at pc decode to; what
comes before it is only the move of the agents. -/
def Obligations.StepRunsDecodedInstruction : Prop :=
  ∀ (s : State) (bs : List Byte) (i : Instr),
    let s' := wake (moveAgents s)
    s'.waiting = false → interruptTaken s' = none → fetch s' = .bytes bs → decode s'.cfg.xlen bs = .instr i →
    i.wf s'.cfg.xlen = true → step s = exec i s'

/-- R182 (a), (b), R150, R152, R160, R271, R272: what a step does whose fetch answers no instruction. A word that is
none raises IllegalInstruction with that word when it is a SYSTEM word, and is refused when it is outside the spec; a
fetch that raises is InstructionAccessFault, code 1, with pc as trap value and as saved pc; a fetch that is refused
refuses the step. -/
def Obligations.StepOnOtherWords : Prop :=
  ∀ s : State,
    let s' := wake (moveAgents s)
    s'.waiting = false → interruptTaken s' = none →
    (∀ w : InstrWord, fetch s' = .bytes (bytesOfWord w) →
      (decodeWord s'.cfg.xlen w = .illegal → step s = .next (raiseIllegal w s')) ∧
      (decodeWord s'.cfg.xlen w = .outside → step s = .refused .outsideSpec)) ∧
    (∀ e : Exc, fetch s' = .raises e →
      step s = .next (takeTrap false 1 s.pc s.pc (trapTarget s' false 1) s')) ∧
    (∀ r : Refusal, fetch s' = .refused r → step s = .refused r)

/-- R3, R286, R288: when an interrupt is to be taken, the step takes it before fetch: the instruction at pc does not
execute, and pc is saved. -/
def Obligations.StepTakesInterruptBeforeFetch : Prop :=
  ∀ (s : State) (i : Irq) (target : Priv),
    let s' := wake (moveAgents s)
    s'.waiting = false → interruptTaken s' = some (i, target) →
    step s = .next (takeTrap true (irqCode i) 0#64 s.pc target s')

/-- R150, R160, R146, with the model's reading that memory must answer at all four bytes (log 14): what a fetch
answers, in this order. A byte that nothing has written since reset is the free value drawn there (I47b; log 7). -/
def Obligations.FetchOutcomes : Prop :=
  ∀ s : State,
    let denied := pmpAllows s s.pc 4 .fetch s.priv = false ∨ memoryAnswers s.cfg s.pc 4 = false
    let byteAt (k : Nat) :=
      match memRead s.mem (byteAddr s.cfg.xlen s.pc k) with
      | some b => b
      | none => Config.memoryAtReset (byteAddr s.cfg.xlen s.pc k)
    (translationActive s s.priv = true → fetch s = .refused .translatedAccess) ∧
    (translationActive s s.priv = false → denied → fetch s = .raises .instructionAccessFault) ∧
    (translationActive s s.priv = false → ¬ denied → (∃ a ∈ fetchAddrs s, a ∈ s.stored) →
      fetch s = .refused .modifiedCode) ∧
    (translationActive s s.priv = false → ¬ denied → (∀ a ∈ fetchAddrs s, a ∉ s.stored) →
      fetch s = .bytes [byteAt 0, byteAt 1, byteAt 2, byteAt 3])

/-- R73, R4: in every step the agents' move drives the wires, advances mcycle unless counter 0 is inhibited, advances
time and the performance counters that count, and touches neither minstret nor any register, mode, memory or other
CSR. Which performance counters count, those below NUM_HPM, is log 18 (DEDUCED); that the amounts are one input per
step, from a list that is used up, is log 9 (DESIGN CHOICE). -/
def Obligations.AgentsMoveCountersAndWires : Prop :=
  ∀ s : State,
    let input := nextInput s
    let t := moveAgents s
    t.mcycle = (if s.mcountinhibit.getLsbD 0 = true then s.mcycle else s.mcycle + BitVec.ofNat 64 input.cycles) ∧
    t.time = s.time + BitVec.ofNat 64 input.ticks ∧
    (∀ n : Fin 29, n.val < s.cfg.numHpm → t.mhpmcounter[n] =
      if s.mcountinhibit.getLsbD (n.val + 3) = true then s.mhpmcounter[n]
      else s.mhpmcounter[n] + BitVec.ofNat 64 (input.hpm.getD n.val 0)) ∧
    (∀ n : Fin 29, s.cfg.numHpm ≤ n.val → t.mhpmcounter[n] = s.mhpmcounter[n]) ∧
    { s with
      meip := input.meip, mtip := input.mtip, msip := input.msip, seipExt := input.seipExt, mcycle := t.mcycle,
      time := t.time, mhpmcounter := t.mhpmcounter, stallDraw := input.stall, inputs := s.inputs.tail,
      draws := t.draws } = t

/-! ### Invariants and whole-machine rules -/

/-- Every step keeps the invariant, the width of every XLEN-wide register (those WidthInv lists; the others have their
bits above 31 held zero by the masks of Inv; log 2), and the configuration, from every state that has them. -/
def Obligations.StepKeepsInvariant : Prop :=
  ∀ s t : State, Inv s → WidthInv s → step s = .next t → Inv t ∧ WidthInv t ∧ t.cfg = s.cfg

/-- The invariant holds after reset. -/
def Obligations.ResetHasInvariant : Prop := Inv State.reset ∧ WidthInv State.reset

/-- R296, R289: a step lowers the privilege only by running MRET or SRET. -/
def Obligations.OnlyReturnsLowerPrivilege : Prop :=
  ∀ s t : State, step s = .next t →
    privBits s.priv ≤ privBits t.priv ∨
    ∃ bs, fetch (wake (moveAgents s)) = .bytes bs ∧
      (decode s.cfg.xlen bs = .instr .mret ∨ decode s.cfg.xlen bs = .instr .sret)

/-- R171, R297, R294 (c): an instruction that runs below M-mode and does not trap into M-mode leaves every
machine-level register as it was: of mstatus only fields of sstatus and MPRV can change, of mie only delegated bits,
of mip only SSIP. -/
def Obligations.LowerModesCannotChangeMachineState : Prop :=
  ∀ (i : Instr) (s t : State), s.priv ≠ .M → exec i s = .next t → t.priv ≠ .M →
    { s with
      x := t.x, pc := t.pc, priv := t.priv, waiting := t.waiting, tlb := t.tlb, mem := t.mem, stored := t.stored,
      minstret := t.minstret, fcsr := t.fcsr, mstatus := t.mstatus, mie := t.mie, mipSw := t.mipSw,
      stvec := t.stvec, scounteren := t.scounteren, sscratch := t.sscratch, sepc := t.sepc, scause := t.scause,
      stval := t.stval, satp := t.satp } = t ∧
    ((mstatusMPP s.mstatus).toNat ∈ modeEncodings s.cfg →
      t.mstatus &&& ~~~0xE6122#64 = s.mstatus &&& ~~~0xE6122#64) ∧
    t.mie &&& ~~~(s.mideleg &&& 0x222#64) = s.mie &&& ~~~(s.mideleg &&& 0x222#64) ∧
    t.mipSw &&& ~~~0x2#64 = s.mipSw &&& ~~~0x2#64

/-- R109, R330: what reset leaves (the spec's own decisions D13, D18 and D19; the reset vector is log 3); and R331
(c): every implemented CSR but the four of Debug Mode can be read then (FS = 1 is log 5). That memory lists nothing
written is the model's form of the spec's "a draw": every byte then reads as the free value of its address (log 7). -/
def Obligations.ResetState : Prop :=
  State.reset.priv = .M ∧ State.reset.pc = State.reset.cfg.resetVector ∧
  mstatusMIE State.reset.mstatus = false ∧ mstatusMPRV State.reset.mstatus = false ∧
  State.reset.mcause = 0#64 ∧ csrRead State.reset 0x301#12 = State.reset.cfg.misa ∧
  State.reset.waiting = false ∧ State.reset.debugMode = false ∧ State.reset.mem = [] ∧ readX State.reset 0#5 = 0#64 ∧
  (∀ a, memByte State.reset.mem a = Config.memoryAtReset a) ∧
  (∀ (a : CsrAddr) (r : Csr), csrImpl State.reset.cfg a = some r → r ∉ [.dcsr, .dpc, .dscratch0, .dscratch1] →
    csrPermitted State.reset a false = true)

/-! ### Which CSRs exist, and which accesses are checked how (10_state.md R28; 20_memory.md R141, R151, R155) -/

/-- R28, with the conditions of the registers' own rules: the implemented addresses are those of the table that the
configuration does not leave out, RV32-only ones only with XLEN = 32, supervisor and delegation registers only with
S-mode, and so on; REF64 leaves out the addresses R28 lists. (For other configurations the source fixes only that IMPL
is a subset of the table and has no RV32-only register on RV64; the rest is log 31.) -/
def Obligations.ImplementedCsrs : Prop :=
  (∀ (c : Config) (a : CsrAddr),
    let n := a.toNat
    let rv32Only := n = 0x310 ∨ (0x3A0 ≤ n ∧ n ≤ 0x3AF ∧ n % 2 = 1) ∨ (0xB80 ≤ n ∧ n ≤ 0xB9F) ∨
      (0xC80 ≤ n ∧ n ≤ 0xC9F)
    let withS := (0x100 ≤ n ∧ n ≤ 0x180) ∨ n = 0x302 ∨ n = 0x303
    csrImpl c a ≠ none ↔
      csrAt a ≠ none ∧ a ∉ c.absent ∧
      (rv32Only → c.xlen = .rv32) ∧ (withS → c.modes = .msu) ∧ (n ≤ 0x003 → c.hasF = true) ∧
      (0x3A0 ≤ n ∧ n ≤ 0x3EF → c.pmpEntries ≠ 0) ∧ (0x7A0 ≤ n ∧ n ≤ 0x7AA → c.numTriggers ≠ 0) ∧
      (n = 0x34A ∨ n = 0x34B → c.hasHtrap = true)) ∧
  (∀ (c : Config) (a : CsrAddr) (r : Csr), csrImpl c a = some r → csrAddr r = a) ∧
  (∀ a : CsrAddr, csrImpl Config.ref64 a ≠ none ↔ csrAt a ≠ none ∧
    ¬ (a = 0x310#12 ∨ (0xB80#12 ≤ a ∧ a ≤ 0xB9F#12) ∨ (0xC80#12 ≤ a ∧ a ≤ 0xC9F#12) ∨
      (0x3A0#12 ≤ a ∧ a ≤ 0x3EF#12) ∨ (0x7A0#12 ≤ a ∧ a ≤ 0x7AA#12) ∨ a = 0x34A#12 ∨ a = 0x34B#12))

/-- R151, R155, R141: the effective privilege of a data access is MPP when MPRV = 1 and the current mode otherwise;
translation is active exactly when the effective privilege is S or U and satp.MODE is not 0 (Bare), where S-mode, and
so satp, exists; an access is answered when every byte of it, modulo 2^XLEN, lies in a region of the memory map and,
on RV64, has no address bit above 55 (that this is the fault of an absent address in every mode is DEDUCED, log 15).
-/
def Obligations.AccessChecks : Prop :=
  ∀ (s : State) (p : Priv),
    (mstatusMPRV s.mstatus = false → dataPriv s = some s.priv) ∧
    (mstatusMPRV s.mstatus = true → mstatusMPP s.mstatus = privBits p → dataPriv s = some p) ∧
    (translationActive s p = true ↔
      (p = .S ∨ p = .U) ∧ s.cfg.modes = .msu ∧
      (s.cfg.xlen = .rv64 → s.satp.toNat / 2 ^ 60 ≠ 0) ∧ (s.cfg.xlen = .rv32 → s.satp.getLsbD 31 = true)) ∧
    ∀ (addr : Word) (n : Nat), addr.toNat < 2 ^ xlenBits s.cfg.xlen →
      (memoryAnswers s.cfg addr n = true ↔ ∀ k < n,
        let a := (addr.toNat + k) % 2 ^ xlenBits s.cfg.xlen
        (∃ r ∈ s.cfg.memoryMap, r.base ≤ a ∧ a < r.base + r.size) ∧ (s.cfg.xlen = .rv64 → a < 2 ^ 56))
end

