-- ==== Sys2Proof/Laws/State.lean ====
section
/-! SUPPORT. One lemma per field per update of the state: what each shared operation leaves unchanged, and the value of
the fields it writes where that is one expression. -/

namespace Sys2Proof.Machine

/-! ### setX -/

section

variable (s : State) (r : Reg) (v : Word)

@[simp] theorem setX_pc : (setX s r v).pc = s.pc := by unfold setX; split <;> rfl
@[simp] theorem setX_priv : (setX s r v).priv = s.priv := by unfold setX; split <;> rfl
@[simp] theorem setX_debugMode : (setX s r v).debugMode = s.debugMode := by unfold setX; split <;> rfl
@[simp] theorem setX_waiting : (setX s r v).waiting = s.waiting := by unfold setX; split <;> rfl
@[simp] theorem setX_tlb : (setX s r v).tlb = s.tlb := by unfold setX; split <;> rfl
@[simp] theorem setX_meip : (setX s r v).meip = s.meip := by unfold setX; split <;> rfl
@[simp] theorem setX_mtip : (setX s r v).mtip = s.mtip := by unfold setX; split <;> rfl
@[simp] theorem setX_msip : (setX s r v).msip = s.msip := by unfold setX; split <;> rfl
@[simp] theorem setX_seipExt : (setX s r v).seipExt = s.seipExt := by unfold setX; split <;> rfl
@[simp] theorem setX_mem : (setX s r v).mem = s.mem := by unfold setX; split <;> rfl
@[simp] theorem setX_mstatus : (setX s r v).mstatus = s.mstatus := by unfold setX; split <;> rfl
@[simp] theorem setX_medeleg : (setX s r v).medeleg = s.medeleg := by unfold setX; split <;> rfl
@[simp] theorem setX_mideleg : (setX s r v).mideleg = s.mideleg := by unfold setX; split <;> rfl
@[simp] theorem setX_mie : (setX s r v).mie = s.mie := by unfold setX; split <;> rfl
@[simp] theorem setX_mtvec : (setX s r v).mtvec = s.mtvec := by unfold setX; split <;> rfl
@[simp] theorem setX_mcounteren : (setX s r v).mcounteren = s.mcounteren := by unfold setX; split <;> rfl
@[simp] theorem setX_mcountinhibit : (setX s r v).mcountinhibit = s.mcountinhibit := by unfold setX; split <;> rfl
@[simp] theorem setX_mhpmevent : (setX s r v).mhpmevent = s.mhpmevent := by unfold setX; split <;> rfl
@[simp] theorem setX_mscratch : (setX s r v).mscratch = s.mscratch := by unfold setX; split <;> rfl
@[simp] theorem setX_mepc : (setX s r v).mepc = s.mepc := by unfold setX; split <;> rfl
@[simp] theorem setX_mcause : (setX s r v).mcause = s.mcause := by unfold setX; split <;> rfl
@[simp] theorem setX_mtval : (setX s r v).mtval = s.mtval := by unfold setX; split <;> rfl
@[simp] theorem setX_mipSw : (setX s r v).mipSw = s.mipSw := by unfold setX; split <;> rfl
@[simp] theorem setX_mtinst : (setX s r v).mtinst = s.mtinst := by unfold setX; split <;> rfl
@[simp] theorem setX_mtval2 : (setX s r v).mtval2 = s.mtval2 := by unfold setX; split <;> rfl
@[simp] theorem setX_pmpcfg : (setX s r v).pmpcfg = s.pmpcfg := by unfold setX; split <;> rfl
@[simp] theorem setX_pmpaddr : (setX s r v).pmpaddr = s.pmpaddr := by unfold setX; split <;> rfl
@[simp] theorem setX_mcycle : (setX s r v).mcycle = s.mcycle := by unfold setX; split <;> rfl
@[simp] theorem setX_minstret : (setX s r v).minstret = s.minstret := by unfold setX; split <;> rfl
@[simp] theorem setX_mhpmcounter : (setX s r v).mhpmcounter = s.mhpmcounter := by unfold setX; split <;> rfl
@[simp] theorem setX_time : (setX s r v).time = s.time := by unfold setX; split <;> rfl
@[simp] theorem setX_stvec : (setX s r v).stvec = s.stvec := by unfold setX; split <;> rfl
@[simp] theorem setX_scounteren : (setX s r v).scounteren = s.scounteren := by unfold setX; split <;> rfl
@[simp] theorem setX_sscratch : (setX s r v).sscratch = s.sscratch := by unfold setX; split <;> rfl
@[simp] theorem setX_sepc : (setX s r v).sepc = s.sepc := by unfold setX; split <;> rfl
@[simp] theorem setX_scause : (setX s r v).scause = s.scause := by unfold setX; split <;> rfl
@[simp] theorem setX_stval : (setX s r v).stval = s.stval := by unfold setX; split <;> rfl
@[simp] theorem setX_satp : (setX s r v).satp = s.satp := by unfold setX; split <;> rfl
@[simp] theorem setX_fcsr : (setX s r v).fcsr = s.fcsr := by unfold setX; split <;> rfl
@[simp] theorem setX_dcsr : (setX s r v).dcsr = s.dcsr := by unfold setX; split <;> rfl
@[simp] theorem setX_dpc : (setX s r v).dpc = s.dpc := by unfold setX; split <;> rfl
@[simp] theorem setX_dscratch0 : (setX s r v).dscratch0 = s.dscratch0 := by unfold setX; split <;> rfl
@[simp] theorem setX_dscratch1 : (setX s r v).dscratch1 = s.dscratch1 := by unfold setX; split <;> rfl
@[simp] theorem setX_tselect : (setX s r v).tselect = s.tselect := by unfold setX; split <;> rfl
@[simp] theorem setX_triggers : (setX s r v).triggers = s.triggers := by unfold setX; split <;> rfl
@[simp] theorem setX_tcontrol : (setX s r v).tcontrol = s.tcontrol := by unfold setX; split <;> rfl
@[simp] theorem setX_mcontext : (setX s r v).mcontext = s.mcontext := by unfold setX; split <;> rfl
@[simp] theorem setX_scontext : (setX s r v).scontext = s.scontext := by unfold setX; split <;> rfl
@[simp] theorem setX_cfg : (setX s r v).cfg = s.cfg := by unfold setX; split <;> rfl
@[simp] theorem setX_stored : (setX s r v).stored = s.stored := by unfold setX; split <;> rfl
@[simp] theorem setX_inputs : (setX s r v).inputs = s.inputs := by unfold setX; split <;> rfl
@[simp] theorem setX_draws : (setX s r v).draws = s.draws := by unfold setX; split <;> rfl
@[simp] theorem setX_stallDraw : (setX s r v).stallDraw = s.stallDraw := by unfold setX; split <;> rfl

end

/-! ### advancePc -/

section

variable (s : State)

@[simp] theorem advancePc_x : (advancePc s).x = s.x := rfl
@[simp] theorem advancePc_priv : (advancePc s).priv = s.priv := rfl
@[simp] theorem advancePc_debugMode : (advancePc s).debugMode = s.debugMode := rfl
@[simp] theorem advancePc_waiting : (advancePc s).waiting = s.waiting := rfl
@[simp] theorem advancePc_tlb : (advancePc s).tlb = s.tlb := rfl
@[simp] theorem advancePc_meip : (advancePc s).meip = s.meip := rfl
@[simp] theorem advancePc_mtip : (advancePc s).mtip = s.mtip := rfl
@[simp] theorem advancePc_msip : (advancePc s).msip = s.msip := rfl
@[simp] theorem advancePc_seipExt : (advancePc s).seipExt = s.seipExt := rfl
@[simp] theorem advancePc_mem : (advancePc s).mem = s.mem := rfl
@[simp] theorem advancePc_mstatus : (advancePc s).mstatus = s.mstatus := rfl
@[simp] theorem advancePc_medeleg : (advancePc s).medeleg = s.medeleg := rfl
@[simp] theorem advancePc_mideleg : (advancePc s).mideleg = s.mideleg := rfl
@[simp] theorem advancePc_mie : (advancePc s).mie = s.mie := rfl
@[simp] theorem advancePc_mtvec : (advancePc s).mtvec = s.mtvec := rfl
@[simp] theorem advancePc_mcounteren : (advancePc s).mcounteren = s.mcounteren := rfl
@[simp] theorem advancePc_mcountinhibit : (advancePc s).mcountinhibit = s.mcountinhibit := rfl
@[simp] theorem advancePc_mhpmevent : (advancePc s).mhpmevent = s.mhpmevent := rfl
@[simp] theorem advancePc_mscratch : (advancePc s).mscratch = s.mscratch := rfl
@[simp] theorem advancePc_mepc : (advancePc s).mepc = s.mepc := rfl
@[simp] theorem advancePc_mcause : (advancePc s).mcause = s.mcause := rfl
@[simp] theorem advancePc_mtval : (advancePc s).mtval = s.mtval := rfl
@[simp] theorem advancePc_mipSw : (advancePc s).mipSw = s.mipSw := rfl
@[simp] theorem advancePc_mtinst : (advancePc s).mtinst = s.mtinst := rfl
@[simp] theorem advancePc_mtval2 : (advancePc s).mtval2 = s.mtval2 := rfl
@[simp] theorem advancePc_pmpcfg : (advancePc s).pmpcfg = s.pmpcfg := rfl
@[simp] theorem advancePc_pmpaddr : (advancePc s).pmpaddr = s.pmpaddr := rfl
@[simp] theorem advancePc_mcycle : (advancePc s).mcycle = s.mcycle := rfl
@[simp] theorem advancePc_minstret : (advancePc s).minstret = s.minstret := rfl
@[simp] theorem advancePc_mhpmcounter : (advancePc s).mhpmcounter = s.mhpmcounter := rfl
@[simp] theorem advancePc_time : (advancePc s).time = s.time := rfl
@[simp] theorem advancePc_stvec : (advancePc s).stvec = s.stvec := rfl
@[simp] theorem advancePc_scounteren : (advancePc s).scounteren = s.scounteren := rfl
@[simp] theorem advancePc_sscratch : (advancePc s).sscratch = s.sscratch := rfl
@[simp] theorem advancePc_sepc : (advancePc s).sepc = s.sepc := rfl
@[simp] theorem advancePc_scause : (advancePc s).scause = s.scause := rfl
@[simp] theorem advancePc_stval : (advancePc s).stval = s.stval := rfl
@[simp] theorem advancePc_satp : (advancePc s).satp = s.satp := rfl
@[simp] theorem advancePc_fcsr : (advancePc s).fcsr = s.fcsr := rfl
@[simp] theorem advancePc_dcsr : (advancePc s).dcsr = s.dcsr := rfl
@[simp] theorem advancePc_dpc : (advancePc s).dpc = s.dpc := rfl
@[simp] theorem advancePc_dscratch0 : (advancePc s).dscratch0 = s.dscratch0 := rfl
@[simp] theorem advancePc_dscratch1 : (advancePc s).dscratch1 = s.dscratch1 := rfl
@[simp] theorem advancePc_tselect : (advancePc s).tselect = s.tselect := rfl
@[simp] theorem advancePc_triggers : (advancePc s).triggers = s.triggers := rfl
@[simp] theorem advancePc_tcontrol : (advancePc s).tcontrol = s.tcontrol := rfl
@[simp] theorem advancePc_mcontext : (advancePc s).mcontext = s.mcontext := rfl
@[simp] theorem advancePc_scontext : (advancePc s).scontext = s.scontext := rfl
@[simp] theorem advancePc_cfg : (advancePc s).cfg = s.cfg := rfl
@[simp] theorem advancePc_stored : (advancePc s).stored = s.stored := rfl
@[simp] theorem advancePc_inputs : (advancePc s).inputs = s.inputs := rfl
@[simp] theorem advancePc_draws : (advancePc s).draws = s.draws := rfl
@[simp] theorem advancePc_stallDraw : (advancePc s).stallDraw = s.stallDraw := rfl

end

/-! ### countRetired -/

section

variable (h : BitVec 32) (w : Bool) (s : State)

@[simp] theorem countRetired_x : (countRetired h w s).x = s.x := by unfold countRetired; split <;> rfl
@[simp] theorem countRetired_pc : (countRetired h w s).pc = s.pc := by unfold countRetired; split <;> rfl
@[simp] theorem countRetired_priv : (countRetired h w s).priv = s.priv := by unfold countRetired; split <;> rfl
@[simp] theorem countRetired_debugMode : (countRetired h w s).debugMode = s.debugMode := by unfold countRetired; split <;> rfl
@[simp] theorem countRetired_waiting : (countRetired h w s).waiting = s.waiting := by unfold countRetired; split <;> rfl
@[simp] theorem countRetired_tlb : (countRetired h w s).tlb = s.tlb := by unfold countRetired; split <;> rfl
@[simp] theorem countRetired_meip : (countRetired h w s).meip = s.meip := by unfold countRetired; split <;> rfl
@[simp] theorem countRetired_mtip : (countRetired h w s).mtip = s.mtip := by unfold countRetired; split <;> rfl
@[simp] theorem countRetired_msip : (countRetired h w s).msip = s.msip := by unfold countRetired; split <;> rfl
@[simp] theorem countRetired_seipExt : (countRetired h w s).seipExt = s.seipExt := by unfold countRetired; split <;> rfl
@[simp] theorem countRetired_mem : (countRetired h w s).mem = s.mem := by unfold countRetired; split <;> rfl
@[simp] theorem countRetired_mstatus : (countRetired h w s).mstatus = s.mstatus := by unfold countRetired; split <;> rfl
@[simp] theorem countRetired_medeleg : (countRetired h w s).medeleg = s.medeleg := by unfold countRetired; split <;> rfl
@[simp] theorem countRetired_mideleg : (countRetired h w s).mideleg = s.mideleg := by unfold countRetired; split <;> rfl
@[simp] theorem countRetired_mie : (countRetired h w s).mie = s.mie := by unfold countRetired; split <;> rfl
@[simp] theorem countRetired_mtvec : (countRetired h w s).mtvec = s.mtvec := by unfold countRetired; split <;> rfl
@[simp] theorem countRetired_mcounteren : (countRetired h w s).mcounteren = s.mcounteren := by unfold countRetired; split <;> rfl
@[simp] theorem countRetired_mcountinhibit : (countRetired h w s).mcountinhibit = s.mcountinhibit := by unfold countRetired; split <;> rfl
@[simp] theorem countRetired_mhpmevent : (countRetired h w s).mhpmevent = s.mhpmevent := by unfold countRetired; split <;> rfl
@[simp] theorem countRetired_mscratch : (countRetired h w s).mscratch = s.mscratch := by unfold countRetired; split <;> rfl
@[simp] theorem countRetired_mepc : (countRetired h w s).mepc = s.mepc := by unfold countRetired; split <;> rfl
@[simp] theorem countRetired_mcause : (countRetired h w s).mcause = s.mcause := by unfold countRetired; split <;> rfl
@[simp] theorem countRetired_mtval : (countRetired h w s).mtval = s.mtval := by unfold countRetired; split <;> rfl
@[simp] theorem countRetired_mipSw : (countRetired h w s).mipSw = s.mipSw := by unfold countRetired; split <;> rfl
@[simp] theorem countRetired_mtinst : (countRetired h w s).mtinst = s.mtinst := by unfold countRetired; split <;> rfl
@[simp] theorem countRetired_mtval2 : (countRetired h w s).mtval2 = s.mtval2 := by unfold countRetired; split <;> rfl
@[simp] theorem countRetired_pmpcfg : (countRetired h w s).pmpcfg = s.pmpcfg := by unfold countRetired; split <;> rfl
@[simp] theorem countRetired_pmpaddr : (countRetired h w s).pmpaddr = s.pmpaddr := by unfold countRetired; split <;> rfl
@[simp] theorem countRetired_mcycle : (countRetired h w s).mcycle = s.mcycle := by unfold countRetired; split <;> rfl
@[simp] theorem countRetired_mhpmcounter : (countRetired h w s).mhpmcounter = s.mhpmcounter := by unfold countRetired; split <;> rfl
@[simp] theorem countRetired_time : (countRetired h w s).time = s.time := by unfold countRetired; split <;> rfl
@[simp] theorem countRetired_stvec : (countRetired h w s).stvec = s.stvec := by unfold countRetired; split <;> rfl
@[simp] theorem countRetired_scounteren : (countRetired h w s).scounteren = s.scounteren := by unfold countRetired; split <;> rfl
@[simp] theorem countRetired_sscratch : (countRetired h w s).sscratch = s.sscratch := by unfold countRetired; split <;> rfl
@[simp] theorem countRetired_sepc : (countRetired h w s).sepc = s.sepc := by unfold countRetired; split <;> rfl
@[simp] theorem countRetired_scause : (countRetired h w s).scause = s.scause := by unfold countRetired; split <;> rfl
@[simp] theorem countRetired_stval : (countRetired h w s).stval = s.stval := by unfold countRetired; split <;> rfl
@[simp] theorem countRetired_satp : (countRetired h w s).satp = s.satp := by unfold countRetired; split <;> rfl
@[simp] theorem countRetired_fcsr : (countRetired h w s).fcsr = s.fcsr := by unfold countRetired; split <;> rfl
@[simp] theorem countRetired_dcsr : (countRetired h w s).dcsr = s.dcsr := by unfold countRetired; split <;> rfl
@[simp] theorem countRetired_dpc : (countRetired h w s).dpc = s.dpc := by unfold countRetired; split <;> rfl
@[simp] theorem countRetired_dscratch0 : (countRetired h w s).dscratch0 = s.dscratch0 := by unfold countRetired; split <;> rfl
@[simp] theorem countRetired_dscratch1 : (countRetired h w s).dscratch1 = s.dscratch1 := by unfold countRetired; split <;> rfl
@[simp] theorem countRetired_tselect : (countRetired h w s).tselect = s.tselect := by unfold countRetired; split <;> rfl
@[simp] theorem countRetired_triggers : (countRetired h w s).triggers = s.triggers := by unfold countRetired; split <;> rfl
@[simp] theorem countRetired_tcontrol : (countRetired h w s).tcontrol = s.tcontrol := by unfold countRetired; split <;> rfl
@[simp] theorem countRetired_mcontext : (countRetired h w s).mcontext = s.mcontext := by unfold countRetired; split <;> rfl
@[simp] theorem countRetired_scontext : (countRetired h w s).scontext = s.scontext := by unfold countRetired; split <;> rfl
@[simp] theorem countRetired_cfg : (countRetired h w s).cfg = s.cfg := by unfold countRetired; split <;> rfl
@[simp] theorem countRetired_stored : (countRetired h w s).stored = s.stored := by unfold countRetired; split <;> rfl
@[simp] theorem countRetired_inputs : (countRetired h w s).inputs = s.inputs := by unfold countRetired; split <;> rfl
@[simp] theorem countRetired_draws : (countRetired h w s).draws = s.draws := by unfold countRetired; split <;> rfl
@[simp] theorem countRetired_stallDraw : (countRetired h w s).stallDraw = s.stallDraw := by unfold countRetired; split <;> rfl

end

/-! ### retire -/

section

variable (s : State)

@[simp] theorem retire_x : (retire s).x = s.x := by simp [retire]
@[simp] theorem retire_priv : (retire s).priv = s.priv := by simp [retire]
@[simp] theorem retire_debugMode : (retire s).debugMode = s.debugMode := by simp [retire]
@[simp] theorem retire_waiting : (retire s).waiting = s.waiting := by simp [retire]
@[simp] theorem retire_tlb : (retire s).tlb = s.tlb := by simp [retire]
@[simp] theorem retire_meip : (retire s).meip = s.meip := by simp [retire]
@[simp] theorem retire_mtip : (retire s).mtip = s.mtip := by simp [retire]
@[simp] theorem retire_msip : (retire s).msip = s.msip := by simp [retire]
@[simp] theorem retire_seipExt : (retire s).seipExt = s.seipExt := by simp [retire]
@[simp] theorem retire_mem : (retire s).mem = s.mem := by simp [retire]
@[simp] theorem retire_mstatus : (retire s).mstatus = s.mstatus := by simp [retire]
@[simp] theorem retire_medeleg : (retire s).medeleg = s.medeleg := by simp [retire]
@[simp] theorem retire_mideleg : (retire s).mideleg = s.mideleg := by simp [retire]
@[simp] theorem retire_mie : (retire s).mie = s.mie := by simp [retire]
@[simp] theorem retire_mtvec : (retire s).mtvec = s.mtvec := by simp [retire]
@[simp] theorem retire_mcounteren : (retire s).mcounteren = s.mcounteren := by simp [retire]
@[simp] theorem retire_mcountinhibit : (retire s).mcountinhibit = s.mcountinhibit := by simp [retire]
@[simp] theorem retire_mhpmevent : (retire s).mhpmevent = s.mhpmevent := by simp [retire]
@[simp] theorem retire_mscratch : (retire s).mscratch = s.mscratch := by simp [retire]
@[simp] theorem retire_mepc : (retire s).mepc = s.mepc := by simp [retire]
@[simp] theorem retire_mcause : (retire s).mcause = s.mcause := by simp [retire]
@[simp] theorem retire_mtval : (retire s).mtval = s.mtval := by simp [retire]
@[simp] theorem retire_mipSw : (retire s).mipSw = s.mipSw := by simp [retire]
@[simp] theorem retire_mtinst : (retire s).mtinst = s.mtinst := by simp [retire]
@[simp] theorem retire_mtval2 : (retire s).mtval2 = s.mtval2 := by simp [retire]
@[simp] theorem retire_pmpcfg : (retire s).pmpcfg = s.pmpcfg := by simp [retire]
@[simp] theorem retire_pmpaddr : (retire s).pmpaddr = s.pmpaddr := by simp [retire]
@[simp] theorem retire_mcycle : (retire s).mcycle = s.mcycle := by simp [retire]
@[simp] theorem retire_mhpmcounter : (retire s).mhpmcounter = s.mhpmcounter := by simp [retire]
@[simp] theorem retire_time : (retire s).time = s.time := by simp [retire]
@[simp] theorem retire_stvec : (retire s).stvec = s.stvec := by simp [retire]
@[simp] theorem retire_scounteren : (retire s).scounteren = s.scounteren := by simp [retire]
@[simp] theorem retire_sscratch : (retire s).sscratch = s.sscratch := by simp [retire]
@[simp] theorem retire_sepc : (retire s).sepc = s.sepc := by simp [retire]
@[simp] theorem retire_scause : (retire s).scause = s.scause := by simp [retire]
@[simp] theorem retire_stval : (retire s).stval = s.stval := by simp [retire]
@[simp] theorem retire_satp : (retire s).satp = s.satp := by simp [retire]
@[simp] theorem retire_fcsr : (retire s).fcsr = s.fcsr := by simp [retire]
@[simp] theorem retire_dcsr : (retire s).dcsr = s.dcsr := by simp [retire]
@[simp] theorem retire_dpc : (retire s).dpc = s.dpc := by simp [retire]
@[simp] theorem retire_dscratch0 : (retire s).dscratch0 = s.dscratch0 := by simp [retire]
@[simp] theorem retire_dscratch1 : (retire s).dscratch1 = s.dscratch1 := by simp [retire]
@[simp] theorem retire_tselect : (retire s).tselect = s.tselect := by simp [retire]
@[simp] theorem retire_triggers : (retire s).triggers = s.triggers := by simp [retire]
@[simp] theorem retire_tcontrol : (retire s).tcontrol = s.tcontrol := by simp [retire]
@[simp] theorem retire_mcontext : (retire s).mcontext = s.mcontext := by simp [retire]
@[simp] theorem retire_scontext : (retire s).scontext = s.scontext := by simp [retire]
@[simp] theorem retire_cfg : (retire s).cfg = s.cfg := by simp [retire]
@[simp] theorem retire_stored : (retire s).stored = s.stored := by simp [retire]
@[simp] theorem retire_inputs : (retire s).inputs = s.inputs := by simp [retire]
@[simp] theorem retire_draws : (retire s).draws = s.draws := by simp [retire]
@[simp] theorem retire_stallDraw : (retire s).stallDraw = s.stallDraw := by simp [retire]

end

/-! ### takeTrap -/

section

variable (i : Bool) (c : Nat) (v e : Word) (p : Priv) (s : State)

@[simp] theorem takeTrap_x : (takeTrap i c v e p s).x = s.x := by unfold takeTrap; split <;> rfl
@[simp] theorem takeTrap_debugMode : (takeTrap i c v e p s).debugMode = s.debugMode := by unfold takeTrap; split <;> rfl
@[simp] theorem takeTrap_waiting : (takeTrap i c v e p s).waiting = s.waiting := by unfold takeTrap; split <;> rfl
@[simp] theorem takeTrap_tlb : (takeTrap i c v e p s).tlb = s.tlb := by unfold takeTrap; split <;> rfl
@[simp] theorem takeTrap_meip : (takeTrap i c v e p s).meip = s.meip := by unfold takeTrap; split <;> rfl
@[simp] theorem takeTrap_mtip : (takeTrap i c v e p s).mtip = s.mtip := by unfold takeTrap; split <;> rfl
@[simp] theorem takeTrap_msip : (takeTrap i c v e p s).msip = s.msip := by unfold takeTrap; split <;> rfl
@[simp] theorem takeTrap_seipExt : (takeTrap i c v e p s).seipExt = s.seipExt := by unfold takeTrap; split <;> rfl
@[simp] theorem takeTrap_mem : (takeTrap i c v e p s).mem = s.mem := by unfold takeTrap; split <;> rfl
@[simp] theorem takeTrap_medeleg : (takeTrap i c v e p s).medeleg = s.medeleg := by unfold takeTrap; split <;> rfl
@[simp] theorem takeTrap_mideleg : (takeTrap i c v e p s).mideleg = s.mideleg := by unfold takeTrap; split <;> rfl
@[simp] theorem takeTrap_mie : (takeTrap i c v e p s).mie = s.mie := by unfold takeTrap; split <;> rfl
@[simp] theorem takeTrap_mtvec : (takeTrap i c v e p s).mtvec = s.mtvec := by unfold takeTrap; split <;> rfl
@[simp] theorem takeTrap_mcounteren : (takeTrap i c v e p s).mcounteren = s.mcounteren := by unfold takeTrap; split <;> rfl
@[simp] theorem takeTrap_mcountinhibit : (takeTrap i c v e p s).mcountinhibit = s.mcountinhibit := by unfold takeTrap; split <;> rfl
@[simp] theorem takeTrap_mhpmevent : (takeTrap i c v e p s).mhpmevent = s.mhpmevent := by unfold takeTrap; split <;> rfl
@[simp] theorem takeTrap_mscratch : (takeTrap i c v e p s).mscratch = s.mscratch := by unfold takeTrap; split <;> rfl
@[simp] theorem takeTrap_mipSw : (takeTrap i c v e p s).mipSw = s.mipSw := by unfold takeTrap; split <;> rfl
@[simp] theorem takeTrap_pmpcfg : (takeTrap i c v e p s).pmpcfg = s.pmpcfg := by unfold takeTrap; split <;> rfl
@[simp] theorem takeTrap_pmpaddr : (takeTrap i c v e p s).pmpaddr = s.pmpaddr := by unfold takeTrap; split <;> rfl
@[simp] theorem takeTrap_mcycle : (takeTrap i c v e p s).mcycle = s.mcycle := by unfold takeTrap; split <;> rfl
@[simp] theorem takeTrap_minstret : (takeTrap i c v e p s).minstret = s.minstret := by unfold takeTrap; split <;> rfl
@[simp] theorem takeTrap_mhpmcounter : (takeTrap i c v e p s).mhpmcounter = s.mhpmcounter := by unfold takeTrap; split <;> rfl
@[simp] theorem takeTrap_time : (takeTrap i c v e p s).time = s.time := by unfold takeTrap; split <;> rfl
@[simp] theorem takeTrap_stvec : (takeTrap i c v e p s).stvec = s.stvec := by unfold takeTrap; split <;> rfl
@[simp] theorem takeTrap_scounteren : (takeTrap i c v e p s).scounteren = s.scounteren := by unfold takeTrap; split <;> rfl
@[simp] theorem takeTrap_sscratch : (takeTrap i c v e p s).sscratch = s.sscratch := by unfold takeTrap; split <;> rfl
@[simp] theorem takeTrap_satp : (takeTrap i c v e p s).satp = s.satp := by unfold takeTrap; split <;> rfl
@[simp] theorem takeTrap_fcsr : (takeTrap i c v e p s).fcsr = s.fcsr := by unfold takeTrap; split <;> rfl
@[simp] theorem takeTrap_dcsr : (takeTrap i c v e p s).dcsr = s.dcsr := by unfold takeTrap; split <;> rfl
@[simp] theorem takeTrap_dpc : (takeTrap i c v e p s).dpc = s.dpc := by unfold takeTrap; split <;> rfl
@[simp] theorem takeTrap_dscratch0 : (takeTrap i c v e p s).dscratch0 = s.dscratch0 := by unfold takeTrap; split <;> rfl
@[simp] theorem takeTrap_dscratch1 : (takeTrap i c v e p s).dscratch1 = s.dscratch1 := by unfold takeTrap; split <;> rfl
@[simp] theorem takeTrap_tselect : (takeTrap i c v e p s).tselect = s.tselect := by unfold takeTrap; split <;> rfl
@[simp] theorem takeTrap_triggers : (takeTrap i c v e p s).triggers = s.triggers := by unfold takeTrap; split <;> rfl
@[simp] theorem takeTrap_tcontrol : (takeTrap i c v e p s).tcontrol = s.tcontrol := by unfold takeTrap; split <;> rfl
@[simp] theorem takeTrap_mcontext : (takeTrap i c v e p s).mcontext = s.mcontext := by unfold takeTrap; split <;> rfl
@[simp] theorem takeTrap_scontext : (takeTrap i c v e p s).scontext = s.scontext := by unfold takeTrap; split <;> rfl
@[simp] theorem takeTrap_cfg : (takeTrap i c v e p s).cfg = s.cfg := by unfold takeTrap; split <;> rfl
@[simp] theorem takeTrap_stored : (takeTrap i c v e p s).stored = s.stored := by unfold takeTrap; split <;> rfl
@[simp] theorem takeTrap_inputs : (takeTrap i c v e p s).inputs = s.inputs := by unfold takeTrap; split <;> rfl
@[simp] theorem takeTrap_draws : (takeTrap i c v e p s).draws = s.draws := by unfold takeTrap; split <;> rfl
@[simp] theorem takeTrap_stallDraw : (takeTrap i c v e p s).stallDraw = s.stallDraw := by unfold takeTrap; split <;> rfl

end

/-! ### raiseExc -/

section

variable (e : Exc) (v : Word) (s : State)

@[simp] theorem raiseExc_x : (raiseExc e v s).x = s.x := by simp [raiseExc]
@[simp] theorem raiseExc_debugMode : (raiseExc e v s).debugMode = s.debugMode := by simp [raiseExc]
@[simp] theorem raiseExc_waiting : (raiseExc e v s).waiting = s.waiting := by simp [raiseExc]
@[simp] theorem raiseExc_tlb : (raiseExc e v s).tlb = s.tlb := by simp [raiseExc]
@[simp] theorem raiseExc_meip : (raiseExc e v s).meip = s.meip := by simp [raiseExc]
@[simp] theorem raiseExc_mtip : (raiseExc e v s).mtip = s.mtip := by simp [raiseExc]
@[simp] theorem raiseExc_msip : (raiseExc e v s).msip = s.msip := by simp [raiseExc]
@[simp] theorem raiseExc_seipExt : (raiseExc e v s).seipExt = s.seipExt := by simp [raiseExc]
@[simp] theorem raiseExc_mem : (raiseExc e v s).mem = s.mem := by simp [raiseExc]
@[simp] theorem raiseExc_medeleg : (raiseExc e v s).medeleg = s.medeleg := by simp [raiseExc]
@[simp] theorem raiseExc_mideleg : (raiseExc e v s).mideleg = s.mideleg := by simp [raiseExc]
@[simp] theorem raiseExc_mie : (raiseExc e v s).mie = s.mie := by simp [raiseExc]
@[simp] theorem raiseExc_mtvec : (raiseExc e v s).mtvec = s.mtvec := by simp [raiseExc]
@[simp] theorem raiseExc_mcounteren : (raiseExc e v s).mcounteren = s.mcounteren := by simp [raiseExc]
@[simp] theorem raiseExc_mcountinhibit : (raiseExc e v s).mcountinhibit = s.mcountinhibit := by simp [raiseExc]
@[simp] theorem raiseExc_mhpmevent : (raiseExc e v s).mhpmevent = s.mhpmevent := by simp [raiseExc]
@[simp] theorem raiseExc_mscratch : (raiseExc e v s).mscratch = s.mscratch := by simp [raiseExc]
@[simp] theorem raiseExc_mipSw : (raiseExc e v s).mipSw = s.mipSw := by simp [raiseExc]
@[simp] theorem raiseExc_pmpcfg : (raiseExc e v s).pmpcfg = s.pmpcfg := by simp [raiseExc]
@[simp] theorem raiseExc_pmpaddr : (raiseExc e v s).pmpaddr = s.pmpaddr := by simp [raiseExc]
@[simp] theorem raiseExc_mcycle : (raiseExc e v s).mcycle = s.mcycle := by simp [raiseExc]
@[simp] theorem raiseExc_minstret : (raiseExc e v s).minstret = s.minstret := by simp [raiseExc]
@[simp] theorem raiseExc_mhpmcounter : (raiseExc e v s).mhpmcounter = s.mhpmcounter := by simp [raiseExc]
@[simp] theorem raiseExc_time : (raiseExc e v s).time = s.time := by simp [raiseExc]
@[simp] theorem raiseExc_stvec : (raiseExc e v s).stvec = s.stvec := by simp [raiseExc]
@[simp] theorem raiseExc_scounteren : (raiseExc e v s).scounteren = s.scounteren := by simp [raiseExc]
@[simp] theorem raiseExc_sscratch : (raiseExc e v s).sscratch = s.sscratch := by simp [raiseExc]
@[simp] theorem raiseExc_satp : (raiseExc e v s).satp = s.satp := by simp [raiseExc]
@[simp] theorem raiseExc_fcsr : (raiseExc e v s).fcsr = s.fcsr := by simp [raiseExc]
@[simp] theorem raiseExc_dcsr : (raiseExc e v s).dcsr = s.dcsr := by simp [raiseExc]
@[simp] theorem raiseExc_dpc : (raiseExc e v s).dpc = s.dpc := by simp [raiseExc]
@[simp] theorem raiseExc_dscratch0 : (raiseExc e v s).dscratch0 = s.dscratch0 := by simp [raiseExc]
@[simp] theorem raiseExc_dscratch1 : (raiseExc e v s).dscratch1 = s.dscratch1 := by simp [raiseExc]
@[simp] theorem raiseExc_tselect : (raiseExc e v s).tselect = s.tselect := by simp [raiseExc]
@[simp] theorem raiseExc_triggers : (raiseExc e v s).triggers = s.triggers := by simp [raiseExc]
@[simp] theorem raiseExc_tcontrol : (raiseExc e v s).tcontrol = s.tcontrol := by simp [raiseExc]
@[simp] theorem raiseExc_mcontext : (raiseExc e v s).mcontext = s.mcontext := by simp [raiseExc]
@[simp] theorem raiseExc_scontext : (raiseExc e v s).scontext = s.scontext := by simp [raiseExc]
@[simp] theorem raiseExc_cfg : (raiseExc e v s).cfg = s.cfg := by simp [raiseExc]
@[simp] theorem raiseExc_stored : (raiseExc e v s).stored = s.stored := by simp [raiseExc]
@[simp] theorem raiseExc_inputs : (raiseExc e v s).inputs = s.inputs := by simp [raiseExc]
@[simp] theorem raiseExc_draws : (raiseExc e v s).draws = s.draws := by simp [raiseExc]
@[simp] theorem raiseExc_stallDraw : (raiseExc e v s).stallDraw = s.stallDraw := by simp [raiseExc]

end

/-! ### raiseIllegal -/

section

variable (w : InstrWord) (s : State)

@[simp] theorem raiseIllegal_x : (raiseIllegal w s).x = s.x := by simp [raiseIllegal]
@[simp] theorem raiseIllegal_debugMode : (raiseIllegal w s).debugMode = s.debugMode := by simp [raiseIllegal]
@[simp] theorem raiseIllegal_waiting : (raiseIllegal w s).waiting = s.waiting := by simp [raiseIllegal]
@[simp] theorem raiseIllegal_tlb : (raiseIllegal w s).tlb = s.tlb := by simp [raiseIllegal]
@[simp] theorem raiseIllegal_meip : (raiseIllegal w s).meip = s.meip := by simp [raiseIllegal]
@[simp] theorem raiseIllegal_mtip : (raiseIllegal w s).mtip = s.mtip := by simp [raiseIllegal]
@[simp] theorem raiseIllegal_msip : (raiseIllegal w s).msip = s.msip := by simp [raiseIllegal]
@[simp] theorem raiseIllegal_seipExt : (raiseIllegal w s).seipExt = s.seipExt := by simp [raiseIllegal]
@[simp] theorem raiseIllegal_mem : (raiseIllegal w s).mem = s.mem := by simp [raiseIllegal]
@[simp] theorem raiseIllegal_medeleg : (raiseIllegal w s).medeleg = s.medeleg := by simp [raiseIllegal]
@[simp] theorem raiseIllegal_mideleg : (raiseIllegal w s).mideleg = s.mideleg := by simp [raiseIllegal]
@[simp] theorem raiseIllegal_mie : (raiseIllegal w s).mie = s.mie := by simp [raiseIllegal]
@[simp] theorem raiseIllegal_mtvec : (raiseIllegal w s).mtvec = s.mtvec := by simp [raiseIllegal]
@[simp] theorem raiseIllegal_mcounteren : (raiseIllegal w s).mcounteren = s.mcounteren := by simp [raiseIllegal]
@[simp] theorem raiseIllegal_mcountinhibit : (raiseIllegal w s).mcountinhibit = s.mcountinhibit := by simp [raiseIllegal]
@[simp] theorem raiseIllegal_mhpmevent : (raiseIllegal w s).mhpmevent = s.mhpmevent := by simp [raiseIllegal]
@[simp] theorem raiseIllegal_mscratch : (raiseIllegal w s).mscratch = s.mscratch := by simp [raiseIllegal]
@[simp] theorem raiseIllegal_mipSw : (raiseIllegal w s).mipSw = s.mipSw := by simp [raiseIllegal]
@[simp] theorem raiseIllegal_pmpcfg : (raiseIllegal w s).pmpcfg = s.pmpcfg := by simp [raiseIllegal]
@[simp] theorem raiseIllegal_pmpaddr : (raiseIllegal w s).pmpaddr = s.pmpaddr := by simp [raiseIllegal]
@[simp] theorem raiseIllegal_mcycle : (raiseIllegal w s).mcycle = s.mcycle := by simp [raiseIllegal]
@[simp] theorem raiseIllegal_minstret : (raiseIllegal w s).minstret = s.minstret := by simp [raiseIllegal]
@[simp] theorem raiseIllegal_mhpmcounter : (raiseIllegal w s).mhpmcounter = s.mhpmcounter := by simp [raiseIllegal]
@[simp] theorem raiseIllegal_time : (raiseIllegal w s).time = s.time := by simp [raiseIllegal]
@[simp] theorem raiseIllegal_stvec : (raiseIllegal w s).stvec = s.stvec := by simp [raiseIllegal]
@[simp] theorem raiseIllegal_scounteren : (raiseIllegal w s).scounteren = s.scounteren := by simp [raiseIllegal]
@[simp] theorem raiseIllegal_sscratch : (raiseIllegal w s).sscratch = s.sscratch := by simp [raiseIllegal]
@[simp] theorem raiseIllegal_satp : (raiseIllegal w s).satp = s.satp := by simp [raiseIllegal]
@[simp] theorem raiseIllegal_fcsr : (raiseIllegal w s).fcsr = s.fcsr := by simp [raiseIllegal]
@[simp] theorem raiseIllegal_dcsr : (raiseIllegal w s).dcsr = s.dcsr := by simp [raiseIllegal]
@[simp] theorem raiseIllegal_dpc : (raiseIllegal w s).dpc = s.dpc := by simp [raiseIllegal]
@[simp] theorem raiseIllegal_dscratch0 : (raiseIllegal w s).dscratch0 = s.dscratch0 := by simp [raiseIllegal]
@[simp] theorem raiseIllegal_dscratch1 : (raiseIllegal w s).dscratch1 = s.dscratch1 := by simp [raiseIllegal]
@[simp] theorem raiseIllegal_tselect : (raiseIllegal w s).tselect = s.tselect := by simp [raiseIllegal]
@[simp] theorem raiseIllegal_triggers : (raiseIllegal w s).triggers = s.triggers := by simp [raiseIllegal]
@[simp] theorem raiseIllegal_tcontrol : (raiseIllegal w s).tcontrol = s.tcontrol := by simp [raiseIllegal]
@[simp] theorem raiseIllegal_mcontext : (raiseIllegal w s).mcontext = s.mcontext := by simp [raiseIllegal]
@[simp] theorem raiseIllegal_scontext : (raiseIllegal w s).scontext = s.scontext := by simp [raiseIllegal]
@[simp] theorem raiseIllegal_cfg : (raiseIllegal w s).cfg = s.cfg := by simp [raiseIllegal]
@[simp] theorem raiseIllegal_stored : (raiseIllegal w s).stored = s.stored := by simp [raiseIllegal]
@[simp] theorem raiseIllegal_inputs : (raiseIllegal w s).inputs = s.inputs := by simp [raiseIllegal]
@[simp] theorem raiseIllegal_draws : (raiseIllegal w s).draws = s.draws := by simp [raiseIllegal]
@[simp] theorem raiseIllegal_stallDraw : (raiseIllegal w s).stallDraw = s.stallDraw := by simp [raiseIllegal]

end

/-! ### returnFromM -/

section

variable (p : Priv) (s : State)

@[simp] theorem returnFromM_x : (returnFromM p s).x = s.x := rfl
@[simp] theorem returnFromM_debugMode : (returnFromM p s).debugMode = s.debugMode := rfl
@[simp] theorem returnFromM_waiting : (returnFromM p s).waiting = s.waiting := rfl
@[simp] theorem returnFromM_tlb : (returnFromM p s).tlb = s.tlb := rfl
@[simp] theorem returnFromM_meip : (returnFromM p s).meip = s.meip := rfl
@[simp] theorem returnFromM_mtip : (returnFromM p s).mtip = s.mtip := rfl
@[simp] theorem returnFromM_msip : (returnFromM p s).msip = s.msip := rfl
@[simp] theorem returnFromM_seipExt : (returnFromM p s).seipExt = s.seipExt := rfl
@[simp] theorem returnFromM_mem : (returnFromM p s).mem = s.mem := rfl
@[simp] theorem returnFromM_medeleg : (returnFromM p s).medeleg = s.medeleg := rfl
@[simp] theorem returnFromM_mideleg : (returnFromM p s).mideleg = s.mideleg := rfl
@[simp] theorem returnFromM_mie : (returnFromM p s).mie = s.mie := rfl
@[simp] theorem returnFromM_mtvec : (returnFromM p s).mtvec = s.mtvec := rfl
@[simp] theorem returnFromM_mcounteren : (returnFromM p s).mcounteren = s.mcounteren := rfl
@[simp] theorem returnFromM_mcountinhibit : (returnFromM p s).mcountinhibit = s.mcountinhibit := rfl
@[simp] theorem returnFromM_mhpmevent : (returnFromM p s).mhpmevent = s.mhpmevent := rfl
@[simp] theorem returnFromM_mscratch : (returnFromM p s).mscratch = s.mscratch := rfl
@[simp] theorem returnFromM_mepc : (returnFromM p s).mepc = s.mepc := rfl
@[simp] theorem returnFromM_mcause : (returnFromM p s).mcause = s.mcause := rfl
@[simp] theorem returnFromM_mtval : (returnFromM p s).mtval = s.mtval := rfl
@[simp] theorem returnFromM_mipSw : (returnFromM p s).mipSw = s.mipSw := rfl
@[simp] theorem returnFromM_mtinst : (returnFromM p s).mtinst = s.mtinst := rfl
@[simp] theorem returnFromM_mtval2 : (returnFromM p s).mtval2 = s.mtval2 := rfl
@[simp] theorem returnFromM_pmpcfg : (returnFromM p s).pmpcfg = s.pmpcfg := rfl
@[simp] theorem returnFromM_pmpaddr : (returnFromM p s).pmpaddr = s.pmpaddr := rfl
@[simp] theorem returnFromM_mcycle : (returnFromM p s).mcycle = s.mcycle := rfl
@[simp] theorem returnFromM_minstret : (returnFromM p s).minstret = s.minstret := rfl
@[simp] theorem returnFromM_mhpmcounter : (returnFromM p s).mhpmcounter = s.mhpmcounter := rfl
@[simp] theorem returnFromM_time : (returnFromM p s).time = s.time := rfl
@[simp] theorem returnFromM_stvec : (returnFromM p s).stvec = s.stvec := rfl
@[simp] theorem returnFromM_scounteren : (returnFromM p s).scounteren = s.scounteren := rfl
@[simp] theorem returnFromM_sscratch : (returnFromM p s).sscratch = s.sscratch := rfl
@[simp] theorem returnFromM_sepc : (returnFromM p s).sepc = s.sepc := rfl
@[simp] theorem returnFromM_scause : (returnFromM p s).scause = s.scause := rfl
@[simp] theorem returnFromM_stval : (returnFromM p s).stval = s.stval := rfl
@[simp] theorem returnFromM_satp : (returnFromM p s).satp = s.satp := rfl
@[simp] theorem returnFromM_fcsr : (returnFromM p s).fcsr = s.fcsr := rfl
@[simp] theorem returnFromM_dcsr : (returnFromM p s).dcsr = s.dcsr := rfl
@[simp] theorem returnFromM_dpc : (returnFromM p s).dpc = s.dpc := rfl
@[simp] theorem returnFromM_dscratch0 : (returnFromM p s).dscratch0 = s.dscratch0 := rfl
@[simp] theorem returnFromM_dscratch1 : (returnFromM p s).dscratch1 = s.dscratch1 := rfl
@[simp] theorem returnFromM_tselect : (returnFromM p s).tselect = s.tselect := rfl
@[simp] theorem returnFromM_triggers : (returnFromM p s).triggers = s.triggers := rfl
@[simp] theorem returnFromM_tcontrol : (returnFromM p s).tcontrol = s.tcontrol := rfl
@[simp] theorem returnFromM_mcontext : (returnFromM p s).mcontext = s.mcontext := rfl
@[simp] theorem returnFromM_scontext : (returnFromM p s).scontext = s.scontext := rfl
@[simp] theorem returnFromM_cfg : (returnFromM p s).cfg = s.cfg := rfl
@[simp] theorem returnFromM_stored : (returnFromM p s).stored = s.stored := rfl
@[simp] theorem returnFromM_inputs : (returnFromM p s).inputs = s.inputs := rfl
@[simp] theorem returnFromM_draws : (returnFromM p s).draws = s.draws := rfl
@[simp] theorem returnFromM_stallDraw : (returnFromM p s).stallDraw = s.stallDraw := rfl

end

/-! ### returnFromS -/

section

variable (s : State)

@[simp] theorem returnFromS_x : (returnFromS s).x = s.x := rfl
@[simp] theorem returnFromS_debugMode : (returnFromS s).debugMode = s.debugMode := rfl
@[simp] theorem returnFromS_waiting : (returnFromS s).waiting = s.waiting := rfl
@[simp] theorem returnFromS_tlb : (returnFromS s).tlb = s.tlb := rfl
@[simp] theorem returnFromS_meip : (returnFromS s).meip = s.meip := rfl
@[simp] theorem returnFromS_mtip : (returnFromS s).mtip = s.mtip := rfl
@[simp] theorem returnFromS_msip : (returnFromS s).msip = s.msip := rfl
@[simp] theorem returnFromS_seipExt : (returnFromS s).seipExt = s.seipExt := rfl
@[simp] theorem returnFromS_mem : (returnFromS s).mem = s.mem := rfl
@[simp] theorem returnFromS_medeleg : (returnFromS s).medeleg = s.medeleg := rfl
@[simp] theorem returnFromS_mideleg : (returnFromS s).mideleg = s.mideleg := rfl
@[simp] theorem returnFromS_mie : (returnFromS s).mie = s.mie := rfl
@[simp] theorem returnFromS_mtvec : (returnFromS s).mtvec = s.mtvec := rfl
@[simp] theorem returnFromS_mcounteren : (returnFromS s).mcounteren = s.mcounteren := rfl
@[simp] theorem returnFromS_mcountinhibit : (returnFromS s).mcountinhibit = s.mcountinhibit := rfl
@[simp] theorem returnFromS_mhpmevent : (returnFromS s).mhpmevent = s.mhpmevent := rfl
@[simp] theorem returnFromS_mscratch : (returnFromS s).mscratch = s.mscratch := rfl
@[simp] theorem returnFromS_mepc : (returnFromS s).mepc = s.mepc := rfl
@[simp] theorem returnFromS_mcause : (returnFromS s).mcause = s.mcause := rfl
@[simp] theorem returnFromS_mtval : (returnFromS s).mtval = s.mtval := rfl
@[simp] theorem returnFromS_mipSw : (returnFromS s).mipSw = s.mipSw := rfl
@[simp] theorem returnFromS_mtinst : (returnFromS s).mtinst = s.mtinst := rfl
@[simp] theorem returnFromS_mtval2 : (returnFromS s).mtval2 = s.mtval2 := rfl
@[simp] theorem returnFromS_pmpcfg : (returnFromS s).pmpcfg = s.pmpcfg := rfl
@[simp] theorem returnFromS_pmpaddr : (returnFromS s).pmpaddr = s.pmpaddr := rfl
@[simp] theorem returnFromS_mcycle : (returnFromS s).mcycle = s.mcycle := rfl
@[simp] theorem returnFromS_minstret : (returnFromS s).minstret = s.minstret := rfl
@[simp] theorem returnFromS_mhpmcounter : (returnFromS s).mhpmcounter = s.mhpmcounter := rfl
@[simp] theorem returnFromS_time : (returnFromS s).time = s.time := rfl
@[simp] theorem returnFromS_stvec : (returnFromS s).stvec = s.stvec := rfl
@[simp] theorem returnFromS_scounteren : (returnFromS s).scounteren = s.scounteren := rfl
@[simp] theorem returnFromS_sscratch : (returnFromS s).sscratch = s.sscratch := rfl
@[simp] theorem returnFromS_sepc : (returnFromS s).sepc = s.sepc := rfl
@[simp] theorem returnFromS_scause : (returnFromS s).scause = s.scause := rfl
@[simp] theorem returnFromS_stval : (returnFromS s).stval = s.stval := rfl
@[simp] theorem returnFromS_satp : (returnFromS s).satp = s.satp := rfl
@[simp] theorem returnFromS_fcsr : (returnFromS s).fcsr = s.fcsr := rfl
@[simp] theorem returnFromS_dcsr : (returnFromS s).dcsr = s.dcsr := rfl
@[simp] theorem returnFromS_dpc : (returnFromS s).dpc = s.dpc := rfl
@[simp] theorem returnFromS_dscratch0 : (returnFromS s).dscratch0 = s.dscratch0 := rfl
@[simp] theorem returnFromS_dscratch1 : (returnFromS s).dscratch1 = s.dscratch1 := rfl
@[simp] theorem returnFromS_tselect : (returnFromS s).tselect = s.tselect := rfl
@[simp] theorem returnFromS_triggers : (returnFromS s).triggers = s.triggers := rfl
@[simp] theorem returnFromS_tcontrol : (returnFromS s).tcontrol = s.tcontrol := rfl
@[simp] theorem returnFromS_mcontext : (returnFromS s).mcontext = s.mcontext := rfl
@[simp] theorem returnFromS_scontext : (returnFromS s).scontext = s.scontext := rfl
@[simp] theorem returnFromS_cfg : (returnFromS s).cfg = s.cfg := rfl
@[simp] theorem returnFromS_stored : (returnFromS s).stored = s.stored := rfl
@[simp] theorem returnFromS_inputs : (returnFromS s).inputs = s.inputs := rfl
@[simp] theorem returnFromS_draws : (returnFromS s).draws = s.draws := rfl
@[simp] theorem returnFromS_stallDraw : (returnFromS s).stallDraw = s.stallDraw := rfl

end

/-! ### commitStore -/

section

variable (a : Word) (n : Nat) (v : Word) (s : State)

@[simp] theorem commitStore_x : (commitStore a n v s).x = s.x := rfl
@[simp] theorem commitStore_pc : (commitStore a n v s).pc = s.pc := rfl
@[simp] theorem commitStore_priv : (commitStore a n v s).priv = s.priv := rfl
@[simp] theorem commitStore_debugMode : (commitStore a n v s).debugMode = s.debugMode := rfl
@[simp] theorem commitStore_waiting : (commitStore a n v s).waiting = s.waiting := rfl
@[simp] theorem commitStore_tlb : (commitStore a n v s).tlb = s.tlb := rfl
@[simp] theorem commitStore_meip : (commitStore a n v s).meip = s.meip := rfl
@[simp] theorem commitStore_mtip : (commitStore a n v s).mtip = s.mtip := rfl
@[simp] theorem commitStore_msip : (commitStore a n v s).msip = s.msip := rfl
@[simp] theorem commitStore_seipExt : (commitStore a n v s).seipExt = s.seipExt := rfl
@[simp] theorem commitStore_mstatus : (commitStore a n v s).mstatus = s.mstatus := rfl
@[simp] theorem commitStore_medeleg : (commitStore a n v s).medeleg = s.medeleg := rfl
@[simp] theorem commitStore_mideleg : (commitStore a n v s).mideleg = s.mideleg := rfl
@[simp] theorem commitStore_mie : (commitStore a n v s).mie = s.mie := rfl
@[simp] theorem commitStore_mtvec : (commitStore a n v s).mtvec = s.mtvec := rfl
@[simp] theorem commitStore_mcounteren : (commitStore a n v s).mcounteren = s.mcounteren := rfl
@[simp] theorem commitStore_mcountinhibit : (commitStore a n v s).mcountinhibit = s.mcountinhibit := rfl
@[simp] theorem commitStore_mhpmevent : (commitStore a n v s).mhpmevent = s.mhpmevent := rfl
@[simp] theorem commitStore_mscratch : (commitStore a n v s).mscratch = s.mscratch := rfl
@[simp] theorem commitStore_mepc : (commitStore a n v s).mepc = s.mepc := rfl
@[simp] theorem commitStore_mcause : (commitStore a n v s).mcause = s.mcause := rfl
@[simp] theorem commitStore_mtval : (commitStore a n v s).mtval = s.mtval := rfl
@[simp] theorem commitStore_mipSw : (commitStore a n v s).mipSw = s.mipSw := rfl
@[simp] theorem commitStore_mtinst : (commitStore a n v s).mtinst = s.mtinst := rfl
@[simp] theorem commitStore_mtval2 : (commitStore a n v s).mtval2 = s.mtval2 := rfl
@[simp] theorem commitStore_pmpcfg : (commitStore a n v s).pmpcfg = s.pmpcfg := rfl
@[simp] theorem commitStore_pmpaddr : (commitStore a n v s).pmpaddr = s.pmpaddr := rfl
@[simp] theorem commitStore_mcycle : (commitStore a n v s).mcycle = s.mcycle := rfl
@[simp] theorem commitStore_minstret : (commitStore a n v s).minstret = s.minstret := rfl
@[simp] theorem commitStore_mhpmcounter : (commitStore a n v s).mhpmcounter = s.mhpmcounter := rfl
@[simp] theorem commitStore_time : (commitStore a n v s).time = s.time := rfl
@[simp] theorem commitStore_stvec : (commitStore a n v s).stvec = s.stvec := rfl
@[simp] theorem commitStore_scounteren : (commitStore a n v s).scounteren = s.scounteren := rfl
@[simp] theorem commitStore_sscratch : (commitStore a n v s).sscratch = s.sscratch := rfl
@[simp] theorem commitStore_sepc : (commitStore a n v s).sepc = s.sepc := rfl
@[simp] theorem commitStore_scause : (commitStore a n v s).scause = s.scause := rfl
@[simp] theorem commitStore_stval : (commitStore a n v s).stval = s.stval := rfl
@[simp] theorem commitStore_satp : (commitStore a n v s).satp = s.satp := rfl
@[simp] theorem commitStore_fcsr : (commitStore a n v s).fcsr = s.fcsr := rfl
@[simp] theorem commitStore_dcsr : (commitStore a n v s).dcsr = s.dcsr := rfl
@[simp] theorem commitStore_dpc : (commitStore a n v s).dpc = s.dpc := rfl
@[simp] theorem commitStore_dscratch0 : (commitStore a n v s).dscratch0 = s.dscratch0 := rfl
@[simp] theorem commitStore_dscratch1 : (commitStore a n v s).dscratch1 = s.dscratch1 := rfl
@[simp] theorem commitStore_tselect : (commitStore a n v s).tselect = s.tselect := rfl
@[simp] theorem commitStore_triggers : (commitStore a n v s).triggers = s.triggers := rfl
@[simp] theorem commitStore_tcontrol : (commitStore a n v s).tcontrol = s.tcontrol := rfl
@[simp] theorem commitStore_mcontext : (commitStore a n v s).mcontext = s.mcontext := rfl
@[simp] theorem commitStore_scontext : (commitStore a n v s).scontext = s.scontext := rfl
@[simp] theorem commitStore_cfg : (commitStore a n v s).cfg = s.cfg := rfl
@[simp] theorem commitStore_inputs : (commitStore a n v s).inputs = s.inputs := rfl
@[simp] theorem commitStore_draws : (commitStore a n v s).draws = s.draws := rfl
@[simp] theorem commitStore_stallDraw : (commitStore a n v s).stallDraw = s.stallDraw := rfl

end

/-! ### flushTlb -/

section

variable (r1 r2 : Reg) (s : State)

@[simp] theorem flushTlb_x : (flushTlb r1 r2 s).x = s.x := rfl
@[simp] theorem flushTlb_pc : (flushTlb r1 r2 s).pc = s.pc := rfl
@[simp] theorem flushTlb_priv : (flushTlb r1 r2 s).priv = s.priv := rfl
@[simp] theorem flushTlb_debugMode : (flushTlb r1 r2 s).debugMode = s.debugMode := rfl
@[simp] theorem flushTlb_waiting : (flushTlb r1 r2 s).waiting = s.waiting := rfl
@[simp] theorem flushTlb_meip : (flushTlb r1 r2 s).meip = s.meip := rfl
@[simp] theorem flushTlb_mtip : (flushTlb r1 r2 s).mtip = s.mtip := rfl
@[simp] theorem flushTlb_msip : (flushTlb r1 r2 s).msip = s.msip := rfl
@[simp] theorem flushTlb_seipExt : (flushTlb r1 r2 s).seipExt = s.seipExt := rfl
@[simp] theorem flushTlb_mem : (flushTlb r1 r2 s).mem = s.mem := rfl
@[simp] theorem flushTlb_mstatus : (flushTlb r1 r2 s).mstatus = s.mstatus := rfl
@[simp] theorem flushTlb_medeleg : (flushTlb r1 r2 s).medeleg = s.medeleg := rfl
@[simp] theorem flushTlb_mideleg : (flushTlb r1 r2 s).mideleg = s.mideleg := rfl
@[simp] theorem flushTlb_mie : (flushTlb r1 r2 s).mie = s.mie := rfl
@[simp] theorem flushTlb_mtvec : (flushTlb r1 r2 s).mtvec = s.mtvec := rfl
@[simp] theorem flushTlb_mcounteren : (flushTlb r1 r2 s).mcounteren = s.mcounteren := rfl
@[simp] theorem flushTlb_mcountinhibit : (flushTlb r1 r2 s).mcountinhibit = s.mcountinhibit := rfl
@[simp] theorem flushTlb_mhpmevent : (flushTlb r1 r2 s).mhpmevent = s.mhpmevent := rfl
@[simp] theorem flushTlb_mscratch : (flushTlb r1 r2 s).mscratch = s.mscratch := rfl
@[simp] theorem flushTlb_mepc : (flushTlb r1 r2 s).mepc = s.mepc := rfl
@[simp] theorem flushTlb_mcause : (flushTlb r1 r2 s).mcause = s.mcause := rfl
@[simp] theorem flushTlb_mtval : (flushTlb r1 r2 s).mtval = s.mtval := rfl
@[simp] theorem flushTlb_mipSw : (flushTlb r1 r2 s).mipSw = s.mipSw := rfl
@[simp] theorem flushTlb_mtinst : (flushTlb r1 r2 s).mtinst = s.mtinst := rfl
@[simp] theorem flushTlb_mtval2 : (flushTlb r1 r2 s).mtval2 = s.mtval2 := rfl
@[simp] theorem flushTlb_pmpcfg : (flushTlb r1 r2 s).pmpcfg = s.pmpcfg := rfl
@[simp] theorem flushTlb_pmpaddr : (flushTlb r1 r2 s).pmpaddr = s.pmpaddr := rfl
@[simp] theorem flushTlb_mcycle : (flushTlb r1 r2 s).mcycle = s.mcycle := rfl
@[simp] theorem flushTlb_minstret : (flushTlb r1 r2 s).minstret = s.minstret := rfl
@[simp] theorem flushTlb_mhpmcounter : (flushTlb r1 r2 s).mhpmcounter = s.mhpmcounter := rfl
@[simp] theorem flushTlb_time : (flushTlb r1 r2 s).time = s.time := rfl
@[simp] theorem flushTlb_stvec : (flushTlb r1 r2 s).stvec = s.stvec := rfl
@[simp] theorem flushTlb_scounteren : (flushTlb r1 r2 s).scounteren = s.scounteren := rfl
@[simp] theorem flushTlb_sscratch : (flushTlb r1 r2 s).sscratch = s.sscratch := rfl
@[simp] theorem flushTlb_sepc : (flushTlb r1 r2 s).sepc = s.sepc := rfl
@[simp] theorem flushTlb_scause : (flushTlb r1 r2 s).scause = s.scause := rfl
@[simp] theorem flushTlb_stval : (flushTlb r1 r2 s).stval = s.stval := rfl
@[simp] theorem flushTlb_satp : (flushTlb r1 r2 s).satp = s.satp := rfl
@[simp] theorem flushTlb_fcsr : (flushTlb r1 r2 s).fcsr = s.fcsr := rfl
@[simp] theorem flushTlb_dcsr : (flushTlb r1 r2 s).dcsr = s.dcsr := rfl
@[simp] theorem flushTlb_dpc : (flushTlb r1 r2 s).dpc = s.dpc := rfl
@[simp] theorem flushTlb_dscratch0 : (flushTlb r1 r2 s).dscratch0 = s.dscratch0 := rfl
@[simp] theorem flushTlb_dscratch1 : (flushTlb r1 r2 s).dscratch1 = s.dscratch1 := rfl
@[simp] theorem flushTlb_tselect : (flushTlb r1 r2 s).tselect = s.tselect := rfl
@[simp] theorem flushTlb_triggers : (flushTlb r1 r2 s).triggers = s.triggers := rfl
@[simp] theorem flushTlb_tcontrol : (flushTlb r1 r2 s).tcontrol = s.tcontrol := rfl
@[simp] theorem flushTlb_mcontext : (flushTlb r1 r2 s).mcontext = s.mcontext := rfl
@[simp] theorem flushTlb_scontext : (flushTlb r1 r2 s).scontext = s.scontext := rfl
@[simp] theorem flushTlb_cfg : (flushTlb r1 r2 s).cfg = s.cfg := rfl
@[simp] theorem flushTlb_stored : (flushTlb r1 r2 s).stored = s.stored := rfl
@[simp] theorem flushTlb_inputs : (flushTlb r1 r2 s).inputs = s.inputs := rfl
@[simp] theorem flushTlb_draws : (flushTlb r1 r2 s).draws = s.draws := rfl
@[simp] theorem flushTlb_stallDraw : (flushTlb r1 r2 s).stallDraw = s.stallDraw := rfl

end

/-! ### writeFcsr -/

section

variable (s : State) (v : BitVec 8)

@[simp] theorem writeFcsr_x : (writeFcsr s v).x = s.x := rfl
@[simp] theorem writeFcsr_pc : (writeFcsr s v).pc = s.pc := rfl
@[simp] theorem writeFcsr_priv : (writeFcsr s v).priv = s.priv := rfl
@[simp] theorem writeFcsr_debugMode : (writeFcsr s v).debugMode = s.debugMode := rfl
@[simp] theorem writeFcsr_waiting : (writeFcsr s v).waiting = s.waiting := rfl
@[simp] theorem writeFcsr_tlb : (writeFcsr s v).tlb = s.tlb := rfl
@[simp] theorem writeFcsr_meip : (writeFcsr s v).meip = s.meip := rfl
@[simp] theorem writeFcsr_mtip : (writeFcsr s v).mtip = s.mtip := rfl
@[simp] theorem writeFcsr_msip : (writeFcsr s v).msip = s.msip := rfl
@[simp] theorem writeFcsr_seipExt : (writeFcsr s v).seipExt = s.seipExt := rfl
@[simp] theorem writeFcsr_mem : (writeFcsr s v).mem = s.mem := rfl
@[simp] theorem writeFcsr_medeleg : (writeFcsr s v).medeleg = s.medeleg := rfl
@[simp] theorem writeFcsr_mideleg : (writeFcsr s v).mideleg = s.mideleg := rfl
@[simp] theorem writeFcsr_mie : (writeFcsr s v).mie = s.mie := rfl
@[simp] theorem writeFcsr_mtvec : (writeFcsr s v).mtvec = s.mtvec := rfl
@[simp] theorem writeFcsr_mcounteren : (writeFcsr s v).mcounteren = s.mcounteren := rfl
@[simp] theorem writeFcsr_mcountinhibit : (writeFcsr s v).mcountinhibit = s.mcountinhibit := rfl
@[simp] theorem writeFcsr_mhpmevent : (writeFcsr s v).mhpmevent = s.mhpmevent := rfl
@[simp] theorem writeFcsr_mscratch : (writeFcsr s v).mscratch = s.mscratch := rfl
@[simp] theorem writeFcsr_mepc : (writeFcsr s v).mepc = s.mepc := rfl
@[simp] theorem writeFcsr_mcause : (writeFcsr s v).mcause = s.mcause := rfl
@[simp] theorem writeFcsr_mtval : (writeFcsr s v).mtval = s.mtval := rfl
@[simp] theorem writeFcsr_mipSw : (writeFcsr s v).mipSw = s.mipSw := rfl
@[simp] theorem writeFcsr_mtinst : (writeFcsr s v).mtinst = s.mtinst := rfl
@[simp] theorem writeFcsr_mtval2 : (writeFcsr s v).mtval2 = s.mtval2 := rfl
@[simp] theorem writeFcsr_pmpcfg : (writeFcsr s v).pmpcfg = s.pmpcfg := rfl
@[simp] theorem writeFcsr_pmpaddr : (writeFcsr s v).pmpaddr = s.pmpaddr := rfl
@[simp] theorem writeFcsr_mcycle : (writeFcsr s v).mcycle = s.mcycle := rfl
@[simp] theorem writeFcsr_minstret : (writeFcsr s v).minstret = s.minstret := rfl
@[simp] theorem writeFcsr_mhpmcounter : (writeFcsr s v).mhpmcounter = s.mhpmcounter := rfl
@[simp] theorem writeFcsr_time : (writeFcsr s v).time = s.time := rfl
@[simp] theorem writeFcsr_stvec : (writeFcsr s v).stvec = s.stvec := rfl
@[simp] theorem writeFcsr_scounteren : (writeFcsr s v).scounteren = s.scounteren := rfl
@[simp] theorem writeFcsr_sscratch : (writeFcsr s v).sscratch = s.sscratch := rfl
@[simp] theorem writeFcsr_sepc : (writeFcsr s v).sepc = s.sepc := rfl
@[simp] theorem writeFcsr_scause : (writeFcsr s v).scause = s.scause := rfl
@[simp] theorem writeFcsr_stval : (writeFcsr s v).stval = s.stval := rfl
@[simp] theorem writeFcsr_satp : (writeFcsr s v).satp = s.satp := rfl
@[simp] theorem writeFcsr_dcsr : (writeFcsr s v).dcsr = s.dcsr := rfl
@[simp] theorem writeFcsr_dpc : (writeFcsr s v).dpc = s.dpc := rfl
@[simp] theorem writeFcsr_dscratch0 : (writeFcsr s v).dscratch0 = s.dscratch0 := rfl
@[simp] theorem writeFcsr_dscratch1 : (writeFcsr s v).dscratch1 = s.dscratch1 := rfl
@[simp] theorem writeFcsr_tselect : (writeFcsr s v).tselect = s.tselect := rfl
@[simp] theorem writeFcsr_triggers : (writeFcsr s v).triggers = s.triggers := rfl
@[simp] theorem writeFcsr_tcontrol : (writeFcsr s v).tcontrol = s.tcontrol := rfl
@[simp] theorem writeFcsr_mcontext : (writeFcsr s v).mcontext = s.mcontext := rfl
@[simp] theorem writeFcsr_scontext : (writeFcsr s v).scontext = s.scontext := rfl
@[simp] theorem writeFcsr_cfg : (writeFcsr s v).cfg = s.cfg := rfl
@[simp] theorem writeFcsr_stored : (writeFcsr s v).stored = s.stored := rfl
@[simp] theorem writeFcsr_inputs : (writeFcsr s v).inputs = s.inputs := rfl
@[simp] theorem writeFcsr_draws : (writeFcsr s v).draws = s.draws := rfl
@[simp] theorem writeFcsr_stallDraw : (writeFcsr s v).stallDraw = s.stallDraw := rfl

end

/-! ### setTrigger -/

section

variable (s : State) (t : Trigger)

@[simp] theorem setTrigger_x : (setTrigger s t).x = s.x := rfl
@[simp] theorem setTrigger_pc : (setTrigger s t).pc = s.pc := rfl
@[simp] theorem setTrigger_priv : (setTrigger s t).priv = s.priv := rfl
@[simp] theorem setTrigger_debugMode : (setTrigger s t).debugMode = s.debugMode := rfl
@[simp] theorem setTrigger_waiting : (setTrigger s t).waiting = s.waiting := rfl
@[simp] theorem setTrigger_tlb : (setTrigger s t).tlb = s.tlb := rfl
@[simp] theorem setTrigger_meip : (setTrigger s t).meip = s.meip := rfl
@[simp] theorem setTrigger_mtip : (setTrigger s t).mtip = s.mtip := rfl
@[simp] theorem setTrigger_msip : (setTrigger s t).msip = s.msip := rfl
@[simp] theorem setTrigger_seipExt : (setTrigger s t).seipExt = s.seipExt := rfl
@[simp] theorem setTrigger_mem : (setTrigger s t).mem = s.mem := rfl
@[simp] theorem setTrigger_mstatus : (setTrigger s t).mstatus = s.mstatus := rfl
@[simp] theorem setTrigger_medeleg : (setTrigger s t).medeleg = s.medeleg := rfl
@[simp] theorem setTrigger_mideleg : (setTrigger s t).mideleg = s.mideleg := rfl
@[simp] theorem setTrigger_mie : (setTrigger s t).mie = s.mie := rfl
@[simp] theorem setTrigger_mtvec : (setTrigger s t).mtvec = s.mtvec := rfl
@[simp] theorem setTrigger_mcounteren : (setTrigger s t).mcounteren = s.mcounteren := rfl
@[simp] theorem setTrigger_mcountinhibit : (setTrigger s t).mcountinhibit = s.mcountinhibit := rfl
@[simp] theorem setTrigger_mhpmevent : (setTrigger s t).mhpmevent = s.mhpmevent := rfl
@[simp] theorem setTrigger_mscratch : (setTrigger s t).mscratch = s.mscratch := rfl
@[simp] theorem setTrigger_mepc : (setTrigger s t).mepc = s.mepc := rfl
@[simp] theorem setTrigger_mcause : (setTrigger s t).mcause = s.mcause := rfl
@[simp] theorem setTrigger_mtval : (setTrigger s t).mtval = s.mtval := rfl
@[simp] theorem setTrigger_mipSw : (setTrigger s t).mipSw = s.mipSw := rfl
@[simp] theorem setTrigger_mtinst : (setTrigger s t).mtinst = s.mtinst := rfl
@[simp] theorem setTrigger_mtval2 : (setTrigger s t).mtval2 = s.mtval2 := rfl
@[simp] theorem setTrigger_pmpcfg : (setTrigger s t).pmpcfg = s.pmpcfg := rfl
@[simp] theorem setTrigger_pmpaddr : (setTrigger s t).pmpaddr = s.pmpaddr := rfl
@[simp] theorem setTrigger_mcycle : (setTrigger s t).mcycle = s.mcycle := rfl
@[simp] theorem setTrigger_minstret : (setTrigger s t).minstret = s.minstret := rfl
@[simp] theorem setTrigger_mhpmcounter : (setTrigger s t).mhpmcounter = s.mhpmcounter := rfl
@[simp] theorem setTrigger_time : (setTrigger s t).time = s.time := rfl
@[simp] theorem setTrigger_stvec : (setTrigger s t).stvec = s.stvec := rfl
@[simp] theorem setTrigger_scounteren : (setTrigger s t).scounteren = s.scounteren := rfl
@[simp] theorem setTrigger_sscratch : (setTrigger s t).sscratch = s.sscratch := rfl
@[simp] theorem setTrigger_sepc : (setTrigger s t).sepc = s.sepc := rfl
@[simp] theorem setTrigger_scause : (setTrigger s t).scause = s.scause := rfl
@[simp] theorem setTrigger_stval : (setTrigger s t).stval = s.stval := rfl
@[simp] theorem setTrigger_satp : (setTrigger s t).satp = s.satp := rfl
@[simp] theorem setTrigger_fcsr : (setTrigger s t).fcsr = s.fcsr := rfl
@[simp] theorem setTrigger_dcsr : (setTrigger s t).dcsr = s.dcsr := rfl
@[simp] theorem setTrigger_dpc : (setTrigger s t).dpc = s.dpc := rfl
@[simp] theorem setTrigger_dscratch0 : (setTrigger s t).dscratch0 = s.dscratch0 := rfl
@[simp] theorem setTrigger_dscratch1 : (setTrigger s t).dscratch1 = s.dscratch1 := rfl
@[simp] theorem setTrigger_tselect : (setTrigger s t).tselect = s.tselect := rfl
@[simp] theorem setTrigger_tcontrol : (setTrigger s t).tcontrol = s.tcontrol := rfl
@[simp] theorem setTrigger_mcontext : (setTrigger s t).mcontext = s.mcontext := rfl
@[simp] theorem setTrigger_scontext : (setTrigger s t).scontext = s.scontext := rfl
@[simp] theorem setTrigger_cfg : (setTrigger s t).cfg = s.cfg := rfl
@[simp] theorem setTrigger_stored : (setTrigger s t).stored = s.stored := rfl
@[simp] theorem setTrigger_inputs : (setTrigger s t).inputs = s.inputs := rfl
@[simp] theorem setTrigger_draws : (setTrigger s t).draws = s.draws := rfl
@[simp] theorem setTrigger_stallDraw : (setTrigger s t).stallDraw = s.stallDraw := rfl

end

/-! ### moveAgents -/

section

variable (s : State)

@[simp] theorem moveAgents_x : (moveAgents s).x = s.x := rfl
@[simp] theorem moveAgents_pc : (moveAgents s).pc = s.pc := rfl
@[simp] theorem moveAgents_priv : (moveAgents s).priv = s.priv := rfl
@[simp] theorem moveAgents_debugMode : (moveAgents s).debugMode = s.debugMode := rfl
@[simp] theorem moveAgents_waiting : (moveAgents s).waiting = s.waiting := rfl
@[simp] theorem moveAgents_tlb : (moveAgents s).tlb = s.tlb := rfl
@[simp] theorem moveAgents_mem : (moveAgents s).mem = s.mem := rfl
@[simp] theorem moveAgents_mstatus : (moveAgents s).mstatus = s.mstatus := rfl
@[simp] theorem moveAgents_medeleg : (moveAgents s).medeleg = s.medeleg := rfl
@[simp] theorem moveAgents_mideleg : (moveAgents s).mideleg = s.mideleg := rfl
@[simp] theorem moveAgents_mie : (moveAgents s).mie = s.mie := rfl
@[simp] theorem moveAgents_mtvec : (moveAgents s).mtvec = s.mtvec := rfl
@[simp] theorem moveAgents_mcounteren : (moveAgents s).mcounteren = s.mcounteren := rfl
@[simp] theorem moveAgents_mcountinhibit : (moveAgents s).mcountinhibit = s.mcountinhibit := rfl
@[simp] theorem moveAgents_mhpmevent : (moveAgents s).mhpmevent = s.mhpmevent := rfl
@[simp] theorem moveAgents_mscratch : (moveAgents s).mscratch = s.mscratch := rfl
@[simp] theorem moveAgents_mepc : (moveAgents s).mepc = s.mepc := rfl
@[simp] theorem moveAgents_mcause : (moveAgents s).mcause = s.mcause := rfl
@[simp] theorem moveAgents_mtval : (moveAgents s).mtval = s.mtval := rfl
@[simp] theorem moveAgents_mipSw : (moveAgents s).mipSw = s.mipSw := rfl
@[simp] theorem moveAgents_mtinst : (moveAgents s).mtinst = s.mtinst := rfl
@[simp] theorem moveAgents_mtval2 : (moveAgents s).mtval2 = s.mtval2 := rfl
@[simp] theorem moveAgents_pmpcfg : (moveAgents s).pmpcfg = s.pmpcfg := rfl
@[simp] theorem moveAgents_pmpaddr : (moveAgents s).pmpaddr = s.pmpaddr := rfl
@[simp] theorem moveAgents_minstret : (moveAgents s).minstret = s.minstret := rfl
@[simp] theorem moveAgents_stvec : (moveAgents s).stvec = s.stvec := rfl
@[simp] theorem moveAgents_scounteren : (moveAgents s).scounteren = s.scounteren := rfl
@[simp] theorem moveAgents_sscratch : (moveAgents s).sscratch = s.sscratch := rfl
@[simp] theorem moveAgents_sepc : (moveAgents s).sepc = s.sepc := rfl
@[simp] theorem moveAgents_scause : (moveAgents s).scause = s.scause := rfl
@[simp] theorem moveAgents_stval : (moveAgents s).stval = s.stval := rfl
@[simp] theorem moveAgents_satp : (moveAgents s).satp = s.satp := rfl
@[simp] theorem moveAgents_fcsr : (moveAgents s).fcsr = s.fcsr := rfl
@[simp] theorem moveAgents_dcsr : (moveAgents s).dcsr = s.dcsr := rfl
@[simp] theorem moveAgents_dpc : (moveAgents s).dpc = s.dpc := rfl
@[simp] theorem moveAgents_dscratch0 : (moveAgents s).dscratch0 = s.dscratch0 := rfl
@[simp] theorem moveAgents_dscratch1 : (moveAgents s).dscratch1 = s.dscratch1 := rfl
@[simp] theorem moveAgents_tselect : (moveAgents s).tselect = s.tselect := rfl
@[simp] theorem moveAgents_triggers : (moveAgents s).triggers = s.triggers := rfl
@[simp] theorem moveAgents_tcontrol : (moveAgents s).tcontrol = s.tcontrol := rfl
@[simp] theorem moveAgents_mcontext : (moveAgents s).mcontext = s.mcontext := rfl
@[simp] theorem moveAgents_scontext : (moveAgents s).scontext = s.scontext := rfl
@[simp] theorem moveAgents_cfg : (moveAgents s).cfg = s.cfg := rfl
@[simp] theorem moveAgents_stored : (moveAgents s).stored = s.stored := rfl

end

/-! ### wake -/

section

variable (s : State)

@[simp] theorem wake_x : (wake s).x = s.x := by unfold wake; split <;> rfl
@[simp] theorem wake_pc : (wake s).pc = s.pc := by unfold wake; split <;> rfl
@[simp] theorem wake_priv : (wake s).priv = s.priv := by unfold wake; split <;> rfl
@[simp] theorem wake_debugMode : (wake s).debugMode = s.debugMode := by unfold wake; split <;> rfl
@[simp] theorem wake_tlb : (wake s).tlb = s.tlb := by unfold wake; split <;> rfl
@[simp] theorem wake_meip : (wake s).meip = s.meip := by unfold wake; split <;> rfl
@[simp] theorem wake_mtip : (wake s).mtip = s.mtip := by unfold wake; split <;> rfl
@[simp] theorem wake_msip : (wake s).msip = s.msip := by unfold wake; split <;> rfl
@[simp] theorem wake_seipExt : (wake s).seipExt = s.seipExt := by unfold wake; split <;> rfl
@[simp] theorem wake_mem : (wake s).mem = s.mem := by unfold wake; split <;> rfl
@[simp] theorem wake_mstatus : (wake s).mstatus = s.mstatus := by unfold wake; split <;> rfl
@[simp] theorem wake_medeleg : (wake s).medeleg = s.medeleg := by unfold wake; split <;> rfl
@[simp] theorem wake_mideleg : (wake s).mideleg = s.mideleg := by unfold wake; split <;> rfl
@[simp] theorem wake_mie : (wake s).mie = s.mie := by unfold wake; split <;> rfl
@[simp] theorem wake_mtvec : (wake s).mtvec = s.mtvec := by unfold wake; split <;> rfl
@[simp] theorem wake_mcounteren : (wake s).mcounteren = s.mcounteren := by unfold wake; split <;> rfl
@[simp] theorem wake_mcountinhibit : (wake s).mcountinhibit = s.mcountinhibit := by unfold wake; split <;> rfl
@[simp] theorem wake_mhpmevent : (wake s).mhpmevent = s.mhpmevent := by unfold wake; split <;> rfl
@[simp] theorem wake_mscratch : (wake s).mscratch = s.mscratch := by unfold wake; split <;> rfl
@[simp] theorem wake_mepc : (wake s).mepc = s.mepc := by unfold wake; split <;> rfl
@[simp] theorem wake_mcause : (wake s).mcause = s.mcause := by unfold wake; split <;> rfl
@[simp] theorem wake_mtval : (wake s).mtval = s.mtval := by unfold wake; split <;> rfl
@[simp] theorem wake_mipSw : (wake s).mipSw = s.mipSw := by unfold wake; split <;> rfl
@[simp] theorem wake_mtinst : (wake s).mtinst = s.mtinst := by unfold wake; split <;> rfl
@[simp] theorem wake_mtval2 : (wake s).mtval2 = s.mtval2 := by unfold wake; split <;> rfl
@[simp] theorem wake_pmpcfg : (wake s).pmpcfg = s.pmpcfg := by unfold wake; split <;> rfl
@[simp] theorem wake_pmpaddr : (wake s).pmpaddr = s.pmpaddr := by unfold wake; split <;> rfl
@[simp] theorem wake_mcycle : (wake s).mcycle = s.mcycle := by unfold wake; split <;> rfl
@[simp] theorem wake_minstret : (wake s).minstret = s.minstret := by unfold wake; split <;> rfl
@[simp] theorem wake_mhpmcounter : (wake s).mhpmcounter = s.mhpmcounter := by unfold wake; split <;> rfl
@[simp] theorem wake_time : (wake s).time = s.time := by unfold wake; split <;> rfl
@[simp] theorem wake_stvec : (wake s).stvec = s.stvec := by unfold wake; split <;> rfl
@[simp] theorem wake_scounteren : (wake s).scounteren = s.scounteren := by unfold wake; split <;> rfl
@[simp] theorem wake_sscratch : (wake s).sscratch = s.sscratch := by unfold wake; split <;> rfl
@[simp] theorem wake_sepc : (wake s).sepc = s.sepc := by unfold wake; split <;> rfl
@[simp] theorem wake_scause : (wake s).scause = s.scause := by unfold wake; split <;> rfl
@[simp] theorem wake_stval : (wake s).stval = s.stval := by unfold wake; split <;> rfl
@[simp] theorem wake_satp : (wake s).satp = s.satp := by unfold wake; split <;> rfl
@[simp] theorem wake_fcsr : (wake s).fcsr = s.fcsr := by unfold wake; split <;> rfl
@[simp] theorem wake_dcsr : (wake s).dcsr = s.dcsr := by unfold wake; split <;> rfl
@[simp] theorem wake_dpc : (wake s).dpc = s.dpc := by unfold wake; split <;> rfl
@[simp] theorem wake_dscratch0 : (wake s).dscratch0 = s.dscratch0 := by unfold wake; split <;> rfl
@[simp] theorem wake_dscratch1 : (wake s).dscratch1 = s.dscratch1 := by unfold wake; split <;> rfl
@[simp] theorem wake_tselect : (wake s).tselect = s.tselect := by unfold wake; split <;> rfl
@[simp] theorem wake_triggers : (wake s).triggers = s.triggers := by unfold wake; split <;> rfl
@[simp] theorem wake_tcontrol : (wake s).tcontrol = s.tcontrol := by unfold wake; split <;> rfl
@[simp] theorem wake_mcontext : (wake s).mcontext = s.mcontext := by unfold wake; split <;> rfl
@[simp] theorem wake_scontext : (wake s).scontext = s.scontext := by unfold wake; split <;> rfl
@[simp] theorem wake_cfg : (wake s).cfg = s.cfg := by unfold wake; split <;> rfl
@[simp] theorem wake_stored : (wake s).stored = s.stored := by unfold wake; split <;> rfl
@[simp] theorem wake_inputs : (wake s).inputs = s.inputs := by unfold wake; split <;> rfl
@[simp] theorem wake_draws : (wake s).draws = s.draws := by unfold wake; split <;> rfl
@[simp] theorem wake_stallDraw : (wake s).stallDraw = s.stallDraw := by unfold wake; split <;> rfl

end

/-! ### loadWordAtPc -/

section

variable (s : State) (w : InstrWord)

@[simp] theorem loadWordAtPc_x : (loadWordAtPc s w).x = s.x := rfl
@[simp] theorem loadWordAtPc_pc : (loadWordAtPc s w).pc = s.pc := rfl
@[simp] theorem loadWordAtPc_priv : (loadWordAtPc s w).priv = s.priv := rfl
@[simp] theorem loadWordAtPc_debugMode : (loadWordAtPc s w).debugMode = s.debugMode := rfl
@[simp] theorem loadWordAtPc_waiting : (loadWordAtPc s w).waiting = s.waiting := rfl
@[simp] theorem loadWordAtPc_tlb : (loadWordAtPc s w).tlb = s.tlb := rfl
@[simp] theorem loadWordAtPc_meip : (loadWordAtPc s w).meip = s.meip := rfl
@[simp] theorem loadWordAtPc_mtip : (loadWordAtPc s w).mtip = s.mtip := rfl
@[simp] theorem loadWordAtPc_msip : (loadWordAtPc s w).msip = s.msip := rfl
@[simp] theorem loadWordAtPc_seipExt : (loadWordAtPc s w).seipExt = s.seipExt := rfl
@[simp] theorem loadWordAtPc_mstatus : (loadWordAtPc s w).mstatus = s.mstatus := rfl
@[simp] theorem loadWordAtPc_medeleg : (loadWordAtPc s w).medeleg = s.medeleg := rfl
@[simp] theorem loadWordAtPc_mideleg : (loadWordAtPc s w).mideleg = s.mideleg := rfl
@[simp] theorem loadWordAtPc_mie : (loadWordAtPc s w).mie = s.mie := rfl
@[simp] theorem loadWordAtPc_mtvec : (loadWordAtPc s w).mtvec = s.mtvec := rfl
@[simp] theorem loadWordAtPc_mcounteren : (loadWordAtPc s w).mcounteren = s.mcounteren := rfl
@[simp] theorem loadWordAtPc_mcountinhibit : (loadWordAtPc s w).mcountinhibit = s.mcountinhibit := rfl
@[simp] theorem loadWordAtPc_mhpmevent : (loadWordAtPc s w).mhpmevent = s.mhpmevent := rfl
@[simp] theorem loadWordAtPc_mscratch : (loadWordAtPc s w).mscratch = s.mscratch := rfl
@[simp] theorem loadWordAtPc_mepc : (loadWordAtPc s w).mepc = s.mepc := rfl
@[simp] theorem loadWordAtPc_mcause : (loadWordAtPc s w).mcause = s.mcause := rfl
@[simp] theorem loadWordAtPc_mtval : (loadWordAtPc s w).mtval = s.mtval := rfl
@[simp] theorem loadWordAtPc_mipSw : (loadWordAtPc s w).mipSw = s.mipSw := rfl
@[simp] theorem loadWordAtPc_mtinst : (loadWordAtPc s w).mtinst = s.mtinst := rfl
@[simp] theorem loadWordAtPc_mtval2 : (loadWordAtPc s w).mtval2 = s.mtval2 := rfl
@[simp] theorem loadWordAtPc_pmpcfg : (loadWordAtPc s w).pmpcfg = s.pmpcfg := rfl
@[simp] theorem loadWordAtPc_pmpaddr : (loadWordAtPc s w).pmpaddr = s.pmpaddr := rfl
@[simp] theorem loadWordAtPc_mcycle : (loadWordAtPc s w).mcycle = s.mcycle := rfl
@[simp] theorem loadWordAtPc_minstret : (loadWordAtPc s w).minstret = s.minstret := rfl
@[simp] theorem loadWordAtPc_mhpmcounter : (loadWordAtPc s w).mhpmcounter = s.mhpmcounter := rfl
@[simp] theorem loadWordAtPc_time : (loadWordAtPc s w).time = s.time := rfl
@[simp] theorem loadWordAtPc_stvec : (loadWordAtPc s w).stvec = s.stvec := rfl
@[simp] theorem loadWordAtPc_scounteren : (loadWordAtPc s w).scounteren = s.scounteren := rfl
@[simp] theorem loadWordAtPc_sscratch : (loadWordAtPc s w).sscratch = s.sscratch := rfl
@[simp] theorem loadWordAtPc_sepc : (loadWordAtPc s w).sepc = s.sepc := rfl
@[simp] theorem loadWordAtPc_scause : (loadWordAtPc s w).scause = s.scause := rfl
@[simp] theorem loadWordAtPc_stval : (loadWordAtPc s w).stval = s.stval := rfl
@[simp] theorem loadWordAtPc_satp : (loadWordAtPc s w).satp = s.satp := rfl
@[simp] theorem loadWordAtPc_fcsr : (loadWordAtPc s w).fcsr = s.fcsr := rfl
@[simp] theorem loadWordAtPc_dcsr : (loadWordAtPc s w).dcsr = s.dcsr := rfl
@[simp] theorem loadWordAtPc_dpc : (loadWordAtPc s w).dpc = s.dpc := rfl
@[simp] theorem loadWordAtPc_dscratch0 : (loadWordAtPc s w).dscratch0 = s.dscratch0 := rfl
@[simp] theorem loadWordAtPc_dscratch1 : (loadWordAtPc s w).dscratch1 = s.dscratch1 := rfl
@[simp] theorem loadWordAtPc_tselect : (loadWordAtPc s w).tselect = s.tselect := rfl
@[simp] theorem loadWordAtPc_triggers : (loadWordAtPc s w).triggers = s.triggers := rfl
@[simp] theorem loadWordAtPc_tcontrol : (loadWordAtPc s w).tcontrol = s.tcontrol := rfl
@[simp] theorem loadWordAtPc_mcontext : (loadWordAtPc s w).mcontext = s.mcontext := rfl
@[simp] theorem loadWordAtPc_scontext : (loadWordAtPc s w).scontext = s.scontext := rfl
@[simp] theorem loadWordAtPc_cfg : (loadWordAtPc s w).cfg = s.cfg := rfl
@[simp] theorem loadWordAtPc_inputs : (loadWordAtPc s w).inputs = s.inputs := rfl
@[simp] theorem loadWordAtPc_draws : (loadWordAtPc s w).draws = s.draws := rfl
@[simp] theorem loadWordAtPc_stallDraw : (loadWordAtPc s w).stallDraw = s.stallDraw := rfl

end

/-! ### The written fields -/

@[simp] theorem advancePc_pc (s : State) : (advancePc s).pc = nextPc s := rfl

@[simp] theorem countRetired_minstret (h : BitVec 32) (w : Bool) (s : State) :
    (countRetired h w s).minstret = if h.getLsbD 2 || w then s.minstret else s.minstret + 1#64 := by
  unfold countRetired; split <;> simp_all

@[simp] theorem retire_pc (s : State) : (retire s).pc = nextPc s := by
  simp [retire, nextPc]

@[simp] theorem retire_minstret (s : State) : (retire s).minstret = countOne s := by
  simp [retire, countOne]

@[simp] theorem returnFromM_priv (p : Priv) (s : State) : (returnFromM p s).priv = p := rfl
@[simp] theorem returnFromM_pc (p : Priv) (s : State) : (returnFromM p s).pc = s.mepc := rfl
@[simp] theorem returnFromS_priv (s : State) : (returnFromS s).priv = sretTarget s := rfl
@[simp] theorem returnFromS_pc (s : State) : (returnFromS s).pc = s.sepc := rfl

@[simp] theorem commitStore_mem (a : Word) (n : Nat) (v : Word) (s : State) :
    (commitStore a n v s).mem = writeBytes s.cfg.xlen s.mem a n v := rfl

@[simp] theorem takeTrap_priv (i : Bool) (c : Nat) (v e : Word) (p : Priv) (s : State) :
    (takeTrap i c v e p s).priv = if p = .M then .M else .S := by
  unfold takeTrap; split <;> rfl

/-- Writing a field back its own value changes nothing. -/
theorem nextPc_congr {s t : State} (hc : t.cfg = s.cfg) (hp : t.pc = s.pc) : nextPc t = nextPc s := by
  simp [nextPc, hc, hp]

end Sys2Proof.Machine
end

