-- ==== Sys2Proof/Laws/Memory.lean ====
section
/-! SUPPORT. Memory as a canonical list: reading after a write, the frame of a write, and that every memory operation
keeps the canonical form; the same for the list of stored addresses. -/

namespace Sys2Proof.Machine

/-! ### One byte -/

/-- Reading a byte after a write of one byte, at any address. -/
theorem memRead_memWrite (m : Memory) (a b : Nat) (v : Byte) :
    memRead (memWrite m a v) b = if b = a then some v else memRead m b := by
  induction m with
  | nil =>
    by_cases h : b = a
    · simp [memWrite, memRead, h]
    · simp [memWrite, memRead, h, Ne.symm h]
  | cons e rest ih =>
    obtain ⟨c, w⟩ := e
    simp only [memWrite]
    split
    · by_cases h : b = a
      · simp [memRead, h]
      · simp [memRead, h, Ne.symm h]
    · split
      · subst a
        by_cases h : b = c
        · simp [memRead, h]
        · simp [memRead, h, Ne.symm h]
      · simp only [memRead, ih]
        by_cases h : c = b
        · subst h; rw [if_pos rfl, if_neg (by omega), if_pos rfl]
        · rw [if_neg h, if_neg h]

/-- A byte that was written reads as it was written. -/
@[simp] theorem memByte_of_written {m : Memory} {a : Nat} {b : Byte} (h : memRead m a = some b) : memByte m a = b := by
  simp [memByte, h]

/-- A byte that nothing has written reads as it was at reset. -/
@[simp] theorem memByte_of_unwritten {m : Memory} {a : Nat} (h : memRead m a = none) :
    memByte m a = Config.memoryAtReset a := by
  simp [memByte, h]

/-- `M[b]` after a byte is written. -/
theorem memByte_memWrite (m : Memory) (a b : Nat) (v : Byte) :
    memByte (memWrite m a v) b = if b = a then v else memByte m b := by
  unfold memByte; rw [memRead_memWrite]; split <;> rfl

/-- A write adds its own address to the listed ones and no other. -/
theorem mem_keys_memWrite (m : Memory) (a : Nat) (v : Byte) (b : Nat) :
    b ∈ (memWrite m a v).map Prod.fst → b = a ∨ b ∈ m.map Prod.fst := by
  induction m with
  | nil => simp [memWrite]
  | cons e rest ih =>
    obtain ⟨c, w⟩ := e
    simp only [memWrite]
    split
    · simp
    · split
      · simp; tauto
      · simp only [List.map_cons, List.mem_cons]
        rintro (h | h)
        · tauto
        · rcases ih h with h | h <;> tauto

/-- A write of one byte keeps the canonical form. -/
theorem memWrite_wf {m : Memory} (h : Memory.wf m) (a : Nat) (v : Byte) : Memory.wf (memWrite m a v) := by
  induction m with
  | nil => simp [memWrite, Memory.wf]
  | cons e rest ih =>
    obtain ⟨c, w⟩ := e
    simp only [Memory.wf, List.map_cons, List.pairwise_cons] at h
    simp only [memWrite]
    split
    · rename_i hlt
      simp only [Memory.wf, List.map_cons, List.pairwise_cons, List.mem_cons]
      refine ⟨?_, h⟩
      rintro b (rfl | hb)
      · exact hlt
      · exact hlt.trans (h.1 b hb)
    · split
      · rename_i _ heq
        subst heq
        simpa only [Memory.wf, List.map_cons, List.pairwise_cons] using h
      · rename_i h1 h2
        simp only [Memory.wf, List.map_cons, List.pairwise_cons]
        refine ⟨fun b hb => ?_, ih h.2⟩
        rcases mem_keys_memWrite rest a v b hb with rfl | hb
        · omega
        · exact h.1 b hb

/-! ### Several bytes -/

/-- The last index in a list at which an address stands decides what a write of several bytes leaves there; an address
that is not in the list keeps its byte. -/
theorem memRead_writeBytesFrom_frame (m : Memory) (k : Nat) (v : Word) (addrs : List Nat) (b : Nat)
    (h : b ∉ addrs) : memRead (writeBytesFrom m k v addrs) b = memRead m b := by
  induction addrs generalizing m k with
  | nil => rfl
  | cons a rest ih =>
    simp only [List.mem_cons, not_or] at h
    rw [writeBytesFrom, ih _ _ h.2, memRead_memWrite, if_neg h.1]

/-- Byte `k + i` of the value stands at the i-th address, when the addresses are distinct. -/
theorem memRead_writeBytesFrom_get (m : Memory) (k : Nat) (v : Word) (addrs : List Nat) (hnd : addrs.Nodup)
    (i : Nat) (hi : i < addrs.length) :
    memRead (writeBytesFrom m k v addrs) addrs[i] = some (v.extractLsb' (8 * (k + i)) 8) := by
  induction addrs generalizing m k i with
  | nil => simp at hi
  | cons a rest ih =>
    rw [List.nodup_cons] at hnd
    cases i with
    | zero =>
      simp only [List.getElem_cons_zero, writeBytesFrom, Nat.add_zero]
      rw [memRead_writeBytesFrom_frame _ _ _ _ _ hnd.1, memRead_memWrite, if_pos rfl]
    | succ i =>
      simp only [List.getElem_cons_succ, writeBytesFrom]
      rw [ih _ _ hnd.2 i (by simpa using hi), show k + 1 + i = k + (i + 1) by omega]

/-- A write of several bytes keeps the canonical form. -/
theorem writeBytesFrom_wf {m : Memory} (h : Memory.wf m) (k : Nat) (v : Word) (addrs : List Nat) :
    Memory.wf (writeBytesFrom m k v addrs) := by
  induction addrs generalizing m k with
  | nil => exact h
  | cons a rest ih => exact ih (memWrite_wf h _ _) _

/-- `MemWrite` keeps the canonical form. -/
theorem writeBytes_wf {m : Memory} (h : Memory.wf m) (x : Xlen) (addr : Word) (n : Nat) (v : Word) :
    Memory.wf (writeBytes x m addr n v) := writeBytesFrom_wf h _ _ _

/-- Memory after reset is in its canonical form. -/
theorem reset_mem_wf : Memory.wf State.reset.mem := List.Pairwise.nil

/-- A program load keeps the canonical form. -/
theorem loadWordAtPc_wf {s : State} (h : Memory.wf s.mem) (w : InstrWord) : Memory.wf (loadWordAtPc s w).mem :=
  writeBytes_wf h _ _ _ _

/-! ### The addresses of an access -/

/-- The address of byte `k`, as a number. -/
theorem byteAddr_eq (x : Xlen) (addr : Word) (k : Nat) (ha : addr.toNat < 2 ^ xlenBits x) :
    byteAddr x addr k = (addr.toNat + k) % 2 ^ xlenBits x := by
  cases x <;> simp [byteAddr, trunc, xlenBits] at ha ⊢
  omega

/-- An address is one of an access's exactly when it is some byte's address. -/
theorem mem_accessAddrs (x : Xlen) (addr : Word) (n b : Nat) :
    b ∈ accessAddrs x addr n ↔ ∃ k < n, b = byteAddr x addr k := by
  simp [accessAddrs, eq_comm]

/-- The addresses of an access of at most 2^32 bytes are distinct. -/
theorem accessAddrs_nodup (x : Xlen) (addr : Word) (n : Nat) (hn : n ≤ 2 ^ 32) (ha : addr.toNat < 2 ^ xlenBits x) :
    (accessAddrs x addr n).Nodup := by
  rw [accessAddrs, List.nodup_map_iff_inj_on List.nodup_range]
  intro i hi j hj hij
  rw [byteAddr_eq _ _ _ ha, byteAddr_eq _ _ _ ha] at hij
  rw [List.mem_range] at hi hj
  cases x <;> simp only [xlenBits] at hij ha <;> omega

/-- What `MemWrite` leaves at the bytes it writes. -/
theorem memRead_writeBytes_get (x : Xlen) (m : Memory) (addr v : Word) (n : Nat) (hn : n ≤ 2 ^ 32)
    (ha : addr.toNat < 2 ^ xlenBits x) (k : Nat) (hk : k < n) :
    memRead (writeBytes x m addr n v) ((addr.toNat + k) % 2 ^ xlenBits x) = some (v.extractLsb' (8 * k) 8) := by
  have := memRead_writeBytesFrom_get m 0 v _ (accessAddrs_nodup x addr n hn ha) k (by simpa [accessAddrs] using hk)
  simpa [writeBytes, accessAddrs, byteAddr_eq _ _ _ ha] using this

/-- What `MemWrite` leaves everywhere else. -/
theorem memRead_writeBytes_frame (x : Xlen) (m : Memory) (addr v : Word) (n b : Nat)
    (h : b ∉ accessAddrs x addr n) : memRead (writeBytes x m addr n v) b = memRead m b :=
  memRead_writeBytesFrom_frame _ _ _ _ _ h

/-! ### The stored addresses -/

/-- What an insertion leaves in the list. -/
theorem mem_insertAddr (l : List Nat) (n b : Nat) : b ∈ insertAddr l n ↔ b = n ∨ b ∈ l := by
  induction l with
  | nil => simp [insertAddr]
  | cons a rest ih =>
    simp only [insertAddr]
    split
    · simp
    · split
      · subst n; simp
      · simp only [List.mem_cons, ih]; tauto

/-- An insertion keeps the list strictly rising. -/
theorem insertAddr_pairwise {l : List Nat} (h : l.Pairwise (· < ·)) (n : Nat) :
    (insertAddr l n).Pairwise (· < ·) := by
  induction l with
  | nil => simp [insertAddr]
  | cons a rest ih =>
    rw [List.pairwise_cons] at h
    simp only [insertAddr]
    split
    · rename_i hlt
      rw [List.pairwise_cons]
      refine ⟨fun b hb => ?_, List.pairwise_cons.2 h⟩
      rcases List.mem_cons.1 hb with rfl | hb
      · exact hlt
      · exact hlt.trans (h.1 b hb)
    · split
      · exact List.pairwise_cons.2 h
      · rename_i h1 h2
        refine List.pairwise_cons.2 ⟨fun b hb => ?_, ih h.2⟩
        rcases (mem_insertAddr rest n b).1 hb with rfl | hb
        · omega
        · exact h.1 b hb

/-- What several insertions leave in the list. -/
theorem mem_foldl_insertAddr (ns l : List Nat) (b : Nat) : b ∈ ns.foldl insertAddr l ↔ b ∈ ns ∨ b ∈ l := by
  induction ns generalizing l with
  | nil => simp
  | cons n rest ih => simp only [List.foldl_cons, ih, mem_insertAddr, List.mem_cons]; tauto

/-- Several insertions keep the list strictly rising. -/
theorem foldl_insertAddr_pairwise (ns : List Nat) {l : List Nat} (h : l.Pairwise (· < ·)) :
    (ns.foldl insertAddr l).Pairwise (· < ·) := by
  induction ns generalizing l with
  | nil => exact h
  | cons n rest ih => exact ih (insertAddr_pairwise h n)

end Sys2Proof.Machine
end

