-- ==== Sys2Proof/Laws/Ops.lean ====
section
/-! SUPPORT. What each shared operation can do, said once: general registers, values modulo 2^XLEN, retirement, the CSR
operation, the store, the effect of any instruction, and the step. -/

namespace Sys2Proof.Machine

/-! ### Values modulo 2^XLEN -/

@[simp] theorem trunc_rv64 (v : Word) : trunc .rv64 v = v := rfl

@[simp] theorem trunc_trunc (x : Xlen) (v : Word) : trunc x (trunc x v) = trunc x v := by
  cases x
  · simp only [trunc]; bv_omega
  · rfl

theorem fitsXlen_trunc (x : Xlen) (v : Word) : FitsXlen x (trunc x v) := trunc_trunc x v

@[simp] theorem fitsXlen_rv64 (v : Word) : FitsXlen .rv64 v := rfl

/-- A value fits exactly when it is below 2^XLEN. -/
theorem fitsXlen_iff (x : Xlen) (v : Word) : FitsXlen x v ↔ v.toNat < 2 ^ xlenBits x := by
  cases x
  · simp only [FitsXlen, trunc, xlenBits]; bv_omega
  · simp only [fitsXlen_rv64, xlenBits, true_iff]; exact v.isLt

theorem toNat_trunc (x : Xlen) (v : Word) : (trunc x v).toNat = v.toNat % 2 ^ xlenBits x := by
  cases x
  · simp only [trunc, xlenBits]; simp; omega
  · simp only [trunc, xlenBits]; have := v.isLt; omega

theorem getLsbD_trunc (x : Xlen) (v : Word) (k : Nat) :
    (trunc x v).getLsbD k = (decide (k < xlenBits x) && v.getLsbD k) := by
  cases x
  · simp only [trunc, xlenBits, BitVec.getLsbD_setWidth]
    by_cases h : k < 32
    · simp [h, show k < 64 by omega]
    · simp [h]
  · simp only [trunc, xlenBits]
    by_cases h : k < 64
    · simp [h]
    · simp [h, BitVec.getLsbD_of_ge v k (by omega)]

/-- A mask only clears bits, so it keeps a value within XLEN bits. -/
theorem fitsXlen_and {x : Xlen} {v : Word} (h : FitsXlen x v) (m : Word) : FitsXlen x (v &&& m) := by
  cases x
  · rw [fitsXlen_iff] at h ⊢
    exact lt_of_le_of_lt (by rw [BitVec.toNat_and]; exact Nat.and_le_left) h
  · rfl

theorem fitsXlen_or {x : Xlen} {v w : Word} (hv : FitsXlen x v) (hw : FitsXlen x w) : FitsXlen x (v ||| w) := by
  cases x
  · rw [fitsXlen_iff] at hv hw ⊢
    rw [BitVec.toNat_or]; exact Nat.or_lt_two_pow hv hw
  · rfl

theorem fitsXlen_of_lt {x : Xlen} {v : Word} (h : v.toNat < 2 ^ 32) : FitsXlen x v := by
  rw [fitsXlen_iff]; cases x <;> simp only [xlenBits] <;> omega

/-! ### General registers -/

@[simp] theorem readX_zero (s : State) : readX s 0#5 = 0#64 := rfl

/-- The value of a register after a write of one: x0 stays zero. -/
theorem readX_setX (s : State) (r q : Reg) (v : Word) :
    readX (setX s r v) q = if q = r ∧ q ≠ 0#5 then trunc s.cfg.xlen v else readX s q := by
  unfold readX setX
  by_cases hq : q = 0#5
  · simp [hq]
  · by_cases hr : r = 0#5
    · subst hr; simp [hq]
    · simp only [hq, hr, ↓reduceIte, Vector.getElem_set, ne_eq, not_false_eq_true, and_true]
      by_cases h : q = r
      · simp [h]
      · have : r.toNat ≠ q.toNat := fun e => h (BitVec.eq_of_toNat_eq e.symm)
        simp [h, this]

/-- Equal registers read equally. -/
theorem readX_congr {s t : State} (h : t.x = s.x) (r : Reg) : readX t r = readX s r := by
  unfold readX; simp only [h]

/-! ### Retirement -/

/-- What retiring leaves, in full. -/
theorem retire_eq (s : State) : retire s = { s with pc := nextPc s, minstret := countOne s } := by
  unfold retire advancePc countRetired countOne nextPc
  simp only [Bool.or_false]
  split <;> rfl

/-- An instruction that writes one register and retires. -/
theorem writeResult_spec (rd : Reg) (v : Word) (s : State) :
    ∃ t, writeResult rd v s = .next t ∧ RetiresWriting s s t rd (trunc s.cfg.xlen v) ∧ t.minstret = countOne s := by
  refine ⟨_, rfl, ⟨?_, fun r => ?_, ?_⟩, ?_⟩
  · rw [retire_eq]; unfold AgreeButXPcInstret setX; split <;> rfl
  · rw [readX_congr (retire_x _), readX_setX]
  · simp [nextPc]
  · simp [countOne]

/-! ### The CSR operation -/

theorem csrInstr_illegal {word : InstrWord} {a : CsrAddr} {rd : Reg} {wr rdEn : Bool} {new : Word → Word} {s : State}
    (h : csrPermitted s a wr = false) : csrInstr word a rd wr rdEn new s = .next (raiseIllegal word s) := by
  simp [csrInstr, h]

theorem csrInstr_misa {word : InstrWord} {a : CsrAddr} {rd : Reg} {wr rdEn : Bool} {new : Word → Word} {s : State}
    (h : csrPermitted s a wr = true) (hm : misaWriteOpen s a wr = true) :
    csrInstr word a rd wr rdEn new s = .refused .misaWrite := by
  simp [csrInstr, h, hm]

/-- The state a CSR instruction leaves when it completes. -/
def csrResult (a : CsrAddr) (rd : Reg) (wr rdEn : Bool) (new : Word → Word) (s : State) : State :=
  let written := if wr then csrWrite s a (new (csrModifyBase s a)) else s
  let result := if rdEn then setX written rd (csrRead s a) else written
  advancePc (countRetired s.mcountinhibit (wr && namesMinstret s a) result)

theorem csrInstr_next {word : InstrWord} {a : CsrAddr} {rd : Reg} {wr rdEn : Bool} {new : Word → Word} {s : State}
    (h : csrPermitted s a wr = true) (hm : misaWriteOpen s a wr = false) :
    csrInstr word a rd wr rdEn new s = .next (csrResult a rd wr rdEn new s) := by
  simp [csrInstr, csrResult, h, hm]

/-- The three things a CSR instruction can do. -/
theorem csrInstr_cases (word : InstrWord) (a : CsrAddr) (rd : Reg) (wr rdEn : Bool) (new : Word → Word) (s : State) :
    csrInstr word a rd wr rdEn new s = .next (raiseIllegal word s) ∨
    csrInstr word a rd wr rdEn new s = .refused .misaWrite ∨
    (csrPermitted s a wr = true ∧
      csrInstr word a rd wr rdEn new s = .next (csrResult a rd wr rdEn new s)) := by
  cases hp : csrPermitted s a wr
  · exact .inl (csrInstr_illegal hp)
  · cases hm : misaWriteOpen s a wr
    · exact .inr (.inr ⟨rfl, csrInstr_next hp hm⟩)
    · exact .inr (.inl (csrInstr_misa hp hm))

/-! ### CSR writes leave the rest of the machine -/

theorem writeCsr_x (s : State) (r : Csr) (v : Word) : (writeCsr s r v).x = s.x := by
  cases r <;> simp only [writeCsr] <;> first | rfl | (split <;> rfl)
theorem writeCsr_pc (s : State) (r : Csr) (v : Word) : (writeCsr s r v).pc = s.pc := by
  cases r <;> simp only [writeCsr] <;> first | rfl | (split <;> rfl)
theorem writeCsr_priv (s : State) (r : Csr) (v : Word) : (writeCsr s r v).priv = s.priv := by
  cases r <;> simp only [writeCsr] <;> first | rfl | (split <;> rfl)
theorem writeCsr_cfg (s : State) (r : Csr) (v : Word) : (writeCsr s r v).cfg = s.cfg := by
  cases r <;> simp only [writeCsr] <;> first | rfl | (split <;> rfl)

@[simp] theorem csrWrite_x (s : State) (a : CsrAddr) (v : Word) : (csrWrite s a v).x = s.x := by
  unfold csrWrite; split
  · exact writeCsr_x _ _ _
  · rfl
@[simp] theorem csrWrite_pc (s : State) (a : CsrAddr) (v : Word) : (csrWrite s a v).pc = s.pc := by
  unfold csrWrite; split
  · exact writeCsr_pc _ _ _
  · rfl
@[simp] theorem csrWrite_priv (s : State) (a : CsrAddr) (v : Word) : (csrWrite s a v).priv = s.priv := by
  unfold csrWrite; split
  · exact writeCsr_priv _ _ _
  · rfl
@[simp] theorem csrWrite_cfg (s : State) (a : CsrAddr) (v : Word) : (csrWrite s a v).cfg = s.cfg := by
  unfold csrWrite; split
  · exact writeCsr_cfg _ _ _
  · rfl

/-- A CSR write that names neither half of minstret leaves it. -/
theorem csrWrite_minstret (s : State) (a : CsrAddr) (v : Word) (h : namesMinstret s a = false) :
    (csrWrite s a v).minstret = s.minstret := by
  unfold namesMinstret at h
  unfold csrWrite
  split
  · rename_i r hr
    rw [hr] at h
    cases r <;> simp only [writeCsr] <;> first | rfl | (split <;> rfl) | simp at h
  · rfl

/-- What a completing CSR instruction leaves: rd takes the value read, the rest is as after the write of the CSR. -/
theorem csrResult_retires (a : CsrAddr) (rd : Reg) (wr rdEn : Bool) (new : Word → Word) (s : State)
    (hrd : rdEn = false → rd = 0#5) :
    let u := if wr then csrWrite s a (new (csrModifyBase s a)) else s
    RetiresWriting s u (csrResult a rd wr rdEn new s) rd (trunc s.cfg.xlen (csrRead s a)) ∧
    (csrResult a rd wr rdEn new s).minstret =
      if wr = true ∧ namesMinstret s a = true then u.minstret else countOne s := by
  intro u
  have hux : u.x = s.x := by simp only [u]; split <;> simp
  have hup : u.pc = s.pc := by simp only [u]; split <;> simp
  have huc : u.cfg = s.cfg := by simp only [u]; split <;> simp
  have hum : ¬ (wr = true ∧ namesMinstret s a = true) → u.minstret = s.minstret := by
    intro h
    simp only [u]; split
    · rename_i hw; exact csrWrite_minstret _ _ _ (by simpa [hw] using h)
    · rfl
  have hres : csrResult a rd wr rdEn new s =
      advancePc (countRetired s.mcountinhibit (wr && namesMinstret s a)
        (if rdEn then setX u rd (csrRead s a) else u)) := rfl
  rw [hres]
  refine ⟨⟨?_, fun r => ?_, ?_⟩, ?_⟩
  · unfold AgreeButXPcInstret advancePc countRetired setX
    split <;> split <;> (try split) <;> rfl
  · rw [readX_congr (advancePc_x _), readX_congr (countRetired_x _ _ _)]
    cases hr : rdEn
    · rw [hrd hr]
      simp only [Bool.false_eq_true, ↓reduceIte, readX_congr hux]
      by_cases h : r = 0#5 <;> simp [h]
    · simp only [↓reduceIte, readX_setX, huc, readX_congr hux]
  · rw [advancePc_pc]
    unfold nextPc
    cases rdEn <;> simp [hup, huc]
  · rw [advancePc_minstret, countRetired_minstret]
    have hm' : (if rdEn then setX u rd (csrRead s a) else u).minstret = u.minstret := by cases rdEn <;> simp
    rw [hm']
    by_cases h : wr = true ∧ namesMinstret s a = true
    · simp [h.1, h.2]
    · rw [if_neg h, hum h]
      have : (wr && namesMinstret s a) = false := by simpa using h
      simp [this, countOne]

/-! ### What an instruction that names a CSR is -/

/-- Every CSR instruction is the one CSR operation, with `csrWrites` as its write enable; it reads unless rd is x0. -/
theorem exec_csr {i : Instr} {a : CsrAddr} (h : csrNamed i = some a) (s : State) :
    ∃ (rdEn : Bool) (new : Word → Word), (rdEn = false → destReg i = 0#5) ∧
      exec i s = csrInstr (encode i) a (destReg i) (csrWrites i) rdEn new s := by
  cases i <;> simp only [csrNamed, Option.some.injEq, reduceCtorEq] at h <;> subst h
  case csrrw rd csr rs1 =>
    exact ⟨rd != 0#5, fun _ => readX s rs1, by simp [destReg], by simp only [exec, execCsrrw, destReg, csrWrites]⟩
  case csrrs rd csr rs1 =>
    exact ⟨true, fun t => t ||| readX s rs1, by simp, by simp only [exec, execCsrrs, destReg, csrWrites]⟩
  case csrrc rd csr rs1 =>
    exact ⟨true, fun t => t &&& ~~~readX s rs1, by simp, by simp only [exec, execCsrrc, destReg, csrWrites]⟩
  case csrrwi rd csr uimm =>
    exact ⟨rd != 0#5, fun _ => zextUimm uimm, by simp [destReg], by simp only [exec, execCsrrwi, destReg, csrWrites]⟩
  case csrrsi rd csr uimm =>
    exact ⟨true, fun t => t ||| zextUimm uimm, by simp, by simp only [exec, execCsrrsi, destReg, csrWrites]⟩
  case csrrci rd csr uimm =>
    exact ⟨true, fun t => t &&& ~~~zextUimm uimm, by simp, by simp only [exec, execCsrrci, destReg, csrWrites]⟩

/-! ### The store -/

/-- What a completing store leaves. -/
theorem storeInstr_next {addr : Word} {n : Nat} {v : Word} {s : State} {p : Priv}
    (ha : ¬ (s.cfg.misaligned = .trap ∧ addr.toNat % n ≠ 0)) (hp : dataPriv s = some p)
    (ht : translationActive s p = false) (hpmp : pmpAllows s addr n .store p = true)
    (hm : memoryAnswers s.cfg addr n = true) :
    storeInstr addr n v s = .next (retire (commitStore addr n v s)) := by
  simp [storeInstr, ha, hp, ht, hpmp, hm]

/-- Everything a store can do when it ends in a next state. -/
theorem storeInstr_cases {addr : Word} {n : Nat} {v : Word} {s t : State} (h : storeInstr addr n v s = .next t) :
    t = raiseExc .storeAddressMisaligned addr s ∨ t = raiseExc .storeAccessFault addr s ∨
    t = retire (commitStore addr n v s) := by
  unfold storeInstr at h
  split at h
  · left; injection h with h; exact h.symm
  · split at h
    · simp at h
    · split at h
      · simp at h
      · split at h <;> injection h with h
        · right; right; exact h.symm
        · right; left; exact h.symm

/-! ### Everything an instruction can do -/

/-- The trap value of an exception an instruction raises. -/
def IsTrapValue (s : State) (v : Word) : Prop :=
  v = 0#64 ∨ v = s.pc ∨ (∃ w : InstrWord, v = w.setWidth 64) ∨ ∃ rs1 imm, v = storeAddress s rs1 imm

/-- Everything an instruction that ends in a next state can do. -/
inductive ExecEffect (i : Instr) (s : State) : State → Prop
  /-- It raises an exception. -/
  | raises (e : Exc) (v : Word) (hv : IsTrapValue s v) : ExecEffect i s (raiseExc e v s)
  /-- It accesses a CSR. -/
  | csr (a : CsrAddr) (rd : Reg) (wr rdEn : Bool) (new : Word → Word) (h : csrPermitted s a wr = true) :
    ExecEffect i s (csrResult a rd wr rdEn new s)
  /-- It is MRET. -/
  | mret (new : Priv) (hi : i = .mret) (h : s.priv = .M) (hm : privOfBits (mstatusMPP s.mstatus) = some new) :
    ExecEffect i s (returnFromM new (countRetired s.mcountinhibit false s))
  /-- It is SRET. -/
  | sret (hi : i = .sret) (hs : hasS s.cfg = true) (hu : s.priv ≠ .U) :
    ExecEffect i s (returnFromS (countRetired s.mcountinhibit false s))
  /-- It is WFI. -/
  | wfi : ExecEffect i s { retire s with waiting := wfiWaits s }
  /-- It is SFENCE.VMA. -/
  | fence (rs1 rs2 : Reg) : ExecEffect i s (retire (flushTlb rs1 rs2 s))
  /-- It writes a general register. -/
  | register (rd : Reg) (v : Word) : ExecEffect i s (retire (setX s rd v))
  /-- It stores. -/
  | store (addr : Word) (n : Nat) (v : Word) : ExecEffect i s (retire (commitStore addr n v s))

theorem raiseIllegal_effect (i : Instr) (w : InstrWord) (s : State) : ExecEffect i s (raiseIllegal w s) := by
  unfold raiseIllegal
  split
  · exact .raises _ _ (.inr (.inr (.inl ⟨w, rfl⟩)))
  · exact .raises _ _ (.inl rfl)

theorem csrInstr_effect (i : Instr) {word : InstrWord} {a : CsrAddr} {rd : Reg} {wr rdEn : Bool} {new : Word → Word}
    {s t : State} (h : csrInstr word a rd wr rdEn new s = .next t) : ExecEffect i s t := by
  rcases csrInstr_cases word a rd wr rdEn new s with h' | h' | ⟨hp, h'⟩ <;> rw [h'] at h
  · injection h with h; rw [← h]; exact raiseIllegal_effect i word s
  · simp at h
  · injection h with h; rw [← h]; exact .csr a rd wr rdEn new hp

/-- The inversion of `exec`: an instruction that answers a next state does one of the things listed. -/
theorem exec_cases {i : Instr} {s t : State} (h : exec i s = .next t) : ExecEffect i s t := by
  cases i
  case csrrw => simp only [exec, execCsrrw] at h; exact csrInstr_effect _ h
  case csrrs => simp only [exec, execCsrrs] at h; exact csrInstr_effect _ h
  case csrrc => simp only [exec, execCsrrc] at h; exact csrInstr_effect _ h
  case csrrwi => simp only [exec, execCsrrwi] at h; exact csrInstr_effect _ h
  case csrrsi => simp only [exec, execCsrrsi] at h; exact csrInstr_effect _ h
  case csrrci => simp only [exec, execCsrrci] at h; exact csrInstr_effect _ h
  case mret =>
    simp only [exec, execMret] at h
    split at h
    · injection h with h; subst h; exact raiseIllegal_effect _ _ s
    · rename_i hp
      split at h
      · simp at h
      · rename_i new hn
        injection h with h; subst h
        exact .mret new rfl (by simpa using hp) hn
  case sret =>
    simp only [exec, execSret] at h
    split at h <;> injection h with h <;> subst h
    · exact raiseIllegal_effect _ _ s
    · rename_i hp
      exact .sret rfl (by by_contra hc; exact hp (.inl (by simpa using hc))) (fun hu => hp (.inr (.inl hu)))
  case wfi =>
    simp only [exec, execWfi] at h
    split at h <;> injection h with h <;> subst h
    · exact raiseIllegal_effect _ _ s
    · exact .wfi
  case ecall =>
    simp only [exec, execEcall] at h
    injection h with h; subst h
    exact .raises _ _ (.inl rfl)
  case ebreak =>
    simp only [exec, execEbreak] at h
    injection h with h; subst h
    split
    · exact .raises _ _ (.inr (.inl rfl))
    · exact .raises _ _ (.inl rfl)
  case sfenceVma rs1 rs2 =>
    simp only [exec, execSfenceVma] at h
    split at h <;> injection h with h <;> subst h
    · exact raiseIllegal_effect _ _ s
    · exact .fence rs1 rs2
  case addi => simp only [exec, execAddi, writeResult] at h; injection h with h; subst h; exact .register _ _
  case andi => simp only [exec, execAndi, writeResult] at h; injection h with h; subst h; exact .register _ _
  case ori => simp only [exec, execOri, writeResult] at h; injection h with h; subst h; exact .register _ _
  case srli =>
    simp only [exec, execSrli, writeResult] at h
    split at h
    · injection h with h; subst h; exact .register _ _
    · simp at h
  case sd rs2 rs1 imm =>
    simp only [exec, execSd] at h
    split at h
    · rcases storeInstr_cases h with rfl | rfl | rfl
      · exact .raises _ _ (.inr (.inr (.inr ⟨rs1, imm, rfl⟩)))
      · exact .raises _ _ (.inr (.inr (.inr ⟨rs1, imm, rfl⟩)))
      · exact .store _ _ _
    · simp at h

/-! ### Everything a step can do -/

/-- Everything a step that ends in a next state can do, `s'` being the state once the agents have moved and the hart may
have woken. -/
inductive StepEffect (s' : State) : State → Prop
  /-- The hart waits. -/
  | waits (h : s'.waiting = true) : StepEffect s' s'
  /-- It takes an interrupt. -/
  | interrupt (i : Irq) (target : Priv) (h : interruptTaken s' = some (i, target)) :
    StepEffect s' (takeTrap true (irqCode i) 0#64 s'.pc target s')
  /-- The fetch or the decoding of the word at pc raises an exception. -/
  | raises (e : Exc) (v : Word) (hv : IsTrapValue s' v) : StepEffect s' (raiseExc e v s')
  /-- It executes the instruction at pc. -/
  | executes (bs : List Byte) (i : Instr) (t : State) (hf : fetch s' = .bytes bs)
      (hd : decode s'.cfg.xlen bs = .instr i) (he : exec i s' = .next t) : StepEffect s' t

/-- The inversion of `step`. -/
theorem step_cases {s t : State} (h : step s = .next t) : StepEffect (wake (moveAgents s)) t := by
  unfold step hartStep hartAct at h
  split at h
  · rename_i hw; injection h with h; rw [← h]; exact .waits hw
  · split at h
    · rename_i i target hi
      injection h with h; rw [← h]; exact .interrupt i target hi
    · unfold runAtPc at h
      split at h
      · rename_i bs hf
        unfold runBytes at h
        split at h
        · rename_i i hd; exact .executes bs i t hf hd h
        · injection h with h; rw [← h]
          unfold raiseIllegal
          split
          · exact .raises _ _ (.inr (.inr (.inl ⟨_, rfl⟩)))
          · exact .raises _ _ (.inl rfl)
        · simp at h
        · simp at h
      · injection h with h; rw [← h]; exact .raises _ _ (.inr (.inl rfl))
      · simp at h

/-- Everything a fetch can answer (20_memory.md R150, R152, R160). -/
theorem fetch_cases (s : State) :
    fetch s = .refused .translatedAccess ∨ fetch s = .raises .instructionAccessFault ∨
    fetch s = .refused .modifiedCode ∨ fetch s = .bytes (readBytes s.mem (fetchAddrs s)) := by
  unfold fetch
  repeat' split
  all_goals simp

/-! ### Which interrupt is taken -/

/-- A statement about every interrupt is one about each of the six. -/
theorem irq_forall (P : Irq → Prop) : (∀ i, P i) ↔
    P .machineExternal ∧ P .machineSoftware ∧ P .machineTimer ∧ P .supervisorExternal ∧ P .supervisorSoftware ∧
      P .supervisorTimer :=
  ⟨fun h => ⟨h _, h _, h _, h _, h _, h _⟩, fun ⟨a, b, c, d, e, f⟩ i => by cases i <;> assumption⟩

/-- The search of the M-mode order finds the interrupt of highest rank. -/
theorem machineOrder_find_some (p : Irq → Bool) (i : Irq) :
    machineOrder.find? p = some i ↔ p i = true ∧ ∀ j, irqRank j < irqRank i → p j = false := by
  rw [irq_forall]
  simp only [machineOrder, List.find?]
  cases h1 : p .machineExternal <;> cases h2 : p .machineSoftware <;> cases h3 : p .machineTimer <;>
    cases h4 : p .supervisorExternal <;> cases h5 : p .supervisorSoftware <;> cases h6 : p .supervisorTimer <;>
    cases i <;> simp [irqRank, *]

/-- The search of the S-mode order finds the interrupt of highest rank that S-mode can handle. -/
theorem supervisorOrder_find_some (p : Irq → Bool) (i : Irq) :
    supervisorOrder.find? p = some i ↔
      (p i = true ∧ irqSupervisor i = true) ∧ ∀ j, irqRank j < irqRank i → ¬ (p j = true ∧ irqSupervisor j = true) := by
  rw [irq_forall]
  simp only [supervisorOrder, List.find?]
  cases h4 : p .supervisorExternal <;> cases h5 : p .supervisorSoftware <;> cases h6 : p .supervisorTimer <;>
    cases i <;> simp [irqRank, irqSupervisor, *]

theorem machineOrder_find_none (p : Irq → Bool) : machineOrder.find? p = none ↔ ∀ j, p j = false := by
  rw [irq_forall]; simp [machineOrder]

theorem supervisorOrder_find_none (p : Irq → Bool) :
    supervisorOrder.find? p = none ↔ ∀ j, ¬ (p j = true ∧ irqSupervisor j = true) := by
  rw [irq_forall]; simp [supervisorOrder, irqSupervisor]

/-- An interrupt handled in S-mode is taken only below M-mode, and is delegated. -/
theorem interruptTaken_supervisor {s : State} {i : Irq} (h : interruptTaken s = some (i, .S)) :
    s.priv ≠ .M ∧ s.mideleg.getLsbD (irqCode i) = true := by
  unfold interruptTaken at h
  split at h
  · simp at h
  · split at h
    · rename_i j hj
      simp only [Option.some.injEq, Prod.mk.injEq, and_true] at h
      subst h
      split at hj
      · rename_i hs
        refine ⟨fun hp => by simp [supervisorEnabled, hp] at hs, ?_⟩
        have := List.find?_some hj
        simp only [Bool.and_eq_true] at this
        exact this.2
      · simp at hj
    · simp at h

/-- An interrupt is handled in M-mode or in S-mode. -/
theorem interruptTaken_target {s : State} {i : Irq} {p : Priv} (h : interruptTaken s = some (i, p)) :
    p = .M ∨ p = .S := by
  unfold interruptTaken at h
  split at h
  · simp_all
  · split at h <;> simp_all

/-- An exception is handled in M-mode or in S-mode, in S-mode only below M-mode and where S-mode exists. -/
theorem trapTarget_cases (s : State) (b : Bool) (c : Nat) :
    trapTarget s b c = .M ∨ (trapTarget s b c = .S ∧ hasS s.cfg = true ∧ s.priv ≠ .M) := by
  by_cases h : (hasS s.cfg && s.priv != .M && (if b then s.mideleg else s.medeleg).getLsbD c) = true
  · right
    refine ⟨by rw [trapTarget, if_pos h], ?_⟩
    simp only [Bool.and_eq_true, bne_iff_ne, ne_eq] at h
    exact h.1
  · left; rw [trapTarget, if_neg h]

end Sys2Proof.Machine
end

