-- ==== Sys2Proof/Laws/Csr.lean ====
section
/-! SUPPORT. The CSR file: the table of addresses inverted, which register a permitted access reaches, and the fields of the
state that a write of each register can change. -/

namespace Sys2Proof.Machine

/-! ### The table of addresses -/

/-- The registers of the ranges stand at their addresses. -/
theorem csrInRange_addr {n : Nat} {r : Csr} (h : csrInRange n = some r) : csrAddr r = BitVec.ofNat 12 n := by
  unfold csrInRange at h
  repeat' split at h
  all_goals first
    | (simp only [Option.some.injEq] at h; subst h; simp only [csrAddr]; exact congrArg (BitVec.ofNat 12) (by omega))
    | simp at h

/-- The register found at an address has that address. -/
theorem csrAt_addr {a : CsrAddr} {r : Csr} (h : csrAt a = some r) : csrAddr r = a := by
  unfold csrAt at h
  split at h
  · rename_i c hc
    simp only [Option.some.injEq] at h; subst h
    simpa using List.find?_some hc
  · simpa using csrInRange_addr h

/-- The implemented register at an address: it has that address, and it exists. -/
theorem csrImpl_some {c : Config} {a : CsrAddr} {r : Csr} (h : csrImpl c a = some r) :
    csrAt a = some r ∧ csrAddr r = a ∧ csrExists c r = true ∧ a ∉ c.absent := by
  unfold csrImpl at h
  split at h
  · rename_i q hq
    split at h
    · rename_i hc
      simp only [Option.some.injEq] at h; subst h
      simp only [Bool.and_eq_true, Bool.not_eq_true', List.contains_eq_mem, decide_eq_false_iff_not] at hc
      exact ⟨hq, csrAt_addr hq, hc.1, hc.2⟩
    · simp at h
  · simp at h

/-- An access that is permitted passes the privilege check, and the read-only check if it writes. -/
theorem csrPermitted_level {s : State} {a : CsrAddr} {wr : Bool} (h : csrPermitted s a wr = true) :
    csrLevel a ≤ (privBits s.priv).toNat ∧ (wr = true → csrReadOnly a = false) := by
  unfold csrPermitted at h
  simp only [Bool.and_eq_true, decide_eq_true_eq, Bool.not_eq_true', Bool.and_eq_false_iff] at h
  refine ⟨h.1.1.1, fun hw => ?_⟩
  rcases h.1.1.2 with h' | h'
  · rw [hw] at h'; exact absurd h' (by simp)
  · exact h'

/-- The access check of an implemented register: privilege, read-only, and the register's own gate. -/
theorem csrPermitted_of_implemented {s : State} {a : CsrAddr} {wr : Bool} {r : Csr} (h : csrImpl s.cfg a = some r) :
    csrPermitted s a wr =
      (decide (csrLevel a ≤ (privBits s.priv).toNat) && !(wr && csrReadOnly a) && csrGate s a wr r) := by
  simp [csrPermitted, csrGateAt, h, (csrImpl_some h).1]

/-- The access check of an address that is not implemented: the policy decides the existence (R201), and the checks by
address stand. -/
theorem csrPermitted_of_unimplemented {s : State} {a : CsrAddr} {wr : Bool} (h : csrImpl s.cfg a = none) :
    csrPermitted s a wr =
      (decide (csrLevel a ≤ (privBits s.priv).toNat) && !(wr && csrReadOnly a) && unimplReadsZero s.cfg a &&
        csrGateAt s a wr) := by
  simp [csrPermitted, h]

/-- An access whose gate by address is closed is not permitted, implemented or not. -/
theorem csrPermitted_of_gate_closed {s : State} {a : CsrAddr} {wr : Bool} (h : csrGateAt s a wr = false) :
    csrPermitted s a wr = false := by
  simp [csrPermitted, h]

/-! ### The PMP configuration bytes (R65) -/

/-- Storing the bytes of a register, one after the other, sets those of implemented entries and no other. -/
theorem getElem_foldl_setBytes (bytes : Vector Byte 64) (f : Nat → Byte) (base entries n : Nat) (i : Nat) (hi : i < 64) :
    ((List.range n).foldl (fun b j => if base + j < entries then b.setIfInBounds (base + j) (f j) else b) bytes)[i] =
      if base ≤ i ∧ i < base + n ∧ i < entries then f (i - base) else bytes[i] := by
  induction n with
  | zero => simp; omega
  | succ n ih =>
    rw [List.range_succ, List.foldl_append]
    simp only [List.foldl_cons, List.foldl_nil]
    by_cases he : base + n < entries
    · simp only [he, ↓reduceIte]
      rw [Vector.getElem_setIfInBounds]
      by_cases h : base + n = i
      · subst h; rw [if_pos rfl, if_pos (by omega)]; simp
      · rw [if_neg h, ih]; congr 1; simp only [eq_iff_iff]; omega
    · simp only [he, ↓reduceIte]
      rw [ih]; congr 1; simp only [eq_iff_iff]; omega

/-- The configuration byte of an entry after a write of pmpcfg `k`: that register sets its implemented entries and no
other. -/
theorem getElem_pmpcfgWrite (s : State) (k : Nat) (v : Word) (i : Nat) (hi : i < 64) :
    (pmpcfgWrite s k v)[i] =
      if pmpcfgExists s.cfg.xlen k = true ∧ 4 * k ≤ i ∧ i < 4 * k + pmpBytesPerReg s.cfg.xlen ∧ i < s.cfg.pmpEntries
      then v.extractLsb' (8 * (i - 4 * k)) 8 else s.pmpcfg[i] := by
  unfold pmpcfgWrite
  split
  · rename_i he
    rw [getElem_foldl_setBytes _ (fun j => v.extractLsb' (8 * j) 8)]
    simp [he]
  · rename_i he; simp [he]

/-- Bytes laid side by side: byte `j` of the word is the j-th of them. -/
theorem extract_foldl_orBytes (f : Nat → Byte) (n : Nat) (hn : n ≤ 8) (j : Nat) :
    ((List.range n).foldl (fun acc j => acc ||| ((f j).setWidth 64 <<< (8 * j))) 0#64).extractLsb' (8 * j) 8 =
      if j < n then f j else 0#8 := by
  induction n with
  | zero => simp
  | succ n ih =>
    rw [List.range_succ, List.foldl_append]
    simp only [List.foldl_cons, List.foldl_nil]
    have ih := ih (by omega)
    generalize (List.range n).foldl (fun acc j => acc ||| ((f j).setWidth 64 <<< (8 * j))) 0#64 = acc at ih ⊢
    apply BitVec.eq_of_getLsbD_eq
    intro b hb
    have ihb := congrArg (·.getLsbD b) ih
    simp only [BitVec.getLsbD_extractLsb', hb, decide_true, Bool.true_and] at ihb
    simp only [BitVec.getLsbD_extractLsb', BitVec.getLsbD_or, BitVec.getLsbD_shiftLeft, BitVec.getLsbD_setWidth, hb,
      decide_true, Bool.true_and, ihb]
    rcases Nat.lt_trichotomy j n with h | rfl | h
    · simp [h, show j < n + 1 by omega, show 8 * j + b < 8 * n by omega]
    · have h64 : 8 * j + b < 64 := by omega
      have h8 : 8 * j + b - 8 * j = b := by omega
      simp [h64, h8, hb]; omega
    · have : 8 ≤ 8 * j + b - 8 * n := by omega
      simp [show ¬ j < n by omega, show ¬ j < n + 1 by omega, BitVec.getLsbD_of_ge (f n) _ this]

/-- Byte `j` of what an existing pmpcfg `k` reads is the configuration byte of entry `4k + j`. -/
theorem extract_pmpcfgRead (s : State) {k j : Nat} (hk : pmpcfgExists s.cfg.xlen k = true)
    (hj : j < pmpBytesPerReg s.cfg.xlen) : (pmpcfgRead s k).extractLsb' (8 * j) 8 = pmpByte s (4 * k + j) := by
  have h8 : pmpBytesPerReg s.cfg.xlen ≤ 8 := by unfold pmpBytesPerReg; cases s.cfg.xlen <;> decide
  rw [pmpcfgRead, if_pos hk, extract_foldl_orBytes (fun j => pmpByte s (4 * k + j)) _ h8, if_pos hj]

/-! ### Legalisation (R30) -/

/-- A WARL field takes a legal value or keeps its old one, whatever the policy. -/
theorem legalise_mem_or_old (p : WarlPolicy) (legal : List Nat) (old new : Nat) :
    legalise p legal old new ∈ legal ∨ legalise p legal old new = old := by
  unfold legalise
  repeat' split
  all_goals first
    | exact .inl ‹_›
    | exact .inr rfl
    | (rename_i k; by_cases hk : k < legal.length
       · exact .inl (by simp [List.getD_eq_getElem?_getD, hk])
       · exact .inr (by simp [List.getD_eq_getElem?_getD, List.getElem?_eq_none (Nat.le_of_not_lt hk)]))

/-- A legal value is taken, whatever the policy. -/
theorem legalise_of_mem {p : WarlPolicy} {legal : List Nat} {old new : Nat} (h : new ∈ legal) :
    legalise p legal old new = new := by
  simp [legalise, h]

/-! ### Which register a write from below M-mode can reach -/

/-- The registers that a CSR instruction can write below M-mode. -/
def lowerWritable : List Csr :=
  [.fflags, .frm, .fcsr, .sstatus, .sie, .stvec, .scounteren, .sscratch, .sepc, .scause, .stval, .sip, .satp]

/-- A writing access that is permitted below M-mode names one of those registers, or an unimplemented address. -/
theorem lowerWritable_of_permitted {s : State} {a : CsrAddr} {r : Csr} (hp : s.priv ≠ .M)
    (h : csrPermitted s a true = true) (hr : csrImpl s.cfg a = some r) : r ∈ lowerWritable := by
  obtain ⟨hl, hro⟩ := csrPermitted_level h
  replace hro := hro rfl
  replace hl : csrLevel a ≤ 1 := by
    cases hq : s.priv <;> simp_all [privBits]
  obtain ⟨-, rfl, -, -⟩ := csrImpl_some hr
  clear h hp hr
  cases r
  case mhpmevent n => revert hl hro; revert n; decide
  case pmpcfg n => revert hl hro; revert n; decide
  case pmpaddr n => revert hl hro; revert n; decide
  case mhpmcounter n => revert hl hro; revert n; decide
  case mhpmcounterh n => revert hl hro; revert n; decide
  case hpmcounter n => revert hl hro; revert n; decide
  case hpmcounterh n => revert hl hro; revert n; decide
  all_goals first
    | (simp [lowerWritable]; done)
    | (revert hl hro; decide)

end Sys2Proof.Machine
end

