-- ==== Sys2Proof/Laws/PerInstr.lean ====
section
/-! SUPPORT. Statements made per instruction. `TableRow`: the encoding of an instruction matches the mask and pattern of its
row of spec/opcode_table.json, and its low two bits are 11, as those of every 32-bit instruction (30_encoding.md R174). -/

namespace Sys2Proof.Laws

/-- The encoding of `i` matches its row of the opcode table and has 11 in its low two bits. -/
def TableRow.Statement (i : Instr) : Prop := encode i &&& i.row.mask = i.row.pattern ∧ encode i &&& 3#32 = 3#32

/-! ### The fixed bits of the formats -/

/-- A word of the CSR formats keeps funct3 and the opcode under the mask of its row. -/
theorem encodeCsr_fixed (f3 : BitVec 3) (csr : CsrAddr) (src : BitVec 5) (rd : Reg) :
    encodeCsr f3 csr src rd &&& 0x0000707F#32 = f3.setWidth 32 <<< 12 ||| 0x73#32 ∧
    encodeCsr f3 csr src rd &&& 3#32 = 3#32 := by
  constructor <;> ext i hi <;> simp only [encodeCsr, opcodeSystem, BitVec.getElem_and, BitVec.getElem_append] <;>
    interval_cases i <;> simp

/-- A word of the I format keeps funct3 and the opcode under the mask of its row. -/
theorem encodeImm_fixed (f3 : BitVec 3) (imm : BitVec 12) (rs1 rd : Reg) :
    encodeImm f3 imm rs1 rd &&& 0x0000707F#32 = f3.setWidth 32 <<< 12 ||| 0x13#32 ∧
    encodeImm f3 imm rs1 rd &&& 3#32 = 3#32 := by
  constructor <;> ext i hi <;> simp only [encodeImm, opcodeOpImm, BitVec.getElem_and, BitVec.getElem_append] <;>
    interval_cases i <;> simp

/-! ### One lemma per constructor -/

theorem TableRow.csrrw (rd : Reg) (csr : CsrAddr) (src : BitVec 5) : TableRow.Statement (.csrrw rd csr src) := encodeCsr_fixed 1#3 csr src rd

theorem TableRow.csrrs (rd : Reg) (csr : CsrAddr) (src : BitVec 5) : TableRow.Statement (.csrrs rd csr src) := encodeCsr_fixed 2#3 csr src rd

theorem TableRow.csrrc (rd : Reg) (csr : CsrAddr) (src : BitVec 5) : TableRow.Statement (.csrrc rd csr src) := encodeCsr_fixed 3#3 csr src rd

theorem TableRow.csrrwi (rd : Reg) (csr : CsrAddr) (src : BitVec 5) : TableRow.Statement (.csrrwi rd csr src) := encodeCsr_fixed 5#3 csr src rd

theorem TableRow.csrrsi (rd : Reg) (csr : CsrAddr) (src : BitVec 5) : TableRow.Statement (.csrrsi rd csr src) := encodeCsr_fixed 6#3 csr src rd

theorem TableRow.csrrci (rd : Reg) (csr : CsrAddr) (src : BitVec 5) : TableRow.Statement (.csrrci rd csr src) := encodeCsr_fixed 7#3 csr src rd

theorem TableRow.mret : TableRow.Statement (.mret) := ⟨rfl, rfl⟩

theorem TableRow.sret : TableRow.Statement (.sret) := ⟨rfl, rfl⟩

theorem TableRow.wfi : TableRow.Statement (.wfi) := ⟨rfl, rfl⟩

theorem TableRow.ecall : TableRow.Statement (.ecall) := ⟨rfl, rfl⟩

theorem TableRow.ebreak : TableRow.Statement (.ebreak) := ⟨rfl, rfl⟩

theorem TableRow.sfenceVma (rs1 rs2 : Reg) : TableRow.Statement (.sfenceVma rs1 rs2) := by
  constructor <;> ext i hi <;> simp only [encode, Instr.row, opcodeSystem, BitVec.getElem_and, BitVec.getElem_append] <;>
    interval_cases i <;> simp

theorem TableRow.addi (rd rs1 : Reg) (imm : BitVec 12) : TableRow.Statement (.addi rd rs1 imm) := encodeImm_fixed 0#3 imm rs1 rd

theorem TableRow.andi (rd rs1 : Reg) (imm : BitVec 12) : TableRow.Statement (.andi rd rs1 imm) := encodeImm_fixed 7#3 imm rs1 rd

theorem TableRow.ori (rd rs1 : Reg) (imm : BitVec 12) : TableRow.Statement (.ori rd rs1 imm) := encodeImm_fixed 6#3 imm rs1 rd

theorem TableRow.srli (rd rs1 : Reg) (shamt : BitVec 6) : TableRow.Statement (.srli rd rs1 shamt) := by
  constructor <;> ext i hi <;>
    simp only [encode, encodeImm, Instr.row, opcodeOpImm, BitVec.getElem_and, BitVec.getElem_append] <;>
    interval_cases i <;> simp

theorem TableRow.sd (rs2 rs1 : Reg) (imm : BitVec 12) : TableRow.Statement (.sd rs2 rs1 imm) := by
  constructor <;> ext i hi <;> simp only [encode, Instr.row, opcodeStore, BitVec.getElem_and, BitVec.getElem_append] <;>
    interval_cases i <;> simp

end Sys2Proof.Laws
end

