-- ==== Sys2Proof/Tests/Slice0.lean ====
section
/-! SUPPORT. Tests of the model, each on one small state, with the values of the spec's own worked examples; and for every
statement with hypotheses a witness that its hypotheses can be met, clause by clause. -/

namespace Sys2Proof.Tests

open Sys2Proof Sys2Proof.Machine

/-! ### Small states -/

/-- The state after reset in another mode. -/
def inMode (p : Priv) : State := { State.reset with priv := p }

/-- A configuration with XLEN = 32. -/
def rv32 : Config :=
  { Config.ref64 with xlen := .rv32, misa := 0x40140120#64, satpModes := [0, 1], asidLen := 9, ppnLen := 22 }

/-- A state in another configuration. -/
def withCfg (c : Config) (s : State) : State := { s with cfg := c }

/-- The input of a step in which the platform does nothing. -/
def quiet : PlatformInput := ⟨false, false, false, false, 0, 0, [], false⟩

/-- The state with one quiet input to come. -/
def quietly (s : State) : State := { s with inputs := [quiet] }

/-- What is observed of a next state. -/
def observe {α : Type} (f : State → α) : Result → Option α
  | .next t => some (f t)
  | .fault _ => none
  | .refused _ => none

/-! ### WellFormed: each check refuses an ill-formed term -/

theorem test_wf_refuses_sd_on_rv32 : Instr.wf .rv32 (.sd 1 2 0) = false := by decide
theorem test_wf_refuses_srli_32_on_rv32 : Instr.wf .rv32 (.srli 5 5 32) = false := by decide
theorem test_wf_admits_srli_31_on_rv32 : Instr.wf .rv32 (.srli 5 5 31) = true := by decide
theorem test_wf_admits_sd_on_rv64 : Instr.wf .rv64 (.sd 1 2 0) = true := by decide

/-! ### Decoding: words written out from the formats of 30_encoding.md -/

-- The words are those of the worked examples of 40, 41, 42 and of 95_test_vectors.md, group TH.
theorem test_decode_csrrw : decodeWord .rv64 0b001101000000_00010_001_00010_1110011#32 = .instr (.csrrw 2 0x340 2) := by
  decide
theorem test_decode_csrrs : decodeWord .rv64 0b001100000000_00101_010_00000_1110011#32 = .instr (.csrrs 0 0x300 5) := by
  decide
theorem test_decode_csrrc : decodeWord .rv64 0b001100000000_00101_011_00000_1110011#32 = .instr (.csrrc 0 0x300 5) := by
  decide
theorem test_decode_csrrwi : decodeWord .rv64 0x340FD2F3#32 = .instr (.csrrwi 5 0x340 31) := by decide
theorem test_decode_csrrsi : decodeWord .rv64 0x30046073#32 = .instr (.csrrsi 0 0x300 8) := by decide
theorem test_decode_csrrci : decodeWord .rv64 0x300472F3#32 = .instr (.csrrci 5 0x300 8) := by decide
theorem test_decode_mret : decodeWord .rv64 0x30200073#32 = .instr .mret := by decide
theorem test_decode_sret : decodeWord .rv64 0x10200073#32 = .instr .sret := by decide
theorem test_decode_wfi : decodeWord .rv64 0x10500073#32 = .instr .wfi := by decide
theorem test_decode_ecall : decodeWord .rv64 0x00000073#32 = .instr .ecall := by decide
theorem test_decode_ebreak : decodeWord .rv64 0x00100073#32 = .instr .ebreak := by decide
theorem test_decode_sfence : decodeWord .rv64 0b0001001_01011_01010_000_00000_1110011#32 = .instr (.sfenceVma 10 11) := by
  decide
theorem test_decode_addi : decodeWord .rv64 0b111100000000_00010_000_00010_0010011#32 = .instr (.addi 2 2 0xF00) := by
  decide
theorem test_decode_andi : decodeWord .rv64 0x0802F293#32 = .instr (.andi 5 5 128) := by decide
theorem test_decode_ori : decodeWord .rv64 0x0012E293#32 = .instr (.ori 5 5 1) := by decide
theorem test_decode_srli : decodeWord .rv64 0x00B2D293#32 = .instr (.srli 5 5 11) := by decide
theorem test_decode_sd : decodeWord .rv64 0b1111111_00110_00010_011_11000_0100011#32 = .instr (.sd 6 2 0xFF8) := by
  decide

/-- R182 (a): an unlisted SYSTEM pattern is illegal; R182 (b): FENCE is outside the spec. -/
theorem test_decode_unlisted :
    decodeWord .rv64 0x00004073#32 = .illegal ∧ decodeWord .rv64 0x0FF0000F#32 = .outside ∧
    decode .rv64 [0x73, 0x00] = .truncated := by decide

/-- The host's numbering reads the table's word. -/
theorem test_decodeTableWord : decodeTableWord 32 0x30200073 = some .mret ∧ decodeTableWord 32 0x00004073 = none := by
  decide

/-- The rows are those of the opcode table, and no word is two rows'. -/
theorem test_rows_distinct : (opcodeTable.map OpcodeRow.mnemonic).Nodup ∧
    opcodeTable.Pairwise (fun a b => a.pattern &&& b.mask ≠ b.pattern ∨ b.pattern &&& a.mask ≠ a.pattern) := by decide

/-! ### The table of CSRs -/

/-- Every listed CSR. -/
def allCsrs : List Csr :=
  singleCsrs ++ (List.finRange 29).map .mhpmevent ++ (List.finRange 16).map .pmpcfg ++ (List.finRange 64).map .pmpaddr ++
    (List.finRange 29).map .mhpmcounter ++ (List.finRange 29).map .mhpmcounterh ++
    (List.finRange 29).map .hpmcounter ++ (List.finRange 29).map .hpmcounterh

/-- R27: the source lists 281 addresses. -/
theorem test_csr_count : allCsrs.length = 281 := by decide +kernel

/-- R28: REF64 implements 127 of them. -/
theorem test_csr_count_ref64 : (allCsrs.filter (csrExists Config.ref64)).length = 127 := by decide +kernel

/-- R27: addresses the table names one by one. -/
theorem test_csr_addresses :
    csrAt 0x33F = some (.mhpmevent 28) ∧ csrAt 0x3AF = some (.pmpcfg 15) ∧ csrAt 0x3EF = some (.pmpaddr 63) ∧
    csrAt 0xB9F = some (.mhpmcounterh 28) ∧ csrAt 0x321 = none ∧ csrAt 0xB01 = none ∧ csrAt 0x7A9 = none := by decide

/-! ### The CSR instructions: the worked examples of R207 to R212 -/

theorem test_csrrw_swaps :
    observe (fun t => (readX t 2, t.mscratch, t.pc))
      (exec (.csrrw 2 0x340 2) { setX State.reset 2 0x80001000 with mscratch := 0x80FFF000 }) =
    some (0x80FFF000, 0x80001000, 0x80000004) := by decide
theorem test_csrrs_sets_mie :
    observe (fun t => csrRead t 0x300) (exec (.csrrs 0 0x300 5) { setX State.reset 5 0x8 with mstatus := 0 }) =
    some 0x0000000A00000008 := by decide
theorem test_csrrc_clears_mpp :
    observe (fun t => csrRead t 0x300) (exec (.csrrc 0 0x300 5) { setX State.reset 5 0x1800 with mstatus := 0x1808 }) =
    some 0x0000000A00000008 := by decide
theorem test_csrrwi_writes :
    observe (fun t => (readX t 5, t.mscratch)) (exec (.csrrwi 5 0x340 31) { State.reset with mscratch := ~~~0 }) =
    some (0xFFFFFFFFFFFFFFFF, 0x1F) := by decide
theorem test_csrrsi_sets_mie :
    observe (fun t => csrRead t 0x300) (exec (.csrrsi 0 0x300 8) { State.reset with mstatus := 0 }) =
    some 0x0000000A00000008 := by decide
theorem test_csrrci_clears_mie :
    observe (fun t => (readX t 5, csrRead t 0x300)) (exec (.csrrci 5 0x300 8) { State.reset with mstatus := 0x88 }) =
    some (0x0000000A00000088, 0x0000000A00000080) := by decide

/-- R203: `csrr t0, mhartid` does not trap though the address is read-only. -/
theorem test_csrrs_x0_reads_read_only :
    observe (fun t => (readX t 5, t.priv, t.pc)) (exec (.csrrs 5 0xF14 0) (setX State.reset 5 7)) =
    some (0, .M, 0x80000004) := by decide

/-- R290, worked example: `csrr t0, mstatus` from U-mode. -/
theorem test_csr_privilege_trap :
    observe (fun t => (t.mepc, t.mcause, t.mtval, t.mstatus, t.priv, t.pc))
      (exec (.csrrs 5 0x300 0) { inMode .U with mstatus := 0x8, mtvec := 0x80000400, pc := 0x80001000 }) =
    some (0x80001000, 2, 0x300022F3, 0x80, .M, 0x80000400) := by decide

/-! ### The system instructions: the worked examples of R230 to R235 -/

theorem test_mret :
    observe (fun t => (t.priv, t.pc, t.mstatus)) (exec .mret { State.reset with mstatus := 0x880, mepc := 0x80000100 }) =
    some (.S, 0x80000100, 0x88) := by decide
theorem test_mret_below_m : observe (fun t => (t.priv, t.mcause)) (exec .mret (inMode .S)) = some (.M, 2) := by decide
theorem test_sret :
    observe (fun t => (t.priv, t.pc, t.mstatus)) (exec .sret { inMode .S with mstatus := 0x120, sepc := 0x80002000 }) =
    some (.S, 0x80002000, 0x22) := by decide
theorem test_sret_tsr :
    observe (fun t => (t.priv, t.mcause)) (exec .sret { inMode .S with mstatus := 0x400000 }) = some (.M, 2) := by decide
theorem test_wfi_tw :
    observe (fun t => (t.mcause, t.mtval, t.mepc))
      (exec .wfi { inMode .S with mstatus := 0x200000, pc := 0x80000010 }) = some (2, 0x10500073, 0x80000010) := by decide
theorem test_wfi_stalls :
    observe (fun t => (t.waiting, t.pc)) (exec .wfi { State.reset with stallDraw := true }) = some (true, 0x80000004) := by
  decide
theorem test_ecall_from_u :
    observe (fun t => (t.mcause, t.mepc, t.mtval, mstatusMPP t.mstatus)) (exec .ecall { inMode .U with pc := 0x80000020 }) =
    some (8, 0x80000020, 0, 0) := by decide
theorem test_ecall_delegated :
    observe (fun t => (t.scause, t.priv, mstatusSPP t.mstatus)) (exec .ecall { inMode .U with medeleg := 0x100 }) =
    some (8, .S, false) := by decide
theorem test_ebreak :
    observe (fun t => (t.mcause, t.mepc, t.mtval, mstatusMPP t.mstatus))
      (exec .ebreak { State.reset with pc := 0x80000030 }) = some (3, 0x80000030, 0x80000030, 3) := by decide
theorem test_sfence :
    observe (fun t => (t.pc, t.tlb)) (exec (.sfenceVma 0 0) { inMode .S with pc := 0x80000040, tlb := [⟨0x1000, 1⟩] }) =
    some (0x80000044, []) := by decide
theorem test_sfence_one_page :
    observe (fun t => t.tlb)
      (exec (.sfenceVma 10 0) { setX State.reset 10 0x1FFC with tlb := [⟨0x1000, 1⟩, ⟨0x2000, 1⟩] }) =
    some [⟨0x2000, 1⟩] := by decide

/-! ### The base instructions: the worked examples of R250 to R254 -/

theorem test_addi :
    observe (fun t => readX t 2) (exec (.addi 2 2 0xF00) (setX State.reset 2 0x80010000)) = some 0x8000FF00 := by decide
theorem test_addi_wraps_rv32 :
    observe (fun t => readX t 5) (exec (.addi 5 5 1) (setX (withCfg rv32 State.reset) 5 0xFFFFFFFF)) = some 0 := by decide
theorem test_andi : observe (fun t => readX t 5) (exec (.andi 5 5 128) (setX State.reset 5 0xA80)) = some 0x80 := by decide
theorem test_ori :
    observe (fun t => readX t 5) (exec (.ori 5 5 1) (setX State.reset 5 0x80000400)) = some 0x80000401 := by decide
theorem test_srli :
    observe (fun t => readX t 5) (exec (.srli 5 5 11) (setX State.reset 5 0x0000000A00001800)) = some 0x01400003 := by
  decide
theorem test_sd :
    observe (fun t => t.mem) (exec (.sd 1 2 0) (setX (setX State.reset 2 0x8000FF00) 1 0x1122334455667788)) =
    some [(0x8000FF00, 0x88), (0x8000FF01, 0x77), (0x8000FF02, 0x66), (0x8000FF03, 0x55),
          (0x8000FF04, 0x44), (0x8000FF05, 0x33), (0x8000FF06, 0x22), (0x8000FF07, 0x11)] := by decide
theorem test_sd_misaligned :
    observe (fun t => (t.mcause, t.mtval, t.mem)) (exec (.sd 1 2 4) (setX State.reset 2 0x80000000)) =
    some (6, 0x80000004, []) := by decide

/-! ### The step -/

/-- The first step after reset runs the instruction loaded at pc: `addi t0, x0, 0x88` (R256). -/
theorem test_step_runs_loaded_word :
    observe (fun t => (readX t 5, t.pc, t.minstret)) (step (quietly (State.reset.withFetchWord 32 0x08800293))) =
    some (0x88, 0x80000004, 1) := by decide

/-- R286 and R291, worked examples: a machine timer interrupt under a vectored mtvec. -/
theorem test_step_takes_interrupt :
    observe (fun t => (t.mcause, t.pc, t.mepc))
      (step { State.reset with
        mstatus := 0x8, mie := 0x880, mtvec := 0x80000401, inputs := [{ quiet with mtip := true }] }) =
    some (0x8000000000000007, 0x8000041C, 0x80000000) := by decide

/-- R232: a waiting hart with nothing pending stays where it is. -/
theorem test_step_waits :
    observe (fun t => (t.waiting, t.pc)) (step (quietly { State.reset with waiting := true })) =
    some (true, 0x80000000) := by decide

/-- R182 (a): an illegal SYSTEM word raises IllegalInstruction with the word as trap value. -/
theorem test_step_illegal_word :
    observe (fun t => (t.mcause, t.mtval)) (step (quietly (State.reset.withFetchWord 32 0x00004073))) =
    some (2, 0x00004073) := by decide

/-- R160: a word the run has stored to is not fetched; R182 (b): a word outside the spec is refused. -/
theorem test_step_refusals :
    step (quietly { State.reset.withFetchWord 32 0x08800293 with stored := [0x80000002] }) = .refused .modifiedCode ∧
    step (quietly (State.reset.withFetchWord 32 0x0FF0000F)) = .refused .outsideSpec := ⟨rfl, rfl⟩

/-- I47b: the fetch of bytes that nothing has written answers the free values their addresses hold at reset. -/
theorem test_fetch_unwritten :
    fetch State.reset = .bytes ([0x80000000, 0x80000001, 0x80000002, 0x80000003].map Config.memoryAtReset) := rfl

/-- R30: a chip that maps illegal values elsewhere, each field on its own: MPP = 2 to M, mtvec.MODE = 2 to 0. -/
theorem test_legalisation_per_field :
    let warl := { WarlPolicies.keepOld with mpp := .legalEntry 2, mtvecMode := .byTable [⟨1, 2, 0⟩] }
    let s := { withCfg { Config.ref64 with warl := warl } State.reset with mtvec := 1, stvec := 1 }
    mstatusMPP (csrWrite s 0x300 0x1000).mstatus = 3 ∧ (csrWrite s 0x305 0x80000402).mtvec = 0x80000400 ∧
    (csrWrite s 0x105 0x80000402).stvec = 0x80000401 := by decide

/-! ### Witnesses: the hypotheses of every statement can be met, clause by clause, at boundary values -/

/-- A result that shows something is a next state. -/
theorem completes_of_observe {α : Type} {f : State → α} {r : Result} {a : α} (h : observe f r = some a) :
    Completes r := by
  cases r with
  | next t => exact ⟨t, rfl⟩
  | fault _ => simp [observe] at h
  | refused _ => simp [observe] at h

theorem witness_DecodeOfEncodeIsIdentity :
    Instr.wf .rv64 (.srli 5 5 63) = true ∧ Instr.wf .rv32 (.srli 5 5 31) = true ∧ Instr.wf .rv64 (.sd 31 31 0x800) = true ∧
    Instr.wf .rv32 (.csrrw 0 0xFFF 31) = true := by decide

theorem witness_EncodeOfDecodeIsIdentity :
    decode .rv32 [0x93, 0xD2, 0xF2, 0x01] = .instr (.srli 5 5 31) ∧
    decode .rv64 [0x93, 0xD2, 0xF2, 0x03, 0xFF] = .instr (.srli 5 5 63) := by decide

theorem witness_DecodeFollowsOpcodeTable :
    Instr.row .mret ∈ opcodeTable ∧ 0x30200073#32 &&& (Instr.row .mret).mask = (Instr.row .mret).pattern ∧
    0x30200074#32 &&& (Instr.row .mret).mask ≠ (Instr.row .mret).pattern := by decide

theorem witness_UnlistedWordsIllegalOrOutside :
    (withCfg rv32 State.reset).cfg.xlen = .rv32 ∧ 32 ≤ (32#6).toNat ∧ 32 ≤ (63#6).toNat := by decide

theorem witness_CsrAccessByLevelAndKind :
    (csrNamed (.csrrs 5 0x100 0) = some 0x100 ∧ (privBits (inMode .U).priv).toNat < ((0x100#12).extractLsb' 8 2).toNat) ∧
    (csrNamed (.csrrwi 5 0x200 0) = some 0x200 ∧
      (privBits (inMode .S).priv).toNat < ((0x200#12).extractLsb' 8 2).toNat) ∧
    (csrNamed (.csrrw 0 0xC00 1) = some 0xC00 ∧ csrWrites (.csrrw 0 0xC00 1) = true ∧
      (0xC00#12).extractLsb' 10 2 = 0b11#2) ∧
    (csrNamed (.csrrw 5 0x140 1) = some 0x140 ∧
      ((0x140#12).extractLsb' 8 2).toNat ≤ (privBits (inMode .S).priv).toNat ∧
      ¬ (csrWrites (.csrrw 5 0x140 1) = true ∧ (0x140#12).extractLsb' 10 2 = 0b11#2) ∧
      csrImpl (inMode .S).cfg 0x140 = some .sscratch ∧ csrGate (inMode .S) 0x140 true .sscratch = true ∧
      misaWriteOpen (inMode .S) 0x140 true = false) := by decide

theorem witness_UnimplementedCsrTrapsOrReadsZero :
    csrNamed (.csrrs 5 0x321 0) = some 0x321 ∧ csrImpl Config.ref64 0x321 = none ∧
    unimplReadsZero Config.ref64 0x321 = false ∧
    csrImpl { Config.ref64 with unimplCsr := .zero } 0x321 = none ∧
    unimplReadsZero { Config.ref64 with unimplCsr := .zero } 0x321 = true ∧
    unimplReadsZero { Config.ref64 with unimplCsr := .zeroAt [0x321] } 0x321 = true ∧
    csrGateAt State.reset 0x321 false = true ∧
    (csrImpl { Config.ref64 with absent := [0x7B0] } 0x7B0 = none ∧ csrGateAt State.reset 0x7B0 false = false) ∧
    ((0x321#12).extractLsb' 8 2).toNat ≤ (privBits State.reset.priv).toNat ∧
    ¬ (csrWrites (.csrrs 5 0x321 0) = true ∧ (0x321#12).extractLsb' 10 2 = 0b11#2) := by decide

theorem witness_DebugCsrTrapsOutsideDebugMode :
    csrNamed (.csrrs 5 0x7B0 0) = some 0x7B0 ∧ csrNamed (.csrrw 5 0x7B3 0) = some 0x7B3 ∧ State.reset.debugMode = false := by
  decide

theorem witness_FloatCsrsGatedByFS :
    csrNamed (.csrrs 5 0x001 0) = some 0x001 ∧ csrNamed (.csrrwi 0 0x003 31) = some 0x003 ∧
    csrImpl Config.ref64 0x001 ≠ none ∧ csrImpl Config.ref64 0x003 ≠ none ∧
    mstatusFS 0#64 = 0#2 ∧ mstatusFS State.reset.mstatus ≠ 0#2 ∧
    csrWrites (.csrrs 5 0x001 0) = false ∧ csrWrites (.csrrwi 0 0x003 31) = true := by decide

theorem witness_CounterEnableCheck :
    (csrNamed (.csrrs 5 0xC00 0) = some 0xC00 ∧ csrWrites (.csrrs 5 0xC00 0) = false) ∧
    (csrImpl Config.ref64 0xC00 ≠ none ∧ csrImpl Config.ref64 0xC1F ≠ none ∧
      csrImpl rv32 0xC80 ≠ none ∧ csrImpl rv32 0xC9F ≠ none) ∧
    ((inMode .S).priv = .S ∧ (inMode .S).mcounteren.getLsbD 0 = false) ∧
    ({ inMode .U with mcounteren := 0x80000000 }.mcounteren.getLsbD 31 = true ∧ hasS (inMode .U).cfg = true ∧
      (inMode .U).scounteren.getLsbD 31 = false) ∧
    (State.reset.priv ≠ .S ∧ State.reset.priv ≠ .U) := by decide

theorem witness_TvmTrapsSatpAccess :
    csrNamed (.csrrs 5 0x180 0) = some 0x180 ∧ csrImpl Config.ref64 0x180 ≠ none ∧ (inMode .S).priv ≠ .U ∧
    (mstatusTVM 0x100000#64 = true ∧ Config.ref64.tvmTrapsReads = true) ∧
    mstatusTVM (inMode .S).mstatus = false := by decide

theorem witness_CsrrwSwapsCsr :
    csrPermitted State.reset 0x340 true = true ∧ misaWriteOpen State.reset 0x340 true = false ∧
    csrPermitted (inMode .U) 0x340 true = false ∧ csrPermitted State.reset 0xC00 true = false := by decide

theorem witness_CsrrsSetsBits :
    csrPermitted State.reset 0x300 ((5#5) != 0#5) = true ∧ misaWriteOpen State.reset 0x300 ((5#5) != 0#5) = false ∧
    csrPermitted State.reset 0xF14 ((0#5) != 0#5) = true ∧ csrPermitted State.reset 0xF14 ((1#5) != 0#5) = false ∧
    csrImpl State.reset.cfg 0x300 ≠ some .mip := by decide

theorem witness_CsrrcClearsBits :
    csrPermitted State.reset 0x304 ((5#5) != 0#5) = true ∧ misaWriteOpen State.reset 0x304 ((5#5) != 0#5) = false ∧
    csrPermitted State.reset 0xC02 ((0#5) != 0#5) = true ∧ csrPermitted (inMode .S) 0x304 ((5#5) != 0#5) = false ∧
    csrImpl State.reset.cfg 0x304 ≠ some .mip := by decide

theorem witness_CsrrwiWritesImmediate :
    csrPermitted State.reset 0xB02 true = true ∧ misaWriteOpen State.reset 0xB02 true = false ∧
    namesMinstret State.reset 0xB02 = true ∧ csrPermitted (inMode .U) 0xB02 true = false := by decide

theorem witness_CsrrsiSetsImmediateBits :
    csrPermitted (inMode .S) 0x100 ((31#5) != 0#5) = true ∧ misaWriteOpen (inMode .S) 0x100 ((31#5) != 0#5) = false ∧
    csrPermitted (inMode .U) 0x100 ((0#5) != 0#5) = false ∧ csrImpl State.reset.cfg 0x100 ≠ some .mip := by decide

theorem witness_CsrrciClearsImmediateBits :
    csrPermitted (inMode .S) 0x104 ((1#5) != 0#5) = true ∧ misaWriteOpen (inMode .S) 0x104 ((1#5) != 0#5) = false ∧
    csrPermitted (inMode .U) 0x104 ((0#5) != 0#5) = false ∧ csrImpl State.reset.cfg 0x104 ≠ some .mip := by decide

theorem witness_MisaWriteRefusedOrIgnored :
    csrNamed (.csrrwi 0 0x301 0) = some 0x301 ∧ csrWrites (.csrrwi 0 0x301 0) = true ∧ State.reset.priv = .M ∧
    csrImpl Config.ref64 0x301 ≠ none ∧ Config.ref64.misaWritable = false ∧
    csrImpl { Config.ref64 with misaWritable := true } 0x301 ≠ none := by decide

theorem witness_MstatusReadAndWrite :
    (Config.ref64.xlen = .rv64 ∧ rv32.xlen = .rv32 ∧ csrImpl rv32 0x300 = some .mstatus) ∧
    Config.ref64.modes = .msu ∧ Config.ref64.hasF = true ∧ Config.ref64.warl.mpp = .keepOld ∧
    0x7E79AA#64 &&& ~~~0x7E79AA#64 = 0#64 ∧ csrImpl Config.ref64 0x300 = some .mstatus ∧
    (0x1800#64).extractLsb' 11 2 ≠ 2#2 ∧ (0x1000#64).extractLsb' 11 2 = 2#2 := by decide

theorem witness_SstatusIsViewOfMstatus :
    csrImpl Config.ref64 0x100 = some .sstatus ∧ csrImpl rv32 0x100 = some .sstatus ∧
    csrImpl Config.ref64 0x300 = some .mstatus ∧ csrImpl rv32 0x300 = some .mstatus ∧ rv32.hasF = true ∧
    (mstatusMPP 0x1800#64).toNat ∈ modeEncodings Config.ref64 := by decide

theorem witness_SieAndSipAreDelegatedViews :
    csrImpl Config.ref64 0x104 = some .sie ∧ csrImpl Config.ref64 0x144 = some .sip ∧
    (0x222#64).getLsbD 1 = true ∧ State.reset.mideleg.getLsbD 1 = false := by decide

theorem witness_MipWritesSoftwareBitsOnly :
    csrImpl Config.ref64 0x344 = some .mip ∧ 0x222#64 &&& ~~~0x222#64 = 0#64 ∧ State.reset.priv = .M ∧ (1#5) ≠ 0#5 ∧
    (31#5) ≠ 0#5 := by decide

theorem witness_TvecWriteKeepsLegalMode :
    Config.ref64.warl.mtvecMode = .keepOld ∧ Config.ref64.warl.stvecMode = .keepOld ∧
    Config.ref64.mtvecModes = [0, 1] ∧ csrImpl Config.ref64 0x305 = some .mtvec ∧
    csrImpl Config.ref64 0x105 = some .stvec := by decide

theorem witness_SatpWriteLegalises :
    csrImpl Config.ref64 0x180 = some .satp ∧ csrImpl rv32 0x180 = some .satp ∧
    Config.ref64.xlen = .rv64 ∧ rv32.xlen = .rv32 ∧
    ((0x80000000#64).extractLsb' 31 1).toNat ∈ rv32.satpModes ∧
    ((0x80000000#64).extractLsb' 31 1).toNat ∉ { rv32 with satpModes := [0] }.satpModes ∧
    ((0xA000000000000000#64).extractLsb' 60 4).toNat ∈ Config.ref64.satpModes ∧
    ((0xB000000000000000#64).extractLsb' 60 4).toNat ∉ Config.ref64.satpModes := by decide

theorem witness_FcsrViews :
    csrImpl Config.ref64 0x001 = some .fflags ∧ csrImpl Config.ref64 0x002 = some .frm ∧
    csrImpl Config.ref64 0x003 = some .fcsr := by decide

theorem witness_MaskedCsrWrites :
    Config.ref64.modes = .msu ∧ csrImpl { Config.ref64 with modes := .m } 0x304 = some .mie ∧
    csrImpl Config.ref64 0x302 = some .medeleg ∧ csrImpl Config.ref64 0x303 = some .mideleg ∧
    csrImpl Config.ref64 0x304 = some .mie ∧ csrImpl Config.ref64 0x306 = some .mcounteren ∧
    csrImpl Config.ref64 0x106 = some .scounteren ∧ csrImpl Config.ref64 0x320 = some .mcountinhibit ∧
    Config.ref64.numHpm = 0 ∧ csrImpl Config.ref64 0x341 = some .mepc ∧ csrImpl Config.ref64 0x141 = some .sepc ∧
    (∀ r ∈ [Csr.mscratch, .sscratch, .mcause, .scause, .mtval, .stval, .mtinst, .mtval2],
      csrImpl { Config.ref64 with hasHtrap := true } (csrAddr r) = some r) := by decide

theorem witness_TriggerSelection :
    let c := { Config.ref64 with numTriggers := 2 }
    c.warl.tselect = .keepOld ∧ c.numTriggers ≤ 2 ^ 32 ∧ (1#64).toNat < c.numTriggers ∧ ¬ (2#64).toNat < c.numTriggers ∧
    csrImpl c 0x7A0 = some .tselect ∧ (1 : Nat) ≠ State.reset.tselect.toNat := by decide

theorem witness_CountersAndShadows :
    (Config.ref64.xlen = .rv64 ∧ csrImpl Config.ref64 0xB00 = some .mcycle ∧
      csrImpl Config.ref64 0xB02 = some .minstret) ∧
    (rv32.xlen = .rv32 ∧ csrImpl rv32 0xB00 = some .mcycle ∧ csrImpl rv32 0xB80 = some .mcycleh ∧
      csrImpl rv32 0xB02 = some .minstret ∧ csrImpl rv32 0xB82 = some .minstreth ∧
      csrImpl rv32 (csrAddr (.mhpmcounter 28)) = some (.mhpmcounter 28) ∧
      csrImpl rv32 (csrAddr (.mhpmcounterh 28)) = some (.mhpmcounterh 28) ∧
      csrImpl rv32 0xC80 = some .cycleh ∧ csrImpl rv32 0xC81 = some .timeh ∧ csrImpl rv32 0xC82 = some .instreth) ∧
    (28 : Fin 29).val < { rv32 with numHpm := 29 }.numHpm ∧
    csrImpl Config.ref64 (csrAddr (.mhpmevent 28)) = some (.mhpmevent 28) ∧
    csrImpl rv32 (csrAddr (.mhpmevent 0)) = some (.mhpmevent 0) ∧
    csrImpl Config.ref64 0xC00 = some .cycle ∧ csrImpl Config.ref64 0xC01 = some .time ∧
    csrImpl Config.ref64 0xC02 = some .instret := by decide

theorem witness_ReadOnlyRegistersIgnoreWrites :
    Config.ref64.numHpm ≤ (0 : Fin 29).val ∧ { Config.ref64 with numHpm := 28 }.numHpm ≤ (28 : Fin 29).val ∧
    { Config.ref64 with pmpEntries := 63 }.pmpEntries ≤ (63 : Fin 64).val ∧
    (14 : Fin 16).val = 2 * ((63 : Fin 64).val / 8) ∧ (15 : Fin 16).val = (63 : Fin 64).val / 4 := by decide

theorem witness_PmpEntryByteLayout :
    let c := { Config.ref64 with pmpEntries := 64 }
    (63 : Fin 64).val < c.pmpEntries ∧ c.xlen = .rv64 ∧ (14 : Fin 16).val = 2 * ((63 : Fin 64).val / 8) ∧
    { c with xlen := .rv32 }.xlen = .rv32 ∧ (15 : Fin 16).val = (63 : Fin 64).val / 4 ∧
    (55 : Fin 64).val / 8 ≠ (63 : Fin 64).val / 8 ∧ (59 : Fin 64).val / 4 ≠ (63 : Fin 64).val / 4 := by decide

theorem witness_CsrWriteFrame :
    mayAffect .mstatus .mie = false ∧ mayAffect (.pmpaddr 0) (.pmpaddr 1) = false ∧ mayAffect .sip .mie = false ∧
    mayAffect (.pmpcfg 0) (.pmpcfg 2) = false := by decide

theorem witness_MretReturns :
    (inMode .S).priv ≠ .M ∧ State.reset.priv = .M ∧
    (mstatusMPP 0x1800#64 = privBits .M ∧ mstatusMPP 0x800#64 = privBits .S ∧ mstatusMPP 0#64 = privBits .U) ∧
    mstatusMPP 0x1000#64 = 2#2 := by decide

theorem witness_SretReturns :
    ((inMode .U).priv = .U ∧ hasS { Config.ref64 with modes := .mu } = false ∧ mstatusTSR 0x400000#64 = true) ∧
    (hasS (inMode .S).cfg = true ∧ (inMode .S).priv ≠ .U ∧ mstatusTSR (inMode .S).mstatus = false) := by decide

theorem witness_WfiRetiresAndMayStall :
    ((inMode .U).priv = .U ∧ hasS (inMode .U).cfg = true ∧ (inMode .S).priv ≠ .M ∧ mstatusTW 0x200000#64 = true) ∧
    ((inMode .S).priv ≠ .U ∧ mstatusTW (inMode .S).mstatus = false) := by decide

theorem witness_WaitingHartWakesOnPendingInterrupt :
    (quietly { State.reset with waiting := true }).waiting = true ∧
    (mipRead (moveAgents (quietly { State.reset with waiting := true })) &&&
      (moveAgents (quietly { State.reset with waiting := true })).mie = 0#64) ∧
    mipRead (moveAgents (quietly { State.reset with waiting := true, mie := 0x2, mipSw := 0x2 })) &&& 0x2#64 ≠ 0#64 := by
  decide

theorem witness_EcallAndEbreakRaise :
    (inMode .U).priv = .U ∧ (inMode .S).priv = .S ∧ State.reset.priv = .M ∧ Config.ref64.mtvalEbreak = .pc ∧
    { Config.ref64 with mtvalEbreak := .zero }.mtvalEbreak = .zero := by decide

theorem witness_SfenceVmaFlushes :
    ((inMode .U).priv = .U ∧ mstatusTVM 0x100000#64 = true ∧ hasS { Config.ref64 with modes := .m } = false) ∧
    (hasS (inMode .S).cfg = true ∧ (inMode .S).priv ≠ .U ∧ mstatusTVM (inMode .S).mstatus = false) := by decide

theorem witness_AddiAddsModuloXlen :
    (readX (setX (withCfg rv32 State.reset) 5 0xFFFFFFFF) 5).toNat < 2 ^ xlenBits rv32.xlen ∧
    (readX (setX State.reset 5 (~~~0)) 5).toNat < 2 ^ xlenBits Config.ref64.xlen := by decide

theorem witness_SrliShiftsRight :
    (31#6).toNat < xlenBits rv32.xlen ∧ (63#6).toNat < xlenBits Config.ref64.xlen ∧
    (readX State.reset 5).toNat < 2 ^ xlenBits State.reset.cfg.xlen := by decide

theorem witness_SdStoresEightBytes :
    let s := setX State.reset 2 0x800FFFF8
    s.cfg.xlen = .rv64 ∧ (storeAddress s 2 0).toNat % 8 = 0 ∧ dataPriv s = some .M ∧ translationActive s .M = false ∧
    pmpAllows s (storeAddress s 2 0) 8 .store .M = true ∧ memoryAnswers s.cfg (storeAddress s 2 0) 8 = true ∧
    { Config.ref64 with misaligned := .emulate }.misaligned = .emulate := by decide

theorem witness_SdTrapsAndRefusals :
    let s := setX State.reset 2 0x80100000
    (s.cfg.misaligned = .trap ∧ (storeAddress s 2 1).toNat % 8 ≠ 0) ∧
    ((storeAddress s 2 0).toNat % 8 = 0 ∧ dataPriv s = some .M ∧ translationActive s .M = false ∧
      memoryAnswers s.cfg (storeAddress s 2 0) 8 = false) ∧
    (dataPriv { inMode .S with satp := 0x8000000000000000 } = some .S ∧
      translationActive { inMode .S with satp := 0x8000000000000000 } .S = true) ∧
    dataPriv { s with mstatus := 0x21000 } = none := by decide

theorem witness_MemWriteIsLittleEndian :
    8 ≤ 8 ∧ (0xFFFFFFFFFFFFFFFF#64).toNat < 2 ^ xlenBits .rv64 ∧ (0xFFFFFFFF#64).toNat < 2 ^ xlenBits .rv32 ∧
    Memory.wf [(1, 0), (2, 0)] := by decide

theorem witness_TrapEntry : (0 : Nat) < 16 ∧ (15 : Nat) < 16 := by decide

theorem witness_TrapTargetByDelegation :
    trapTarget { inMode .U with medeleg := 0x100 } false 8 = .S ∧ trapTarget (inMode .S) true 9 = .M := by decide

theorem witness_HandlerAddress :
    (0x80000401#64).toNat < 2 ^ xlenBits .rv32 ∧ (0x80000401#64).toNat % 4 = 1 ∧ (0x80000403#64).toNat % 4 ≠ 1 := by decide

theorem witness_InterruptSelection :
    interruptTaken { State.reset with mstatus := 8, mie := 0x880, mtip := true } = some (.machineTimer, .M) ∧
    interruptTaken { inMode .U with mie := 0x22, mipSw := 0x22, mideleg := 0x22 } = some (.supervisorSoftware, .S) ∧
    interruptTaken State.reset = none := by decide

theorem witness_StepRunsDecodedInstruction :
    let s' := wake (moveAgents (quietly (State.reset.withFetchWord 32 0x08800293)))
    s'.waiting = false ∧ interruptTaken s' = none ∧ fetch s' = .bytes [0x93, 0x02, 0x80, 0x08] ∧
    decode s'.cfg.xlen [0x93, 0x02, 0x80, 0x08] = .instr (.addi 5 0 0x88) ∧
    Instr.wf s'.cfg.xlen (.addi 5 0 0x88) = true := by decide

theorem witness_StepOnOtherWords :
    let s' (w : Nat) := wake (moveAgents (quietly (State.reset.withFetchWord 32 w)))
    ((s' 0x4073).waiting = false ∧ interruptTaken (s' 0x4073) = none ∧
      fetch (s' 0x4073) = .bytes (bytesOfWord 0x4073) ∧ decodeWord .rv64 0x4073 = .illegal) ∧
    (fetch (s' 0x0FF0000F) = .bytes (bytesOfWord 0x0FF0000F) ∧ decodeWord .rv64 0x0FF0000F = .outside) ∧
    (let t := wake (moveAgents (quietly { State.reset with pc := 0x80100000 }))
     t.waiting = false ∧ interruptTaken t = none ∧ fetch t = .raises .instructionAccessFault) ∧
    fetch (wake (moveAgents (quietly { inMode .S with satp := 0x8000000000000000 }))) = .refused .translatedAccess := by
  decide

theorem witness_StepTakesInterruptBeforeFetch :
    let s' := wake (moveAgents
      { State.reset with mstatus := 0x8, mie := 0x880, inputs := [{ quiet with mtip := true }] })
    s'.waiting = false ∧ interruptTaken s' = some (.machineTimer, .M) := by decide

theorem witness_FetchOutcomes :
    (translationActive { inMode .S with satp := 0x8000000000000000 } .S = true) ∧
    (let s := { State.reset with pc := 0x80100000 }
     translationActive s s.priv = false ∧ memoryAnswers s.cfg s.pc 4 = false) ∧
    (let s := { State.reset.withFetchWord 32 0x08800293 with stored := [0x80000003] }
     translationActive s s.priv = false ∧ pmpAllows s s.pc 4 .fetch s.priv = true ∧
       memoryAnswers s.cfg s.pc 4 = true ∧ 0x80000003 ∈ fetchAddrs s) ∧
    (let s := State.reset.withFetchWord 32 0x08800293
     memoryAnswers s.cfg s.pc 4 = true ∧ (∀ a ∈ fetchAddrs s, a ∉ s.stored) ∧ memRead s.mem (byteAddr s.cfg.xlen s.pc 0) = some 0x93 ∧
       memRead s.mem (byteAddr s.cfg.xlen s.pc 1) = some 0x02 ∧
       memRead s.mem (byteAddr s.cfg.xlen s.pc 2) = some 0x80 ∧
       memRead s.mem (byteAddr s.cfg.xlen s.pc 3) = some 0x08) := by decide

theorem witness_AgentsMoveCountersAndWires :
    (0 : Fin 29).val < { Config.ref64 with numHpm := 1 }.numHpm ∧
    { Config.ref64 with numHpm := 1 }.numHpm ≤ (1 : Fin 29).val := by decide

theorem witness_ResetState :
    csrImpl State.reset.cfg 0x001 = some .fflags ∧ Csr.fflags ∉ [Csr.dcsr, .dpc, .dscratch0, .dscratch1] := by decide

theorem witness_ImplementedCsrs :
    (csrImpl Config.ref64 0x300 = some .mstatus ∧ csrImpl Config.ref64 0xB80 = none ∧ csrImpl rv32 0xB80 = some .mcycleh) ∧
    csrImpl { Config.ref64 with absent := [0x306] } 0x306 = none := by decide

theorem witness_AccessChecks :
    (mstatusMPRV State.reset.mstatus = false ∧ mstatusMPRV 0x20000#64 = true ∧ mstatusMPP 0x20800#64 = privBits .S) ∧
    (translationActive { inMode .S with satp := 0x8000000000000000 } .S = true ∧
      translationActive { inMode .S with satp := 0x8000000000000000 } .M = false) ∧
    (0x800FFFF8#64).toNat < 2 ^ xlenBits Config.ref64.xlen ∧ memoryAnswers Config.ref64 0x800FFFF8 8 = true ∧
    memoryAnswers Config.ref64 0x800FFFF9 8 = false := by decide

/-- The state after reset with a program word loaded, which the next two witnesses step from. -/
def loaded (w : Nat) (s : State) : State := quietly (s.withFetchWord 32 w)

theorem loaded_inv : Inv (loaded 0x08800293 State.reset) ∧ WidthInv (loaded 0x08800293 State.reset) := by
  refine ⟨?_, ?_⟩
  · constructor
    case config =>
      constructor
      case resetVector => exact ⟨rfl, rfl⟩
      case constants => exact ⟨rfl, rfl, rfl, rfl, rfl⟩
      case tinfo => exact fun v hv => absurd hv List.not_mem_nil
      all_goals decide
    all_goals decide
  · constructor <;> first | rfl | exact fun _ => rfl | exact fun t ht => absurd ht List.not_mem_nil

theorem witness_StepKeepsInvariant :
    ∃ s t, Inv s ∧ WidthInv s ∧ step s = .next t := by
  obtain ⟨t, ht⟩ := completes_of_observe test_step_runs_loaded_word
  exact ⟨_, t, loaded_inv.1, loaded_inv.2, ht⟩

theorem witness_OnlyReturnsLowerPrivilege :
    observe (fun t => t.priv) (step (loaded 0x30200073 State.reset)) = some .U := by decide

theorem witness_LowerModesCannotChangeMachineState :
    observe (fun t => (t.priv, t.sscratch)) (exec (.csrrwi 0 0x140 31) (inMode .S)) = some (.S, 31) ∧ (inMode .S).priv ≠ .M ∧
    (mstatusMPP (inMode .S).mstatus).toNat ∈ modeEncodings (inMode .S).cfg := by decide

end Sys2Proof.Tests
end

