-- ==== Sys2Proof/Proofs/DelegatedViews.lean ====
section
/-! PROOF. sie and sip as views of mie and mip through mideleg (10_state.md R75, R82). -/

namespace Sys2Proof.Proofs

open Sys2Proof Sys2Proof.Machine

/-! ### Access by address goes to the register implemented there (R201) -/

theorem csrRead_of_csrImpl {s : State} {a : CsrAddr} {r : Csr} (h : csrImpl s.cfg a = some r) :
    csrRead s a = readCsr s r := by
  simp only [csrRead, h]

theorem csrWrite_of_csrImpl {s : State} {a : CsrAddr} {r : Csr} (h : csrImpl s.cfg a = some r) (v : Word) :
    csrWrite s a v = writeCsr s r (trunc s.cfg.xlen v) := by
  simp only [csrWrite, h]

/-! ### A write through a mask does not see the truncation of its operand -/

theorem trunc_and (x : Xlen) (v w : Word) : trunc x (v &&& w) = trunc x v &&& trunc x w := by
  refine BitVec.eq_of_getLsbD_eq fun k _ => ?_
  simp only [getLsbD_trunc, BitVec.getLsbD_and]
  cases decide (k < xlenBits x) <;> simp

/-- The bits a word of the register's width selects are the same before and after truncation. -/
theorem trunc_and_of_fitsXlen {x : Xlen} {m : Word} (hm : FitsXlen x m) (v : Word) :
    trunc x v &&& m = v &&& m := by
  refine BitVec.eq_of_getLsbD_eq fun k _ => ?_
  have hk : m.getLsbD k = (decide (k < xlenBits x) && m.getLsbD k) := by
    rw [← getLsbD_trunc, hm]
  simp only [BitVec.getLsbD_and, getLsbD_trunc]
  rw [hk]
  cases decide (k < xlenBits x) <;> simp

/-- The supervisor interrupts all lie below bit 32, so the mask of sie and sip exists with either XLEN. -/
theorem fitsXlen_delegatedMask (x : Xlen) (s : State) : FitsXlen x (delegatedMask s) := by
  have hmask : trunc x 0x222#64 = 0x222#64 := by cases x <;> rfl
  calc trunc x (s.mideleg &&& 0x222#64)
      = trunc x s.mideleg &&& trunc x 0x222#64 := trunc_and x _ _
    _ = trunc x s.mideleg &&& 0x222#64 := by rw [hmask]
    _ = s.mideleg &&& 0x222#64 := trunc_and_of_fitsXlen hmask _

/-! ### Copying one bit of another word is a write through a mask of one bit -/

theorem bitWord_getLsbD (i : Nat) (v : Word) : bitWord i (v.getLsbD i) = v &&& 1#64 <<< i :=
  (BitVec.and_twoPow v i).symm

theorem setBit_getLsbD (w v : Word) (i : Nat) :
    setBit w i (v.getLsbD i) = (w &&& ~~~(1#64 <<< i)) ||| (v &&& 1#64 <<< i) := by
  rw [setBit, bitWord_getLsbD]

/-! ### The views (R75, R82) -/

/-- A write of sie replaces the delegated bits of mie. -/
theorem writeCsr_sie_trunc (s : State) (v : Word) :
    writeCsr s .sie (trunc s.cfg.xlen v) =
      { s with mie := (s.mie &&& ~~~delegatedMask s) ||| (v &&& delegatedMask s) } := by
  simp only [writeCsr, trunc_and_of_fitsXlen (fitsXlen_delegatedMask _ s)]

theorem writeCsr_sip_of_not_delegated {s : State} (h : s.mideleg.getLsbD 1 = false) (v : Word) :
    writeCsr s .sip v = s := by
  simp only [writeCsr, h, Bool.false_eq_true, if_false]

/-- A write of sip copies bit 1 of its operand to SSIP when mideleg[1] is 1. -/
theorem writeCsr_sip_of_delegated {s : State} (h : s.mideleg.getLsbD 1 = true) (v : Word) :
    writeCsr s .sip (trunc s.cfg.xlen v) = { s with mipSw := (s.mipSw &&& ~~~0x2#64) ||| (v &&& 0x2#64) } := by
  have hfits : FitsXlen s.cfg.xlen (1#64 <<< 1) := by cases s.cfg.xlen <;> rfl
  simp only [writeCsr, h, if_true, setBit_getLsbD, trunc_and_of_fitsXlen hfits]
  rfl

/-- Settles O22: the accesses by address are those of the two views, and every bit of the masks exists with either
XLEN. -/
theorem sieAndSipAreDelegatedViews : Obligations.SieAndSipAreDelegatedViews := by
  intro s v hsie hsip
  refine ⟨csrRead_of_csrImpl hsie, ?sieWrite, csrRead_of_csrImpl hsip, fun hdeleg => ?sipKept, fun hdeleg => ?sipWrite⟩
  case sieWrite => exact (csrWrite_of_csrImpl hsie v).trans (writeCsr_sie_trunc s v)
  case sipKept => exact (csrWrite_of_csrImpl hsip v).trans (writeCsr_sip_of_not_delegated hdeleg _)
  case sipWrite => exact (csrWrite_of_csrImpl hsip v).trans (writeCsr_sip_of_delegated hdeleg v)

end Sys2Proof.Proofs
end

/-! PROOF. Checks 1 and 2 of R200: the privilege level and the read-only kind of a CSR address (30_encoding.md R171,
R172). -/

namespace Sys2Proof.Proofs

open Sys2Proof Sys2Proof.Machine

/-! ### The two checks by address deny an access -/

theorem csrPermitted_of_level_above {s : State} {a : CsrAddr} {wr : Bool}
    (h : (privBits s.priv).toNat < csrLevel a) : csrPermitted s a wr = false := by
  refine Bool.eq_false_iff.mpr fun hp => ?_
  obtain ⟨hle, -⟩ := csrPermitted_level hp
  exact absurd hle (Nat.not_le_of_lt h)

theorem csrPermitted_write_of_readOnly {s : State} {a : CsrAddr} (h : csrReadOnly a = true) :
    csrPermitted s a true = false := by
  refine Bool.eq_false_iff.mpr fun hp => ?_
  obtain ⟨-, hrw⟩ := csrPermitted_level hp
  exact absurd h (Bool.eq_false_iff.mp (hrw rfl))

theorem csrReadOnly_iff (a : CsrAddr) : csrReadOnly a = true ↔ a.extractLsb' 10 2 = 3#2 := by
  rw [csrReadOnly, beq_iff_eq]

/-- An implemented register is accessed where its level, its kind and its own gate all allow it. -/
theorem csrPermitted_of_checks {s : State} {a : CsrAddr} {wr : Bool} {r : Csr} (hr : csrImpl s.cfg a = some r)
    (hlevel : csrLevel a ≤ (privBits s.priv).toNat) (hkind : ¬ (wr = true ∧ csrReadOnly a = true))
    (hgate : csrGate s a wr r = true) : csrPermitted s a wr = true := by
  have hkind' : (wr && csrReadOnly a) = false := by
    rwa [← Bool.and_eq_true, Bool.not_eq_true] at hkind
  rw [csrPermitted_of_implemented hr, decide_eq_true hlevel, hkind', hgate]
  rfl

/-! ### What a CSR instruction does when it is denied, and when it is not -/

theorem exec_csr_of_denied {i : Instr} {a : CsrAddr} {s : State} (hi : csrNamed i = some a)
    (h : csrPermitted s a (csrWrites i) = false) : exec i s = .next (raiseIllegal (encode i) s) := by
  obtain ⟨rdEn, new, -, hexec⟩ := exec_csr hi s
  exact hexec.trans (csrInstr_illegal h)

theorem csrResult_priv (a : CsrAddr) (rd : Reg) (wr rdEn : Bool) (new : Word → Word) (s : State) :
    (csrResult a rd wr rdEn new s).priv = s.priv := by
  cases wr <;> cases rdEn <;> simp [csrResult]

/-- A CSR instruction that is permitted completes in its mode; the pc is that of every retiring instruction. -/
theorem exec_csr_of_permitted {i : Instr} {a : CsrAddr} {s : State} (hi : csrNamed i = some a)
    (hp : csrPermitted s a (csrWrites i) = true) (hm : misaWriteOpen s a (csrWrites i) = false) :
    ∃ t, exec i s = .next t ∧ t.priv = s.priv ∧ t.pc = nextPc s := by
  obtain ⟨rdEn, new, hrd, hexec⟩ := exec_csr hi s
  obtain ⟨hretires, -⟩ := csrResult_retires a (destReg i) (csrWrites i) rdEn new s hrd
  exact ⟨_, hexec.trans (csrInstr_next hp hm), csrResult_priv _ _ _ _ _ _, hretires.pc⟩

/-- Settles O7: each of the two checks denies by itself, and past both of them only the gate is left of R200. -/
theorem csrAccessByLevelAndKind : Obligations.CsrAccessByLevelAndKind := by
  intro i a s hi level readOnly
  refine ⟨fun hbelow => ?privilege, fun hwrites hro => ?readOnly, fun r hlevel hkind hr hgate hm => ?completes⟩
  case privilege => exact exec_csr_of_denied hi (csrPermitted_of_level_above hbelow)
  case readOnly =>
    refine exec_csr_of_denied hi ?_
    rw [hwrites]
    exact csrPermitted_write_of_readOnly ((csrReadOnly_iff a).mpr hro)
  case completes =>
    have hkind' : ¬ (csrWrites i = true ∧ csrReadOnly a = true) :=
      fun ⟨hwrites, hro⟩ => hkind ⟨hwrites, (csrReadOnly_iff a).mp hro⟩
    exact exec_csr_of_permitted hi (csrPermitted_of_checks hr hlevel hkind' hgate) hm

end Sys2Proof.Proofs

/-! PROOF. SRET (41_system_instructions.md R231): one bit of a word, the bits of mstatus a return changes, and what the
instruction leaves. -/

namespace Sys2Proof.Proofs

open Sys2Proof Sys2Proof.Machine

/-! ### One bit of a word is set, and the others are kept -/

theorem getLsbD_bitWord {i : Nat} (hi : i < 64) (b : Bool) (k : Nat) :
    (bitWord i b).getLsbD k = (b && decide (i = k)) := by
  cases b with
  | false => simp [bitWord]
  | true => simp [bitWord, ← BitVec.twoPow_eq, BitVec.getLsbD_twoPow, hi]

theorem getLsbD_setBit {i : Nat} (hi : i < 64) (w : Word) (b : Bool) (k : Nat) :
    (setBit w i b).getLsbD k = if k = i then b else w.getLsbD k := by
  have hmask : (1#64 <<< i).getLsbD k = decide (i = k) := getLsbD_bitWord hi true k
  simp only [setBit, BitVec.getLsbD_or, BitVec.getLsbD_and, BitVec.getLsbD_not, hmask, getLsbD_bitWord hi]
  by_cases hk : k = i
  · simp [hk]
  · by_cases hlt : k < 64
    · simp [hk, Ne.symm hk, hlt]
    · simp [hk, Ne.symm hk, BitVec.getLsbD_of_ge w k (Nat.le_of_not_lt hlt)]

/-! ### What the return leaves (R231) -/

theorem countRetired_eq (s : State) : countRetired s.mcountinhibit false s = { s with minstret := countOne s } := by
  unfold countRetired countOne
  rw [Bool.or_false]
  split <;> rfl

/-- Every bit of mstatus after SRET: MPRV and SPP are 0, SPIE is 1, SIE is the old SPIE, and the rest is kept. -/
theorem returnFromS_mstatus_getLsbD (s : State) (k : Nat) :
    (returnFromS s).mstatus.getLsbD k =
      if k = 17 then false else if k = 8 then false else if k = 5 then true
      else if k = 1 then mstatusSPIE s.mstatus else s.mstatus.getLsbD k := by
  simp only [returnFromS, setMPRV, setSPP, setSPIE, setSIE, getLsbD_setBit, Nat.reduceLT]

theorem exec_sret_of_illegal {s : State}
    (h : hasS s.cfg = false ∨ s.priv = .U ∨ (s.priv = .S ∧ mstatusTSR s.mstatus = true)) :
    exec .sret s = .next (raiseIllegal (encode .sret) s) :=
  if_pos h

/-- Counting comes before the return, and neither sees the field that the other writes. -/
theorem exec_sret_of_legal {s : State}
    (h : ¬ (hasS s.cfg = false ∨ s.priv = .U ∨ (s.priv = .S ∧ mstatusTSR s.mstatus = true))) :
    exec .sret s = .next { s with
      mstatus := (returnFromS s).mstatus, priv := sretTarget s, pc := s.sepc, minstret := countOne s } :=
  calc exec .sret s
      = .next (returnFromS (countRetired s.mcountinhibit false s)) := if_neg h
    _ = .next (returnFromS { s with minstret := countOne s }) := by rw [countRetired_eq]

/-- Settles O34: the word of mstatus is the one the return leaves, read bit by bit. -/
theorem sretReturns : Obligations.SretReturns := by
  intro s illegal
  refine ⟨rfl, exec_sret_of_illegal, fun hlegal => ⟨(returnFromS s).mstatus, exec_sret_of_legal hlegal, ?fields⟩⟩
  case fields =>
    refine ⟨returnFromS_mstatus_getLsbD s 1, returnFromS_mstatus_getLsbD s 5, returnFromS_mstatus_getLsbD s 8,
      returnFromS_mstatus_getLsbD s 17, fun k hk => ?kept⟩
    case kept =>
      simp only [List.mem_cons, List.not_mem_nil, or_false, not_or] at hk
      obtain ⟨hsie, hspie, hspp, hmprv⟩ := hk
      rw [returnFromS_mstatus_getLsbD, if_neg hmprv, if_neg hspp, if_neg hspie, if_neg hsie]

end Sys2Proof.Proofs

/-! PROOF. ECALL and EBREAK (41_system_instructions.md R233, R234): which exception each raises, and that a raise does
not retire. -/

namespace Sys2Proof.Proofs

open Sys2Proof Sys2Proof.Machine

/-! ### The exception each raises -/

theorem trapTarget_of_machine {s : State} (h : s.priv = .M) (interrupt : Bool) (code : Nat) :
    trapTarget s interrupt code = .M :=
  (trapTarget_cases s interrupt code).resolve_right fun ⟨_, _, hbelow⟩ => hbelow h

theorem raiseExc_of_machine {s : State} (h : s.priv = .M) (e : Exc) (v : Word) :
    raiseExc e v s = takeTrap false (excCode e) v s.pc .M s := by
  rw [raiseExc, trapTarget_of_machine h]

theorem exec_ecall (s : State) : exec .ecall s = .next (raiseExc (ecallExc s.priv) 0#64 s) := rfl

/-- The trap value is pc or 0, as the configuration says. -/
theorem exec_ebreak (s : State) :
    exec .ebreak s = .next (raiseExc .breakpoint (if s.cfg.mtvalEbreak = .pc then s.pc else 0#64) s) := by
  simp only [exec, execEbreak]
  cases s.cfg.mtvalEbreak <;> rfl

/-! ### Neither retires (R233, R234) -/

/-- Both end in a raise, whatever the mode and the configuration. -/
theorem exec_ecall_or_ebreak_raises {s t : State} (h : exec .ecall s = .next t ∨ exec .ebreak s = .next t) :
    ∃ e v, t = raiseExc e v s := by
  rcases h with hecall | hebreak
  · exact ⟨_, _, Host.Outcome.next.inj (hecall.symm.trans (exec_ecall s))⟩
  · exact ⟨_, _, Host.Outcome.next.inj (hebreak.symm.trans (exec_ebreak s))⟩

/-- Settles O37: each clause is one mode, or one configuration, of the exception raised, and no raise retires. -/
theorem ecallAndEbreakRaise : Obligations.EcallAndEbreakRaise := by
  refine ⟨rfl, rfl, fun s => ⟨fun hmode => ?fromU, fun hmode => ?fromS, fun hmode => ?fromM, fun hvalue => ?valuePc,
    fun hvalue => ?valueZero, fun t ht => ?noRetirement⟩⟩
  case fromU => rw [exec_ecall, hmode]; rfl
  case fromS => rw [exec_ecall, hmode]; rfl
  case fromM => rw [exec_ecall, raiseExc_of_machine hmode, hmode]; rfl
  case valuePc => rw [exec_ebreak, if_pos hvalue]; rfl
  case valueZero => rw [exec_ebreak, hvalue]; rfl
  case noRetirement =>
    obtain ⟨e, v, rfl⟩ := exec_ecall_or_ebreak_raises ht
    exact ⟨raiseExc_minstret .., raiseExc_x .., raiseExc_mem ..⟩

end Sys2Proof.Proofs

/-! PROOF. ADDI, ANDI and ORI (42_support_instructions.md R250 to R252): the sign-extended immediate as an integer and
bit by bit, and the values the three write. -/

namespace Sys2Proof.Proofs

open Sys2Proof Sys2Proof.Machine

/-! ### The sign-extended immediate (R180 c) -/

/-- As an integer, the sign-extended immediate is the immediate's signed value modulo 2^XLEN. -/
theorem toNat_sextImm (x : Xlen) (imm : BitVec 12) :
    ((sextImm x imm).toNat : Int) = imm.toInt % 2 ^ xlenBits x := by
  have hdvd : (2 ^ xlenBits x : Int) ∣ 2 ^ 64 := pow_dvd_pow 2 (by cases x <;> decide)
  have hsext : ((imm.signExtend 64).toNat : Int) = imm.toInt % 2 ^ 64 := by
    rw [BitVec.signExtend, BitVec.toNat_ofInt]
    exact Int.toNat_of_nonneg (Int.emod_nonneg _ (by decide))
  rw [sextImm, toNat_trunc]
  push_cast
  rw [hsext, Int.emod_emod_of_dvd _ hdvd]

/-- Bit 11 of the immediate fills every higher bit up to XLEN. -/
theorem getLsbD_sextImm (x : Xlen) (imm : BitVec 12) (k : Nat) :
    (sextImm x imm).getLsbD k = (decide (k < xlenBits x) && imm.getLsbD (min k 11)) := by
  have hx : xlenBits x ≤ 64 := by cases x <;> decide
  rw [sextImm, getLsbD_trunc, BitVec.getLsbD_signExtend]
  by_cases hk : k < xlenBits x
  · have h64 : k < 64 := Nat.lt_of_lt_of_le hk hx
    by_cases h12 : k < 12
    · simp [h64, h12, Nat.min_eq_left (Nat.le_of_lt_succ h12)]
    · simp [h64, h12, Nat.min_eq_right (show 11 ≤ k by omega), BitVec.msb_eq_getLsbD_last]
  · simp [hk]

/-! ### The values written -/

/-- The sum wraps: it is the integer sum modulo 2^XLEN (R250). -/
theorem toNat_trunc_add_sextImm (x : Xlen) (w : Word) (imm : BitVec 12) :
    ((trunc x (w + sextImm x imm)).toNat : Int) = (w.toNat + imm.toInt) % 2 ^ xlenBits x := by
  have hdvd : 2 ^ xlenBits x ∣ 2 ^ 64 := pow_dvd_pow 2 (by cases x <;> decide)
  rw [toNat_trunc, BitVec.toNat_add, Nat.mod_mod_of_dvd _ hdvd]
  push_cast
  rw [toNat_sextImm, Int.add_emod_emod]

theorem getLsbD_trunc_and_sextImm (x : Xlen) (w : Word) (imm : BitVec 12) (k : Nat) :
    (trunc x (w &&& sextImm x imm)).getLsbD k = true ↔
      w.getLsbD k = true ∧ k < xlenBits x ∧ imm.getLsbD (min k 11) = true := by
  simp only [getLsbD_trunc, BitVec.getLsbD_and, getLsbD_sextImm, Bool.and_eq_true, decide_eq_true_eq]
  tauto

theorem getLsbD_trunc_or_sextImm (x : Xlen) (w : Word) (imm : BitVec 12) (k : Nat) :
    (trunc x (w ||| sextImm x imm)).getLsbD k = true ↔
      k < xlenBits x ∧ (w.getLsbD k = true ∨ k < xlenBits x ∧ imm.getLsbD (min k 11) = true) := by
  simp only [getLsbD_trunc, BitVec.getLsbD_or, getLsbD_sextImm, Bool.and_eq_true, Bool.or_eq_true, decide_eq_true_eq]

/-! ### The instructions -/

theorem exec_addi (rd rs1 : Reg) (imm : BitVec 12) (s : State) :
    exec (.addi rd rs1 imm) s = writeResult rd (readX s rs1 + sextImm s.cfg.xlen imm) s := rfl

theorem exec_andi (rd rs1 : Reg) (imm : BitVec 12) (s : State) :
    exec (.andi rd rs1 imm) s = writeResult rd (readX s rs1 &&& sextImm s.cfg.xlen imm) s := rfl

theorem exec_ori (rd rs1 : Reg) (imm : BitVec 12) (s : State) :
    exec (.ori rd rs1 imm) s = writeResult rd (readX s rs1 ||| sextImm s.cfg.xlen imm) s := rfl

/-- An instruction that writes one result completes and retires, and what holds of the result modulo 2^XLEN holds of
the value written. -/
theorem exec_retires_of_writeResult {i : Instr} {rd : Reg} {w : Word} {s : State} {P : Word → Prop}
    (hexec : exec i s = writeResult rd w s) (hvalue : P (trunc s.cfg.xlen w)) :
    ∃ t v, exec i s = .next t ∧ RetiresWriting s s t rd v ∧ t.minstret = countOne s ∧ P v := by
  obtain ⟨t, hnext, hretires, hcount⟩ := writeResult_spec rd w s
  exact ⟨t, _, hexec.trans hnext, hretires, hcount, hvalue⟩

/-- Settles O39: the word is a row of the opcode table, and the result is the wrapped sum; that x[rs1] fits XLEN bits is
not needed. -/
theorem addiAddsModuloXlen : Obligations.AddiAddsModuloXlen := by
  intro rd rs1 imm s _
  obtain ⟨hword, -⟩ := Laws.TableRow.addi rd rs1 imm
  exact ⟨hword, exec_retires_of_writeResult (exec_addi rd rs1 imm s) (toNat_trunc_add_sextImm _ _ imm)⟩

/-- Settles O40: both words are rows of the opcode table, and each result is read bit by bit. -/
theorem andiOriCombineBits : Obligations.AndiOriCombineBits := by
  intro rd rs1 imm s immBit
  obtain ⟨handi, -⟩ := Laws.TableRow.andi rd rs1 imm
  obtain ⟨hori, -⟩ := Laws.TableRow.ori rd rs1 imm
  exact ⟨handi, hori,
    exec_retires_of_writeResult (exec_andi rd rs1 imm s) (getLsbD_trunc_and_sextImm _ _ imm),
    exec_retires_of_writeResult (exec_ori rd rs1 imm s) (getLsbD_trunc_or_sextImm _ _ imm)⟩

end Sys2Proof.Proofs

/-! PROOF. Trap entry (60_exceptions.md R289, R290, R291): the mode that handles a trap, the address of its handler, and
what entry writes and keeps. -/

namespace Sys2Proof.Proofs

open Sys2Proof Sys2Proof.Machine

/-! ### Which mode handles a trap (R289) -/

theorem trapTarget_eq_S_iff (s : State) (interrupt : Bool) (code : Nat) :
    trapTarget s interrupt code = .S ↔ hasS s.cfg = true ∧ s.priv ≠ .M ∧
      (if interrupt = true then s.mideleg else s.medeleg).getLsbD code = true := by
  simp [trapTarget, and_assoc]

theorem privBits_le_machine (p : Priv) : privBits p ≤ privBits .M := by
  cases p <;> decide

theorem privBits_le_supervisor {p : Priv} (h : p ≠ .M) : privBits p ≤ privBits .S := by
  cases p with
  | U => decide
  | S => decide
  | M => exact absurd rfl h

/-- A trap never lowers the privilege: S-mode takes only what is raised below M-mode. -/
theorem privBits_le_trapTarget (s : State) (interrupt : Bool) (code : Nat) :
    privBits s.priv ≤ privBits (trapTarget s interrupt code) := by
  rcases trapTarget_cases s interrupt code with hM | ⟨hS, -, hbelow⟩
  · rw [hM]; exact privBits_le_machine s.priv
  · rw [hS]; exact privBits_le_supervisor hbelow

/-- Settles O46: the model's test is the rule's, and no trap is handled below the mode it is raised in. -/
theorem trapTargetByDelegation : Obligations.TrapTargetByDelegation := fun s interrupt code =>
  ⟨trapTarget_eq_S_iff s interrupt code, (trapTarget_cases s interrupt code).imp_right And.left,
    privBits_le_trapTarget s interrupt code⟩

/-! ### The address of the handler (R291) -/

/-- BASE is the register with its two low bits shifted out and back in as zeros. -/
theorem toNat_and_not_three (v : Word) : (v &&& ~~~3#64).toNat = v.toNat / 4 * 4 := by
  have hshift : v &&& ~~~3#64 = v >>> 2 <<< 2 :=
    (BitVec.shiftLeft_ushiftRight (x := v) (n := 2)).symm
  rw [hshift]
  bv_omega

/-- MODE is the register modulo 4. -/
theorem extractLsb'_two_eq_one_iff (v : Word) : v.extractLsb' 0 2 = 1#2 ↔ v.toNat % 4 = 1 := by
  rw [← BitVec.toNat_inj, BitVec.extractLsb'_toNat]
  simp

/-- R291, with BASE and MODE as arithmetic of the register. -/
theorem trapVector_eq (x : Xlen) (tvec : Word) (interrupt : Bool) (code : Nat) :
    trapVector x tvec interrupt code =
      if tvec.toNat % 4 = 1 ∧ interrupt = true then trunc x ((tvec &&& ~~~3#64) + BitVec.ofNat 64 (4 * code))
      else tvec &&& ~~~3#64 := by
  simp only [trapVector, extractLsb'_two_eq_one_iff]

/-- The sum wraps at 2^XLEN also where the 64-bit container wraps first. -/
theorem toNat_trunc_add_ofNat (x : Xlen) (w : Word) (n : Nat) :
    (trunc x (w + BitVec.ofNat 64 n)).toNat = (w.toNat + n) % 2 ^ xlenBits x := by
  have hdvd : 2 ^ xlenBits x ∣ 2 ^ 64 := pow_dvd_pow 2 (by cases x <;> decide)
  rw [toNat_trunc, BitVec.toNat_add, BitVec.toNat_ofNat, Nat.add_mod_mod, Nat.mod_mod_of_dvd _ hdvd]

/-- Settles O47: the two branches of the rule; that the register fits XLEN bits is not needed. -/
theorem handlerAddress : Obligations.HandlerAddress := by
  intro x tv interrupt code _
  rw [trapVector_eq]
  split
  next vectored => rw [toNat_trunc_add_ofNat, toNat_and_not_three]
  next direct => exact toNat_and_not_three tv

/-! ### The cause and the interrupt stack of mstatus (R290) -/

/-- The Interrupt bit lies above every code, so the cause is their sum. -/
theorem toNat_trapCause (x : Xlen) (interrupt : Bool) {code : Nat} (h : code < 16) :
    (trapCause x interrupt code).toNat = (if interrupt then 2 ^ (xlenBits x - 1) else 0) + code := by
  have hcode : (BitVec.ofNat 64 code).toNat = code := Nat.mod_eq_of_lt (by omega)
  have hlow : code < 2 ^ (xlenBits x - 1) := Nat.lt_of_lt_of_le h (by cases x <;> decide)
  rw [trapCause, BitVec.toNat_or, hcode]
  cases interrupt with
  | false => simp [bitWord]
  | true =>
    have hbit : (bitWord (xlenBits x - 1) true).toNat = 2 ^ (xlenBits x - 1) := by cases x <;> rfl
    have hsum := Nat.two_pow_add_eq_or_of_lt hlow 1
    rw [Nat.mul_one] at hsum
    rw [hbit, if_pos rfl, hsum]

/-- The mask of MPP (R40) is bits 12:11; above them the shifted field holds only zeros. -/
theorem getLsbD_setMPP (m : Word) (v : BitVec 2) (k : Nat) :
    (setMPP m v).getLsbD k = if k = 11 then v.getLsbD 0 else if k = 12 then v.getLsbD 1 else m.getLsbD k := by
  have hmask : (0x1800#64).getLsbD k = (decide (11 = k) || decide (12 = k)) := by
    have hbits : 0x1800#64 = bitWord 11 true ||| bitWord 12 true := rfl
    simp only [hbits, BitVec.getLsbD_or, getLsbD_bitWord, Nat.reduceLT, Bool.true_and]
  simp only [setMPP, BitVec.getLsbD_or, BitVec.getLsbD_and, BitVec.getLsbD_not, hmask, BitVec.getLsbD_shiftLeft,
    BitVec.getLsbD_setWidth]
  rcases Nat.lt_or_ge k 13 with hlow | hhigh
  · interval_cases k <;> simp
  · have hfield : v.getLsbD (k - 11) = false := BitVec.getLsbD_of_ge v _ (by omega)
    have h11 : k ≠ 11 := by omega
    have h12 : k ≠ 12 := by omega
    have hkept : (m.getLsbD k && decide (k < 64)) = m.getLsbD k := by
      rw [Bool.and_eq_left_iff_imp, decide_eq_true_eq]
      exact BitVec.lt_of_getLsbD
    simp [hfield, h11, h12, h11.symm, h12.symm, hkept]

theorem mstatusMPP_setMPP (m : Word) (v : BitVec 2) : mstatusMPP (setMPP m v) = v := by
  refine BitVec.eq_of_getLsbD_eq fun k hk => ?_
  rw [mstatusMPP, BitVec.getLsbD_extractLsb', getLsbD_setMPP]
  interval_cases k <;> simp

/-! ### Trap entry (R290) -/

/-- Every bit of mstatus after trap entry into M-mode: MPP is the mode, MIE is 0, MPIE is the old MIE, and the rest is
kept. -/
theorem takeTrap_machine_mstatus_getLsbD (interrupt : Bool) (code : Nat) (tval epc : Word) (s : State) (k : Nat) :
    (takeTrap interrupt code tval epc .M s).mstatus.getLsbD k =
      if k = 11 then (privBits s.priv).getLsbD 0 else if k = 12 then (privBits s.priv).getLsbD 1
      else if k = 3 then false else if k = 7 then mstatusMIE s.mstatus else s.mstatus.getLsbD k := by
  simp only [takeTrap, if_true, setMIE, setMPIE, getLsbD_setMPP, getLsbD_setBit, Nat.reduceLT]

/-- Every bit of mstatus after trap entry into S-mode: SPP says whether the hart was in S-mode, SIE is 0, SPIE is the
old SIE, and the rest is kept. -/
theorem takeTrap_supervisor_mstatus_getLsbD (interrupt : Bool) (code : Nat) (tval epc : Word) (s : State) (k : Nat) :
    (takeTrap interrupt code tval epc .S s).mstatus.getLsbD k =
      if k = 8 then (s.priv == .S) else if k = 1 then false
      else if k = 5 then mstatusSIE s.mstatus else s.mstatus.getLsbD k := by
  simp only [takeTrap, reduceCtorEq, if_false, setSPP, setSIE, setSPIE, getLsbD_setBit, Nat.reduceLT]

theorem takeTrap_machine_mstatusMPP (interrupt : Bool) (code : Nat) (tval epc : Word) (s : State) :
    mstatusMPP (takeTrap interrupt code tval epc .M s).mstatus = privBits s.priv :=
  mstatusMPP_setMPP _ _

theorem takeTrap_machine_mstatus_kept (interrupt : Bool) (code : Nat) (tval epc : Word) (s : State) {k : Nat}
    (h : k ∉ [3, 7, 11, 12]) :
    (takeTrap interrupt code tval epc .M s).mstatus.getLsbD k = s.mstatus.getLsbD k := by
  simp only [List.mem_cons, List.not_mem_nil, or_false, not_or] at h
  obtain ⟨hmie, hmpie, hmpp0, hmpp1⟩ := h
  rw [takeTrap_machine_mstatus_getLsbD, if_neg hmpp0, if_neg hmpp1, if_neg hmie, if_neg hmpie]

theorem takeTrap_supervisor_mstatus_kept (interrupt : Bool) (code : Nat) (tval epc : Word) (s : State) {k : Nat}
    (h : k ∉ [1, 5, 8]) :
    (takeTrap interrupt code tval epc .S s).mstatus.getLsbD k = s.mstatus.getLsbD k := by
  simp only [List.mem_cons, List.not_mem_nil, or_false, not_or] at h
  obtain ⟨hsie, hspie, hspp⟩ := h
  rw [takeTrap_supervisor_mstatus_getLsbD, if_neg hspp, if_neg hsie, if_neg hspie]

/-- The trap value is the instruction word or 0, as the configuration says (R202, R272). -/
theorem raiseIllegal_eq (w : InstrWord) (s : State) :
    raiseIllegal w s =
      takeTrap false 2 (if s.cfg.mtvalIllegal = .bits then w.setWidth 64 else 0#64) s.pc (trapTarget s false 2) s := by
  rw [raiseIllegal]
  cases s.cfg.mtvalIllegal <;> rfl

/-- Settles O45: the state entered is the one of `takeTrap` for each target; its mstatus is read bit by bit. -/
theorem trapEntry : Obligations.TrapEntry := by
  intro interrupt code tval epc s hcode
  refine ⟨⟨_, rfl, rfl, ?machineCause, ?mpie, ?mie, ?mpp, fun k hk => ?machineKept⟩,
    ⟨_, rfl, rfl, ?supervisorCause, ?spie, ?sie, ?spp, fun k hk => ?supervisorKept⟩, fun e => rfl,
    fun w => raiseIllegal_eq w s⟩
  case machineCause => exact toNat_trapCause s.cfg.xlen interrupt hcode
  case mpie => exact takeTrap_machine_mstatus_getLsbD interrupt code tval epc s 7
  case mie => exact takeTrap_machine_mstatus_getLsbD interrupt code tval epc s 3
  case mpp => exact takeTrap_machine_mstatusMPP interrupt code tval epc s
  case machineKept => exact takeTrap_machine_mstatus_kept interrupt code tval epc s hk
  case supervisorCause => exact toNat_trapCause s.cfg.xlen interrupt hcode
  case spie => exact takeTrap_supervisor_mstatus_getLsbD interrupt code tval epc s 5
  case sie => exact takeTrap_supervisor_mstatus_getLsbD interrupt code tval epc s 1
  case spp => exact takeTrap_supervisor_mstatus_getLsbD interrupt code tval epc s 8
  case supervisorKept => exact takeTrap_supervisor_mstatus_kept interrupt code tval epc s hk

end Sys2Proof.Proofs

/-! PROOF. The encoder and the decoder (30_encoding.md R174 to R182): an instruction word is its fields side by side, and
a word decodes to an instruction exactly when it is that instruction's encoding. -/

namespace Sys2Proof.Proofs

open Sys2Proof Sys2Proof.Machine

/-! ### A word is its fields side by side (R175 to R178) -/

/-- The word with these fields, highest first. -/
def wordOfFields (imm : BitVec 12) (src : BitVec 5) (f3 : BitVec 3) (rd : BitVec 5) (op : BitVec 7) : InstrWord :=
  imm ++ src ++ f3 ++ rd ++ op

section

variable (imm : BitVec 12) (src : BitVec 5) (f3 : BitVec 3) (rd : BitVec 5) (op : BitVec 7)

theorem getLsbD_wordOfFields (k : Nat) :
    (wordOfFields imm src f3 rd op).getLsbD k =
      if k < 7 then op.getLsbD k else if k < 12 then rd.getLsbD (k - 7) else if k < 15 then f3.getLsbD (k - 12)
      else if k < 20 then src.getLsbD (k - 15) else imm.getLsbD (k - 20) := by
  simp only [wordOfFields, BitVec.getLsbD_append, Nat.sub_sub]
  grind

@[simp] theorem opcodeField_wordOfFields : opcodeField (wordOfFields imm src f3 rd op) = op :=
  BitVec.extractLsb'_append_eq_right

@[simp] theorem rdField_wordOfFields : rdField (wordOfFields imm src f3 rd op) = rd := by
  refine BitVec.eq_of_getLsbD_eq fun k hk => ?_
  simp only [rdField, BitVec.getLsbD_extractLsb', getLsbD_wordOfFields]
  interval_cases k <;> rfl

@[simp] theorem funct3Field_wordOfFields : funct3Field (wordOfFields imm src f3 rd op) = f3 := by
  refine BitVec.eq_of_getLsbD_eq fun k hk => ?_
  simp only [funct3Field, BitVec.getLsbD_extractLsb', getLsbD_wordOfFields]
  interval_cases k <;> rfl

@[simp] theorem rs1Field_wordOfFields : rs1Field (wordOfFields imm src f3 rd op) = src := by
  refine BitVec.eq_of_getLsbD_eq fun k hk => ?_
  simp only [rs1Field, BitVec.getLsbD_extractLsb', getLsbD_wordOfFields]
  interval_cases k <;> rfl

@[simp] theorem imm12Field_wordOfFields : imm12Field (wordOfFields imm src f3 rd op) = imm := by
  refine BitVec.eq_of_getLsbD_eq fun k hk => ?_
  simp only [imm12Field, BitVec.getLsbD_extractLsb', getLsbD_wordOfFields]
  interval_cases k <;> rfl

end

theorem wordOfFields_fields (w : InstrWord) :
    wordOfFields (imm12Field w) (rs1Field w) (funct3Field w) (rdField w) (opcodeField w) = w := by
  refine BitVec.eq_of_getLsbD_eq fun k hk => ?_
  simp only [getLsbD_wordOfFields, imm12Field, rs1Field, funct3Field, rdField, opcodeField,
    BitVec.getLsbD_extractLsb']
  interval_cases k <;> rfl

/-! ### The fields inside bits 31:20 -/

theorem extractLsb'_extractLsb' {w : Nat} (v : BitVec w) {s n t m : Nat} (h : t + m ≤ n) :
    (v.extractLsb' s n).extractLsb' t m = v.extractLsb' (s + t) m := by
  refine BitVec.eq_of_getLsbD_eq fun k hk => ?_
  have hlt : t + k < n := by omega
  simp [hk, hlt, Nat.add_assoc]

theorem funct7Field_eq (w : InstrWord) : funct7Field w = (imm12Field w).extractLsb' 5 7 := by
  rw [funct7Field, imm12Field, extractLsb'_extractLsb' w (by decide)]

theorem rs2Field_eq (w : InstrWord) : rs2Field w = (imm12Field w).extractLsb' 0 5 := by
  rw [rs2Field, imm12Field, extractLsb'_extractLsb' w (by decide)]

theorem funct6Field_eq (w : InstrWord) : funct6Field w = (imm12Field w).extractLsb' 6 6 := by
  rw [funct6Field, imm12Field, extractLsb'_extractLsb' w (by decide)]

theorem shamtField_eq (w : InstrWord) : shamtField w = (imm12Field w).extractLsb' 0 6 := by
  rw [shamtField, imm12Field, extractLsb'_extractLsb' w (by decide)]

/-- Bits 31:20 as funct7 over rs2. -/
theorem imm12Field_eq_funct7_rs2 (w : InstrWord) : imm12Field w = funct7Field w ++ rs2Field w := by
  rw [funct7Field_eq, rs2Field_eq]
  exact (BitVec.extractLsb'_append_extractLsb' (w := 7) (len := 5)).symm

/-- Bits 31:20 as funct6 over shamt. -/
theorem imm12Field_eq_funct6_shamt (w : InstrWord) : imm12Field w = funct6Field w ++ shamtField w := by
  rw [funct6Field_eq, shamtField_eq]
  exact (BitVec.extractLsb'_append_extractLsb' (w := 6) (len := 6)).symm

/-! ### The encodings, by their fields -/

theorem encode_sfenceVma (rs1 rs2 : Reg) :
    encode (.sfenceVma rs1 rs2) = wordOfFields (0b0001001#7 ++ rs2) rs1 0b000#3 0#5 opcodeSystem := rfl

theorem encode_srli (rd rs1 : Reg) (sh : BitVec 6) :
    encode (.srli rd rs1 sh) = wordOfFields (0#6 ++ sh) rs1 0b101#3 rd opcodeOpImm := rfl

theorem encode_sd (rs2 rs1 : Reg) (imm : BitVec 12) :
    encode (.sd rs2 rs1 imm) =
      wordOfFields (imm.extractLsb' 5 7 ++ rs2) rs1 0b011#3 (imm.extractLsb' 0 5) opcodeStore := rfl

theorem encodeCsr_eq (f3 : BitVec 3) (csr : CsrAddr) (src : BitVec 5) (rd : Reg) :
    encodeCsr f3 csr src rd = wordOfFields csr src f3 rd opcodeSystem := rfl

theorem encodeImm_eq (f3 : BitVec 3) (imm : BitVec 12) (rs1 rd : Reg) :
    encodeImm f3 imm rs1 rd = wordOfFields imm rs1 f3 rd opcodeOpImm := rfl

/-! ### Decoding an encoding -/

theorem decodeWord_system (x : Xlen) {w : InstrWord} (h : opcodeField w = opcodeSystem) :
    decodeWord x w = decodeSystem w := by
  rw [decodeWord, if_pos h]

theorem decodeWord_opImm (x : Xlen) {w : InstrWord} (h : opcodeField w = opcodeOpImm) :
    decodeWord x w = decodeOpImm x w := by
  rw [decodeWord, h]; rfl

theorem decodeWord_store (x : Xlen) {w : InstrWord} (h : opcodeField w = opcodeStore) :
    decodeWord x w = decodeStore x w := by
  rw [decodeWord, h]; rfl

/-- funct7 tells SFENCE.VMA from each of the fixed words. -/
theorem decodePrivileged_sfenceVma {w : InstrWord} (h7 : funct7Field w = 0b0001001#7) (hrd : rdField w = 0#5) :
    decodePrivileged w = .instr (.sfenceVma (rs1Field w) (rs2Field w)) := by
  have hne : ∀ c : InstrWord, funct7Field c ≠ 0b0001001#7 → w ≠ c := fun c hc hw => hc (hw ▸ h7)
  rw [decodePrivileged, if_neg (hne _ (by decide)), if_neg (hne _ (by decide)), if_neg (hne _ (by decide)),
    if_neg (hne _ (by decide)), if_neg (hne _ (by decide)), if_pos ⟨h7, hrd⟩]

/-- On RV32 the pattern of SRLI also asks for bit 25, the highest of the shift amount, to be 0. -/
theorem srliPattern_iff (x : Xlen) (w : InstrWord) :
    srliPattern x w = true ↔
      funct6Field w = 0#6 ∧ (Instr.srli (rdField w) (rs1Field w) (shamtField w)).wf x = true := by
  cases x with
  | rv64 => simp [srliPattern, Instr.wf]
  | rv32 =>
    simp only [srliPattern, Instr.wf, beq_iff_eq, decide_eq_true_eq, ← BitVec.toNat_inj, funct7Field, funct6Field,
      shamtField, BitVec.extractLsb'_toNat, BitVec.toNat_ofNat, Nat.shiftRight_eq_div_pow]
    omega

theorem decodeWord_encode {x : Xlen} {i : Instr} (h : i.wf x = true) : decodeWord x (encode i) = .instr i := by
  cases i with
  | csrrw rd csr rs1 => simp [encode, encodeCsr_eq, decodeWord_system, decodeSystem]
  | csrrs rd csr rs1 => simp [encode, encodeCsr_eq, decodeWord_system, decodeSystem]
  | csrrc rd csr rs1 => simp [encode, encodeCsr_eq, decodeWord_system, decodeSystem]
  | csrrwi rd csr uimm => simp [encode, encodeCsr_eq, decodeWord_system, decodeSystem]
  | csrrsi rd csr uimm => simp [encode, encodeCsr_eq, decodeWord_system, decodeSystem]
  | csrrci rd csr uimm => simp [encode, encodeCsr_eq, decodeWord_system, decodeSystem]
  | mret => rfl
  | sret => rfl
  | wfi => rfl
  | ecall => rfl
  | ebreak => rfl
  | addi rd rs1 imm => simp [encode, encodeImm_eq, decodeWord_opImm, decodeOpImm]
  | andi rd rs1 imm => simp [encode, encodeImm_eq, decodeWord_opImm, decodeOpImm]
  | ori rd rs1 imm => simp [encode, encodeImm_eq, decodeWord_opImm, decodeOpImm]
  | sfenceVma rs1 rs2 =>
    have h7 : funct7Field (encode (.sfenceVma rs1 rs2)) = 0b0001001#7 := by
      rw [funct7Field_eq, encode_sfenceVma, imm12Field_wordOfFields]
      exact BitVec.extractLsb'_append_eq_left
    have h2 : rs2Field (encode (.sfenceVma rs1 rs2)) = rs2 := by
      rw [rs2Field_eq, encode_sfenceVma, imm12Field_wordOfFields]
      exact BitVec.extractLsb'_append_eq_right
    have hsys : decodeWord x (encode (.sfenceVma rs1 rs2)) = decodePrivileged (encode (.sfenceVma rs1 rs2)) := by
      rw [encode_sfenceVma, decodeWord_system x (by simp)]
      simp [decodeSystem]
    rw [hsys, decodePrivileged_sfenceVma h7 (by simp [encode_sfenceVma]), h2]
    simp [encode_sfenceVma]
  | srli rd rs1 shamt =>
    have h6 : funct6Field (encode (.srli rd rs1 shamt)) = 0#6 := by
      rw [funct6Field_eq, encode_srli, imm12Field_wordOfFields]
      exact BitVec.extractLsb'_append_eq_left
    have hsh : shamtField (encode (.srli rd rs1 shamt)) = shamt := by
      rw [shamtField_eq, encode_srli, imm12Field_wordOfFields]
      exact BitVec.extractLsb'_append_eq_right
    have hpat : srliPattern x (encode (.srli rd rs1 shamt)) = true := by
      rw [srliPattern_iff, hsh]
      exact ⟨h6, h⟩
    rw [encode_srli] at hpat hsh ⊢
    simp [decodeWord_opImm, decodeOpImm, hpat, hsh]
  | sd rs2 rs1 imm =>
    cases x with
    | rv32 => exact absurd h (by simp [Instr.wf])
    | rv64 =>
      have h7 : funct7Field (encode (.sd rs2 rs1 imm)) = imm.extractLsb' 5 7 := by
        rw [funct7Field_eq, encode_sd, imm12Field_wordOfFields]
        exact BitVec.extractLsb'_append_eq_left
      have h2 : rs2Field (encode (.sd rs2 rs1 imm)) = rs2 := by
        rw [rs2Field_eq, encode_sd, imm12Field_wordOfFields]
        exact BitVec.extractLsb'_append_eq_right
      have himm : storeImm (encode (.sd rs2 rs1 imm)) = imm := by
        rw [storeImm, h7, encode_sd, rdField_wordOfFields]
        exact BitVec.extractLsb'_append_extractLsb' (w := 7) (len := 5)
      rw [encode_sd] at h2 himm ⊢
      simp [decodeWord_store, decodeStore, h2, himm]

/-! ### Encoding what was decoded -/

/-- Two known fields complete a word from the other three. -/
theorem wordOfFields_of_opcode_funct3 {w : InstrWord} {op : BitVec 7} {f3 : BitVec 3} (hop : opcodeField w = op)
    (hf3 : funct3Field w = f3) : wordOfFields (imm12Field w) (rs1Field w) f3 (rdField w) op = w := by
  rw [← hop, ← hf3, wordOfFields_fields]

/-- The branch of the decoder that answered names the instruction. -/
theorem wf_and_encode_of_branch {x : Xlen} {w : InstrWord} {i j : Instr} (h : Decoded.instr j = .instr i)
    (hwf : j.wf x = true) (hw : encode j = w) : i.wf x = true ∧ encode i = w := by
  injection h with h
  exact h ▸ ⟨hwf, hw⟩

theorem wf_and_encode_of_decodePrivileged {x : Xlen} {w : InstrWord} {i : Instr} (hop : opcodeField w = opcodeSystem)
    (hf3 : funct3Field w = 0b000#3) (h : decodePrivileged w = .instr i) : i.wf x = true ∧ encode i = w := by
  unfold decodePrivileged at h
  split_ifs at h with hecall hebreak hsret hmret hwfi hfence
  · exact wf_and_encode_of_branch h rfl hecall.symm
  · exact wf_and_encode_of_branch h rfl hebreak.symm
  · exact wf_and_encode_of_branch h rfl hsret.symm
  · exact wf_and_encode_of_branch h rfl hmret.symm
  · exact wf_and_encode_of_branch h rfl hwfi.symm
  · obtain ⟨h7, hrd⟩ := hfence
    refine wf_and_encode_of_branch h rfl ?_
    rw [encode_sfenceVma, ← h7, ← hrd, ← imm12Field_eq_funct7_rs2, wordOfFields_of_opcode_funct3 hop hf3]

theorem wf_and_encode_of_decodeSystem {x : Xlen} {w : InstrWord} {i : Instr} (hop : opcodeField w = opcodeSystem)
    (h : decodeSystem w = .instr i) : i.wf x = true ∧ encode i = w := by
  unfold decodeSystem at h
  split_ifs at h with hrw hrs hrc hrwi hrsi hrci hpriv
  · exact wf_and_encode_of_branch h rfl (wordOfFields_of_opcode_funct3 hop hrw)
  · exact wf_and_encode_of_branch h rfl (wordOfFields_of_opcode_funct3 hop hrs)
  · exact wf_and_encode_of_branch h rfl (wordOfFields_of_opcode_funct3 hop hrc)
  · exact wf_and_encode_of_branch h rfl (wordOfFields_of_opcode_funct3 hop hrwi)
  · exact wf_and_encode_of_branch h rfl (wordOfFields_of_opcode_funct3 hop hrsi)
  · exact wf_and_encode_of_branch h rfl (wordOfFields_of_opcode_funct3 hop hrci)
  · exact wf_and_encode_of_decodePrivileged hop hpriv h

theorem wf_and_encode_of_decodeOpImm {x : Xlen} {w : InstrWord} {i : Instr} (hop : opcodeField w = opcodeOpImm)
    (h : decodeOpImm x w = .instr i) : i.wf x = true ∧ encode i = w := by
  unfold decodeOpImm at h
  split_ifs at h with haddi handi hori hsrli
  · exact wf_and_encode_of_branch h rfl (wordOfFields_of_opcode_funct3 hop haddi)
  · exact wf_and_encode_of_branch h rfl (wordOfFields_of_opcode_funct3 hop handi)
  · exact wf_and_encode_of_branch h rfl (wordOfFields_of_opcode_funct3 hop hori)
  · obtain ⟨hf3, hpat⟩ := hsrli
    obtain ⟨h6, hwf⟩ := (srliPattern_iff x w).mp hpat
    refine wf_and_encode_of_branch h hwf ?_
    rw [encode_srli, ← h6, ← imm12Field_eq_funct6_shamt, wordOfFields_of_opcode_funct3 hop hf3]

theorem wf_and_encode_of_decodeStore {x : Xlen} {w : InstrWord} {i : Instr} (hop : opcodeField w = opcodeStore)
    (h : decodeStore x w = .instr i) : i.wf x = true ∧ encode i = w := by
  unfold decodeStore at h
  split_ifs at h with hsd
  obtain ⟨hf3, rfl⟩ := hsd
  have h7 : (storeImm w).extractLsb' 5 7 = funct7Field w := BitVec.extractLsb'_append_eq_left
  have hrd : (storeImm w).extractLsb' 0 5 = rdField w := BitVec.extractLsb'_append_eq_right
  refine wf_and_encode_of_branch h rfl ?_
  rw [encode_sd, h7, hrd, ← imm12Field_eq_funct7_rs2, wordOfFields_of_opcode_funct3 hop hf3]

/-- A word decodes to an instruction exactly when the instruction exists and the word is its encoding. -/
theorem decodeWord_eq_instr_iff {x : Xlen} {w : InstrWord} {i : Instr} :
    decodeWord x w = .instr i ↔ i.wf x = true ∧ encode i = w := by
  refine ⟨fun h => ?decoded, fun ⟨hwf, hw⟩ => hw ▸ decodeWord_encode hwf⟩
  case decoded =>
    unfold decodeWord at h
    split_ifs at h with hsystem hopImm hstore
    · exact wf_and_encode_of_decodeSystem hsystem h
    · exact wf_and_encode_of_decodeOpImm hopImm h
    · exact wf_and_encode_of_decodeStore hstore h

/-! ### The bytes of a word (20_memory.md R145) -/

theorem wordOfBytes_bytesOfWord (w : InstrWord) (rest : List Byte) :
    wordOfBytes (bytesOfWord w ++ rest) = some w := by
  simp only [bytesOfWord, List.cons_append, wordOfBytes, Option.some.injEq]
  refine BitVec.eq_of_getLsbD_eq fun k hk => ?_
  simp only [BitVec.getLsbD_append, BitVec.getLsbD_extractLsb']
  interval_cases k <;> rfl

/-- The bytes of the word at the head of a list are the first four of the list. -/
theorem eq_bytesOfWord_append {bytes : List Byte} {w : InstrWord} (h : wordOfBytes bytes = some w) :
    ∃ rest, bytes = bytesOfWord w ++ rest := by
  match bytes, h with
  | b0 :: b1 :: b2 :: b3 :: rest, h =>
    injection h with h
    refine ⟨rest, ?_⟩
    have hbytes : bytesOfWord w = [b0, b1, b2, b3] := by
      rw [← h, bytesOfWord]
      simp only [List.cons.injEq, and_true]
      refine ⟨?_, ?_, ?_, ?_⟩ <;> refine BitVec.eq_of_getLsbD_eq fun k hk => ?_ <;>
        simp only [BitVec.getLsbD_append, BitVec.getLsbD_extractLsb'] <;> interval_cases k <;> rfl
    rw [hbytes]; rfl

theorem decode_bytesOfWord (x : Xlen) (w : InstrWord) (rest : List Byte) :
    decode x (bytesOfWord w ++ rest) = decodeWord x w := by
  rw [decode, wordOfBytes_bytesOfWord]

/-- Settles O1: the bytes of the encoding are those of its word, and the word decodes back. -/
theorem decodeOfEncodeIsIdentity : Obligations.DecodeOfEncodeIsIdentity := by
  intro x i hwf
  rw [← List.append_nil (bytesOfWord _), decode_bytesOfWord, decodeWord_encode hwf]

/-- Settles O2: bytes that decode to an instruction are a word and a rest, and the word is the encoding. -/
theorem encodeOfDecodeIsIdentity : Obligations.EncodeOfDecodeIsIdentity := by
  intro x bytes i h
  unfold decode at h
  split at h
  next w hw =>
    obtain ⟨hwf, rfl⟩ := decodeWord_eq_instr_iff.mp h
    exact ⟨hwf, eq_bytesOfWord_append hw⟩
  next => exact absurd h (by simp)

/-! ### The opcode table (R181) -/

/-- A field that the mask covers is the pattern's. -/
theorem extractLsb'_of_masked {w mask pattern : InstrWord} {start len : Nat} (h : w &&& mask = pattern)
    (hm : mask.extractLsb' start len = BitVec.allOnes len) :
    w.extractLsb' start len = pattern.extractLsb' start len := by
  rw [← h, BitVec.extractLsb'_and, hm, BitVec.and_allOnes]

/-- Every mask but those of the fixed words covers the opcode and funct3, which choose the format. -/
theorem wordOfFields_of_masked {w mask pattern : InstrWord} {op : BitVec 7} {f3 : BitVec 3} (h : w &&& mask = pattern)
    (hmask : opcodeField mask = BitVec.allOnes 7 ∧ funct3Field mask = BitVec.allOnes 3 := by decide)
    (hpattern : opcodeField pattern = op ∧ funct3Field pattern = f3 := by decide) :
    wordOfFields (imm12Field w) (rs1Field w) f3 (rdField w) op = w :=
  wordOfFields_of_opcode_funct3 ((extractLsb'_of_masked h hmask.left).trans hpattern.left)
    ((extractLsb'_of_masked h hmask.right).trans hpattern.right)

/-- A fixed word's row fixes every bit. -/
theorem eq_of_fully_masked {w pattern : InstrWord} (h : w &&& 0xFFFFFFFF#32 = pattern) : w = pattern := by
  have hmask : 0xFFFFFFFF#32 = BitVec.allOnes 32 := rfl
  rwa [hmask, BitVec.and_allOnes] at h

theorem encode_and_mask (i : Instr) : encode i &&& i.row.mask = i.row.pattern := by
  cases i with
  | csrrw rd csr rs1 => exact (Laws.TableRow.csrrw rd csr rs1).left
  | csrrs rd csr rs1 => exact (Laws.TableRow.csrrs rd csr rs1).left
  | csrrc rd csr rs1 => exact (Laws.TableRow.csrrc rd csr rs1).left
  | csrrwi rd csr uimm => exact (Laws.TableRow.csrrwi rd csr uimm).left
  | csrrsi rd csr uimm => exact (Laws.TableRow.csrrsi rd csr uimm).left
  | csrrci rd csr uimm => exact (Laws.TableRow.csrrci rd csr uimm).left
  | mret => exact Laws.TableRow.mret.left
  | sret => exact Laws.TableRow.sret.left
  | wfi => exact Laws.TableRow.wfi.left
  | ecall => exact Laws.TableRow.ecall.left
  | ebreak => exact Laws.TableRow.ebreak.left
  | sfenceVma rs1 rs2 => exact (Laws.TableRow.sfenceVma rs1 rs2).left
  | addi rd rs1 imm => exact (Laws.TableRow.addi rd rs1 imm).left
  | andi rd rs1 imm => exact (Laws.TableRow.andi rd rs1 imm).left
  | ori rd rs1 imm => exact (Laws.TableRow.ori rd rs1 imm).left
  | srli rd rs1 shamt => exact (Laws.TableRow.srli rd rs1 shamt).left
  | sd rs2 rs1 imm => exact (Laws.TableRow.sd rs2 rs1 imm).left

/-- A word of an instruction's row is the encoding of that instruction with the word's own operands. -/
theorem exists_encode_of_masked (j : Instr) {w : InstrWord} (h : w &&& j.row.mask = j.row.pattern) :
    ∃ i, encode i = w ∧ i.row = j.row := by
  cases j <;> simp only [Instr.row] at h
  case csrrw => exact ⟨.csrrw (rdField w) (imm12Field w) (rs1Field w), wordOfFields_of_masked h, rfl⟩
  case csrrs => exact ⟨.csrrs (rdField w) (imm12Field w) (rs1Field w), wordOfFields_of_masked h, rfl⟩
  case csrrc => exact ⟨.csrrc (rdField w) (imm12Field w) (rs1Field w), wordOfFields_of_masked h, rfl⟩
  case csrrwi => exact ⟨.csrrwi (rdField w) (imm12Field w) (rs1Field w), wordOfFields_of_masked h, rfl⟩
  case csrrsi => exact ⟨.csrrsi (rdField w) (imm12Field w) (rs1Field w), wordOfFields_of_masked h, rfl⟩
  case csrrci => exact ⟨.csrrci (rdField w) (imm12Field w) (rs1Field w), wordOfFields_of_masked h, rfl⟩
  case mret => exact ⟨.mret, (eq_of_fully_masked h).symm, rfl⟩
  case sret => exact ⟨.sret, (eq_of_fully_masked h).symm, rfl⟩
  case wfi => exact ⟨.wfi, (eq_of_fully_masked h).symm, rfl⟩
  case ecall => exact ⟨.ecall, (eq_of_fully_masked h).symm, rfl⟩
  case ebreak => exact ⟨.ebreak, (eq_of_fully_masked h).symm, rfl⟩
  case addi => exact ⟨.addi (rdField w) (rs1Field w) (imm12Field w), wordOfFields_of_masked h, rfl⟩
  case andi => exact ⟨.andi (rdField w) (rs1Field w) (imm12Field w), wordOfFields_of_masked h, rfl⟩
  case ori => exact ⟨.ori (rdField w) (rs1Field w) (imm12Field w), wordOfFields_of_masked h, rfl⟩
  case sfenceVma =>
    have h7 : funct7Field w = 0b0001001#7 := (extractLsb'_of_masked h (by decide)).trans (by decide)
    have hrd : rdField w = 0#5 := (extractLsb'_of_masked h (by decide)).trans (by decide)
    refine ⟨.sfenceVma (rs1Field w) (rs2Field w), ?_, rfl⟩
    rw [encode_sfenceVma, ← h7, ← hrd, ← imm12Field_eq_funct7_rs2]
    exact wordOfFields_of_masked h
  case srli =>
    have h6 : funct6Field w = 0#6 := (extractLsb'_of_masked h (by decide)).trans (by decide)
    refine ⟨.srli (rdField w) (rs1Field w) (shamtField w), ?_, rfl⟩
    rw [encode_srli, ← h6, ← imm12Field_eq_funct6_shamt]
    exact wordOfFields_of_masked h
  case sd =>
    have h7 : (storeImm w).extractLsb' 5 7 = funct7Field w := BitVec.extractLsb'_append_eq_left
    have hrd : (storeImm w).extractLsb' 0 5 = rdField w := BitVec.extractLsb'_append_eq_right
    refine ⟨.sd (rs2Field w) (rs1Field w) (storeImm w), ?_, rfl⟩
    rw [encode_sd, h7, hrd, ← imm12Field_eq_funct7_rs2]
    exact wordOfFields_of_masked h

/-- Every instruction of the table exists with XLEN = 64. -/
theorem wf_rv64 (i : Instr) : i.wf .rv64 = true := by
  cases i <;> rfl

theorem eq_row_of_mem_opcodeTable {r : OpcodeRow} (h : r ∈ opcodeTable) : ∃ j : Instr, r = j.row := by
  simp only [opcodeTable, List.mem_cons, List.not_mem_nil, or_false] at h
  rcases h with h | h | h | h | h | h | h | h | h | h | h | h | h | h | h | h | h <;> exact ⟨_, h⟩

/-- Settles O3: on RV64 a word decodes to an instruction exactly when it is its encoding, and the words of a row are the
encodings of its instructions. -/
theorem decodeFollowsOpcodeTable : Obligations.DecodeFollowsOpcodeTable := by
  refine ⟨rfl, fun r hr w => ⟨fun h => ?matched, fun ⟨i, hd, hrow⟩ => ?decoded⟩⟩
  case matched =>
    obtain ⟨j, rfl⟩ := eq_row_of_mem_opcodeTable hr
    obtain ⟨i, hw, hrow⟩ := exists_encode_of_masked j h
    exact ⟨i, decodeWord_eq_instr_iff.mpr ⟨wf_rv64 i, hw⟩, hrow⟩
  case decoded =>
    obtain ⟨-, rfl⟩ := decodeWord_eq_instr_iff.mp hd
    rw [← hrow]
    exact encode_and_mask i

/-! ### The words of no row (R182) -/

theorem decodePrivileged_illegal_iff (w : InstrWord) :
    decodePrivileged w = .illegal ↔
      w ∉ [0x00000073#32, 0x00100073#32, 0x10200073#32, 0x30200073#32, 0x10500073#32] ∧
        ¬ (funct7Field w = 0b0001001#7 ∧ rdField w = 0#5) := by
  unfold decodePrivileged
  split_ifs with hecall hebreak hsret hmret hwfi hfence <;> simp_all

theorem decodePrivileged_ne_outside (w : InstrWord) : decodePrivileged w ≠ .outside := by
  unfold decodePrivileged
  split_ifs <;> simp

theorem decodeSystem_illegal_iff (w : InstrWord) :
    decodeSystem w = .illegal ↔
      funct3Field w = 0b100#3 ∨ (funct3Field w = 0b000#3 ∧ decodePrivileged w = .illegal) := by
  unfold decodeSystem
  generalize funct3Field w = f3
  generalize decodePrivileged w = d
  have hcases : ∀ f : BitVec 3, f = 0 ∨ f = 1 ∨ f = 2 ∨ f = 3 ∨ f = 4 ∨ f = 5 ∨ f = 6 ∨ f = 7 := by decide
  rcases hcases f3 with rfl | rfl | rfl | rfl | rfl | rfl | rfl | rfl <;> simp

theorem decodeSystem_ne_outside (w : InstrWord) : decodeSystem w ≠ .outside := by
  unfold decodeSystem
  split_ifs <;> simp [decodePrivileged_ne_outside]

theorem decodeOpImm_ne_illegal (x : Xlen) (w : InstrWord) : decodeOpImm x w ≠ .illegal := by
  unfold decodeOpImm
  split_ifs <;> simp

theorem decodeStore_ne_illegal (x : Xlen) (w : InstrWord) : decodeStore x w ≠ .illegal := by
  unfold decodeStore
  split_ifs <;> simp

/-- The pattern of SRLI bit by bit: with XLEN = 32 bit 25 too is 0. -/
theorem srliPattern_iff_bits (x : Xlen) (w : InstrWord) :
    srliPattern x w = true ↔ w.extractLsb' 26 6 = 0#6 ∧ (x = .rv32 → w.getLsbD 25 = false) := by
  cases x with
  | rv64 => simp [srliPattern, funct6Field]
  | rv32 =>
    simp only [srliPattern, beq_iff_eq, ← BitVec.toNat_inj, funct7Field, BitVec.extractLsb'_toNat, true_imp_iff,
      BitVec.toNat_ofNat, Nat.shiftRight_eq_div_pow, BitVec.getLsbD, Nat.testBit_eq_decide_div_mod_eq,
      decide_eq_false_iff_not]
    omega

theorem decodeOpImm_outside_iff (x : Xlen) (w : InstrWord) :
    decodeOpImm x w = .outside ↔
      funct3Field w ∉ [0b000#3, 0b110#3, 0b111#3] ∧
        ¬ (funct3Field w = 0b101#3 ∧ w.extractLsb' 26 6 = 0#6 ∧ (x = .rv32 → w.getLsbD 25 = false)) := by
  rw [← srliPattern_iff_bits]
  unfold decodeOpImm
  split_ifs <;> simp_all

theorem decodeStore_outside_iff (x : Xlen) (w : InstrWord) :
    decodeStore x w = .outside ↔ ¬ (funct3Field w = 0b011#3 ∧ x = .rv64) := by
  unfold decodeStore
  split_ifs with h <;> simp [h]

theorem decodeWord_illegal_iff (x : Xlen) (w : InstrWord) :
    decodeWord x w = .illegal ↔ opcodeField w = opcodeSystem ∧ decodeSystem w = .illegal := by
  unfold decodeWord
  split_ifs with hsystem hopImm hstore <;>
    simp_all [decodeOpImm_ne_illegal, decodeStore_ne_illegal, opcodeSystem, opcodeOpImm, opcodeStore]

theorem decodeWord_outside_iff (x : Xlen) (w : InstrWord) :
    decodeWord x w = .outside ↔
      (opcodeField w ≠ opcodeSystem ∧ opcodeField w ≠ opcodeOpImm ∧ opcodeField w ≠ opcodeStore) ∨
      (opcodeField w = opcodeOpImm ∧ decodeOpImm x w = .outside) ∨
      (opcodeField w = opcodeStore ∧ decodeStore x w = .outside) := by
  unfold decodeWord
  split_ifs with hsystem hopImm hstore <;>
    simp_all [decodeSystem_ne_outside, opcodeSystem, opcodeOpImm, opcodeStore]

theorem exec_sd_rv32 {s : State} (h : s.cfg.xlen = .rv32) (rs2 rs1 : Reg) (imm : BitVec 12) :
    exec (.sd rs2 rs1 imm) s = .refused .wrongXlen := by
  simp [exec, execSd, Instr.wf, h]

theorem exec_srli_rv32 {s : State} (h : s.cfg.xlen = .rv32) (rd rs1 : Reg) {shamt : BitVec 6}
    (hsh : 32 ≤ shamt.toNat) : exec (.srli rd rs1 shamt) s = .refused .wrongXlen := by
  simp [exec, execSrli, Instr.wf, h, Nat.not_lt.mpr hsh]

/-- Settles O4: only the SYSTEM opcode answers illegal, only the others answer outside, each in the branch that no
pattern takes. -/
theorem unlistedWordsIllegalOrOutside : Obligations.UnlistedWordsIllegalOrOutside := by
  intro x w
  refine ⟨?illegal, ?outside, fun s hx => ⟨exec_sd_rv32 hx, fun rd rs1 shamt => exec_srli_rv32 hx rd rs1⟩⟩
  case illegal => rw [decodeWord_illegal_iff, decodeSystem_illegal_iff, decodePrivileged_illegal_iff]; rfl
  case outside => rw [decodeWord_outside_iff, decodeOpImm_outside_iff, decodeStore_outside_iff]; rfl

/-- Settles O5. -/
theorem sampleWordsDecode : Obligations.SampleWordsDecode := by
  unfold Obligations.SampleWordsDecode
  decide

end Sys2Proof.Proofs

/-! PROOF. The privilege after a step (60_exceptions.md R289, R296): only MRET and SRET lower it. -/

namespace Sys2Proof.Proofs

open Sys2Proof Sys2Proof.Machine

theorem raiseExc_priv (e : Exc) (v : Word) (s : State) :
    (raiseExc e v s).priv = trapTarget s false (excCode e) := by
  rw [raiseExc, takeTrap_priv]
  rcases trapTarget_cases s false (excCode e) with h | ⟨h, -, -⟩ <;> rw [h] <;> rfl

theorem takeTrap_priv_of_interruptTaken {s : State} {i : Irq} {target : Priv}
    (h : interruptTaken s = some (i, target)) (interrupt : Bool) (code : Nat) (tval epc : Word) :
    (takeTrap interrupt code tval epc target s).priv = target := by
  rw [takeTrap_priv]
  rcases interruptTaken_target h with rfl | rfl <;> rfl

/-- An interrupt is handled in M-mode, or in S-mode by a hart that was below M-mode. -/
theorem privBits_le_interrupt_target {s : State} {i : Irq} {target : Priv}
    (h : interruptTaken s = some (i, target)) : privBits s.priv ≤ privBits target := by
  rcases interruptTaken_target h with rfl | rfl
  · exact privBits_le_machine s.priv
  · exact privBits_le_supervisor (interruptTaken_supervisor h).left

/-- Of the instructions only the two returns lower the privilege. -/
theorem exec_privBits_le_or_returns {i : Instr} {s t : State} (h : exec i s = .next t) :
    privBits s.priv ≤ privBits t.priv ∨ i = .mret ∨ i = .sret := by
  cases exec_cases h with
  | raises e v _ => exact .inl (by rw [raiseExc_priv]; exact privBits_le_trapTarget s false (excCode e))
  | csr a rd wr rdEn new _ => exact .inl (by rw [csrResult_priv]; exact BitVec.le_refl _)
  | mret new hi _ _ => exact .inr (.inl hi)
  | sret hi _ _ => exact .inr (.inr hi)
  | wfi => exact .inl (by simp)
  | fence rs1 rs2 => exact .inl (by simp)
  | register rd v => exact .inl (by simp)
  | store addr n v => exact .inl (by simp)

/-- Settles O56: the move of the agents and the wake keep the mode, every trap goes to a mode at least as high, and of
the instructions only the returns lower it. -/
theorem onlyReturnsLowerPrivilege : Obligations.OnlyReturnsLowerPrivilege := by
  intro s t hstep
  have hpriv : (wake (moveAgents s)).priv = s.priv := by simp
  rw [← hpriv]
  cases step_cases hstep with
  | waits _ => exact .inl (BitVec.le_refl _)
  | interrupt i target h =>
    exact .inl (by rw [takeTrap_priv_of_interruptTaken h]; exact privBits_le_interrupt_target h)
  | raises e v _ => exact .inl (by rw [raiseExc_priv]; exact privBits_le_trapTarget _ false (excCode e))
  | executes bs i t hf hd he =>
    rw [wake_cfg, moveAgents_cfg] at hd
    rcases exec_privBits_le_or_returns he with hle | rfl | rfl
    · exact .inl hle
    · exact .inr ⟨bs, hf, .inl hd⟩
    · exact .inr ⟨bs, hf, .inr hd⟩

end Sys2Proof.Proofs

/-! PROOF. The invariant of the machine and the width of its registers (10_state.md, 20_memory.md R140; log 2): each
operation a step is made of keeps them. -/

namespace Sys2Proof.Proofs

open Sys2Proof Sys2Proof.Machine

/-- The two invariants that a step keeps together; the invariant says what may be written, the width how wide. -/
structure Sound (s : State) : Prop where
  inv   : Inv s
  width : WidthInv s

/-! ### Words within a mask -/

/-- A word is zero outside a mask exactly when each of its bits is one of the mask's. -/
theorem and_not_eq_zero_iff {n : Nat} (v m : BitVec n) :
    v &&& ~~~m = 0#n ↔ ∀ k, v.getLsbD k = true → m.getLsbD k = true := by
  constructor
  · intro h k hv
    have hk : k < n := BitVec.lt_of_getLsbD hv
    have hbit : (v &&& ~~~m).getLsbD k = false := by rw [h]; exact BitVec.getLsbD_zero
    simpa [hv, hk] using hbit
  · intro h
    refine BitVec.eq_of_getLsbD_eq fun k hk => ?_
    cases hv : v.getLsbD k with
    | false => simp [hv]
    | true => simp [h k hv]

theorem and_mask_within {n : Nat} (v m : BitVec n) : (v &&& m) &&& ~~~m = 0#n := by
  rw [and_not_eq_zero_iff]
  intro k hk
  rw [BitVec.getLsbD_and, Bool.and_eq_true] at hk
  exact hk.right

theorem merge_within {n : Nat} {old new m mask : BitVec n} (hold : old &&& ~~~mask = 0#n)
    (hm : m &&& ~~~mask = 0#n) : ((old &&& ~~~m) ||| (new &&& m)) &&& ~~~mask = 0#n := by
  rw [and_not_eq_zero_iff] at hold hm ⊢
  intro k hk
  simp only [BitVec.getLsbD_or, BitVec.getLsbD_and, Bool.or_eq_true, Bool.and_eq_true] at hk
  rcases hk with ⟨ho, -⟩ | ⟨-, hk⟩
  · exact hold k ho
  · exact hm k hk

theorem or_within {n : Nat} {v w mask : BitVec n} (hv : v &&& ~~~mask = 0#n) (hw : w &&& ~~~mask = 0#n) :
    (v ||| w) &&& ~~~mask = 0#n := by
  rw [and_not_eq_zero_iff] at hv hw ⊢
  intro k hk
  rw [BitVec.getLsbD_or, Bool.or_eq_true] at hk
  exact hk.elim (hv k) (hw k)

theorem setBit_within {m mask : Word} {i : Nat} {b : Bool} (hi : i < 64) (hbit : b = true → mask.getLsbD i = true)
    (h : m &&& ~~~mask = 0#64) : setBit m i b &&& ~~~mask = 0#64 := by
  rw [and_not_eq_zero_iff] at h ⊢
  intro k hk
  rw [getLsbD_setBit hi] at hk
  split at hk
  next hki => rw [hki]; exact hbit hk
  next => exact h k hk

theorem setMPP_within {m mask : Word} {p : BitVec 2} (h11 : mask.getLsbD 11 = true) (h12 : mask.getLsbD 12 = true)
    (h : m &&& ~~~mask = 0#64) : setMPP m p &&& ~~~mask = 0#64 := by
  rw [and_not_eq_zero_iff] at h ⊢
  intro k hk
  rw [getLsbD_setMPP] at hk
  split_ifs at hk with hk11 hk12
  · rw [hk11]; exact h11
  · rw [hk12]; exact h12
  · exact h k hk

/-! ### Aligned words -/

theorem aligned_iff (v : Word) : v &&& 3#64 = 0#64 ↔ v.toNat % 4 = 0 := by
  rw [← BitVec.toNat_inj, BitVec.toNat_and]
  exact Eq.congr_left (Nat.and_two_pow_sub_one_eq_mod v.toNat 2)

theorem clearLow_aligned (v : Word) : (v &&& ~~~3#64) &&& 3#64 = 0#64 := by
  rw [aligned_iff, toNat_and_not_three]
  exact Nat.mul_mod_left _ 4

theorem aligned_mod (x : Xlen) {n : Nat} (h : n % 4 = 0) : n % 2 ^ xlenBits x % 4 = 0 := by
  cases x <;> simp only [xlenBits] <;> omega

theorem nextPc_aligned {s : State} (h : s.pc &&& 3#64 = 0#64) : nextPc s &&& 3#64 = 0#64 := by
  rw [aligned_iff] at h ⊢
  rw [nextPc, show 4#64 = BitVec.ofNat 64 4 from rfl, toNat_trunc_add_ofNat]
  exact aligned_mod _ (by omega)

theorem trapVector_aligned (x : Xlen) (tvec : Word) (interrupt : Bool) (code : Nat) :
    trapVector x tvec interrupt code &&& 3#64 = 0#64 := by
  rw [trapVector_eq, aligned_iff]
  split
  · rw [toNat_trunc_add_ofNat, toNat_and_not_three]
    exact aligned_mod _ (by omega)
  · rw [toNat_and_not_three]; exact Nat.mul_mod_left _ 4

/-! ### Values within XLEN bits -/

theorem fitsXlen_trapVector {x : Xlen} {tvec : Word} (h : FitsXlen x tvec) (interrupt : Bool) (code : Nat) :
    FitsXlen x (trapVector x tvec interrupt code) := by
  rw [trapVector]
  split
  · exact fitsXlen_trunc _ _
  · exact fitsXlen_and h _

theorem fitsXlen_trapCause (x : Xlen) (interrupt : Bool) {code : Nat} (h : code < 16) :
    FitsXlen x (trapCause x interrupt code) := by
  rw [fitsXlen_iff, toNat_trapCause x interrupt h]
  cases x <;> cases interrupt <;> simp [xlenBits] <;> omega

theorem fitsXlen_zero (x : Xlen) : FitsXlen x 0#64 := fitsXlen_of_lt (by decide)

theorem fitsXlen_trapValue {s : State} (h : Sound s) {v : Word} (hv : IsTrapValue s v) : FitsXlen s.cfg.xlen v := by
  rcases hv with rfl | rfl | ⟨w, rfl⟩ | ⟨rs1, imm, rfl⟩
  · exact fitsXlen_zero _
  · exact h.width.pc
  · exact fitsXlen_of_lt (by simp only [BitVec.toNat_setWidth]; omega)
  · exact fitsXlen_trunc _ _

/-! ### The mode bits of mstatus -/

/-- The interrupt stacks and MPP are writable in every configuration. -/
theorem mstatusMask_stacks (c : Config) {k : Nat} (hk : k ∈ [1, 3, 5, 7, 8, 11, 12]) :
    (mstatusMask c).getLsbD k = true := by
  have hwritable : 0x19AA#64 &&& ~~~mstatusMask c = 0#64 := by
    unfold mstatusMask hasU hasS
    cases c.hasF <;> cases c.modes <;> decide
  rw [and_not_eq_zero_iff] at hwritable
  refine hwritable k ?_
  revert k; decide

theorem setBit_within_mstatusMask {c : Config} {m : Word} {i : Nat} {b : Bool} (hi : i ∈ [1, 3, 5, 7, 8])
    (h : m &&& ~~~mstatusMask c = 0#64) : setBit m i b &&& ~~~mstatusMask c = 0#64 :=
  setBit_within (by revert i; decide) (fun _ => mstatusMask_stacks c (by revert i; decide)) h

theorem setMPP_within_mstatusMask {c : Config} {m : Word} {p : BitVec 2} (h : m &&& ~~~mstatusMask c = 0#64) :
    setMPP m p &&& ~~~mstatusMask c = 0#64 :=
  setMPP_within (mstatusMask_stacks c (by decide)) (mstatusMask_stacks c (by decide)) h

theorem mstatusMPP_congr {m m' : Word} (h11 : m'.getLsbD 11 = m.getLsbD 11) (h12 : m'.getLsbD 12 = m.getLsbD 12) :
    mstatusMPP m' = mstatusMPP m := by
  refine BitVec.eq_of_getLsbD_eq fun k hk => ?_
  simp only [mstatusMPP, BitVec.getLsbD_extractLsb']
  interval_cases k
  · simpa using h11
  · simpa using h12

theorem mstatusMPP_setBit {m : Word} {i : Nat} (hi : i < 64) (h11 : i ≠ 11) (h12 : i ≠ 12) (b : Bool) :
    mstatusMPP (setBit m i b) = mstatusMPP m :=
  mstatusMPP_congr (by rw [getLsbD_setBit hi, if_neg h11.symm]) (by rw [getLsbD_setBit hi, if_neg h12.symm])

theorem privOfBits_eq_some_iff (b : BitVec 2) (p : Priv) : privOfBits b = some p ↔ b = privBits p := by
  cases p <;> revert b <;> decide

theorem privBits_mem_modeEncodings_iff (c : Config) (p : Priv) :
    (privBits p).toNat ∈ modeEncodings c ↔ implementsMode c p = true := by
  unfold implementsMode hasU hasS modeEncodings
  cases c.modes <;> cases p <;> decide

theorem implementsMode_leastMode (c : Config) : implementsMode c (leastMode c) = true := by
  unfold leastMode
  split
  next h => exact h
  next => rfl

/-- Where S-mode exists, U-mode does (60_exceptions.md R295). -/
theorem implementsMode_user_of_supervisor {c : Config} (h : hasS c = true) : implementsMode c .U = true := by
  have hm : c.modes = .msu := by simpa [hasS] using h
  simp [implementsMode, hasU, hm]

/-! ### The agents, the registers, retirement -/

theorem Sound.moveAgents {s : State} (h : Sound s) : Sound (moveAgents s) :=
  ⟨{ h.inv with }, { h.width with }⟩

theorem Sound.wake {s : State} (h : Sound s) : Sound (wake s) := by
  unfold Machine.wake
  split
  · exact ⟨{ h.inv with }, { h.width with }⟩
  · exact h

theorem Sound.setX {s : State} (h : Sound s) (r : Reg) (v : Word) : Sound (setX s r v) := by
  unfold Machine.setX
  split
  · exact h
  next hr =>
    have hne : r.toNat ≠ 0 := fun hz => hr (BitVec.eq_of_toNat_eq hz)
    refine ⟨{ h.inv with x0 := ?x0 }, { h.width with x := fun q => ?fits }⟩
    case x0 => simp [hne, h.inv.x0]
    case fits =>
      simp only [Fin.getElem_fin, Vector.getElem_set]
      split
      · exact fitsXlen_trunc _ _
      · exact h.width.x q

theorem Sound.advancePc {s : State} (h : Sound s) : Sound (advancePc s) :=
  ⟨{ h.inv with pcAligned := nextPc_aligned h.inv.pcAligned }, { h.width with pc := fitsXlen_trunc _ _ }⟩

theorem Sound.countRetired {s : State} (h : Sound s) (inhibit : BitVec 32) (wrote : Bool) :
    Sound (countRetired inhibit wrote s) := by
  unfold Machine.countRetired
  split
  · exact h
  · exact ⟨{ h.inv with }, { h.width with }⟩

theorem Sound.retire {s : State} (h : Sound s) : Sound (retire s) := (h.countRetired _ _).advancePc

theorem Sound.flushTlb {s : State} (h : Sound s) (rs1 rs2 : Reg) : Sound (flushTlb rs1 rs2 s) :=
  ⟨{ h.inv with }, { h.width with }⟩

theorem Sound.commitStore {s : State} (h : Sound s) (addr : Word) (n : Nat) (v : Word) :
    Sound (commitStore addr n v s) :=
  ⟨{ h.inv with
      memory := writeBytes_wf h.inv.memory _ _ _ _
      stored := foldl_insertAddr_pairwise _ h.inv.stored }, { h.width with }⟩

/-! ### Traps and returns -/

theorem Sound.takeTrap_machine {s : State} (h : Sound s) {interrupt : Bool} {code : Nat} {tval epc : Word}
    (hcode : code < 16) (htval : FitsXlen s.cfg.xlen tval) (hepc : FitsXlen s.cfg.xlen epc) :
    Sound (takeTrap interrupt code tval epc .M s) := by
  refine ⟨{ h.inv with
      pcAligned := trapVector_aligned _ _ _ _
      mepcAligned := clearLow_aligned _
      privLegal := rfl
      mppLegal := ?mpp
      mstatusMasked := ?masked }, { h.width with
      pc := fitsXlen_trapVector h.width.mtvec _ _
      mepc := fitsXlen_and hepc _
      mcause := fitsXlen_trapCause _ _ hcode
      mtval := htval
      mtinst := ?mtinst
      mtval2 := ?mtval2 }⟩
  case mpp =>
    rw [takeTrap_machine_mstatusMPP, takeTrap_cfg, privBits_mem_modeEncodings_iff]
    exact h.inv.privLegal
  case masked =>
    exact setMPP_within_mstatusMask (setBit_within_mstatusMask (by decide)
      (setBit_within_mstatusMask (by decide) h.inv.mstatusMasked))
  case mtinst =>
    show FitsXlen s.cfg.xlen (if s.cfg.hasHtrap then 0#64 else s.mtinst)
    split
    · exact fitsXlen_zero _
    · exact h.width.mtinst
  case mtval2 =>
    show FitsXlen s.cfg.xlen (if s.cfg.hasHtrap then 0#64 else s.mtval2)
    split
    · exact fitsXlen_zero _
    · exact h.width.mtval2

theorem Sound.takeTrap_supervisor {s : State} (h : Sound s) {interrupt : Bool} {code : Nat} {tval epc : Word}
    (hS : hasS s.cfg = true) (hcode : code < 16) (htval : FitsXlen s.cfg.xlen tval)
    (hepc : FitsXlen s.cfg.xlen epc) : Sound (takeTrap interrupt code tval epc .S s) := by
  refine ⟨{ h.inv with
      pcAligned := trapVector_aligned _ _ _ _
      sepcAligned := clearLow_aligned _
      privLegal := hS
      mppLegal := ?mpp
      mstatusMasked := ?masked }, { h.width with
      pc := fitsXlen_trapVector h.width.stvec _ _
      sepc := fitsXlen_and hepc _
      scause := fitsXlen_trapCause _ _ hcode
      stval := htval }⟩
  case mpp =>
    have hkept : mstatusMPP (takeTrap interrupt code tval epc .S s).mstatus = mstatusMPP s.mstatus :=
      mstatusMPP_congr (takeTrap_supervisor_mstatus_kept _ _ _ _ _ (by decide))
        (takeTrap_supervisor_mstatus_kept _ _ _ _ _ (by decide))
    rw [hkept, takeTrap_cfg]
    exact h.inv.mppLegal
  case masked =>
    exact setBit_within_mstatusMask (by decide) (setBit_within_mstatusMask (by decide)
      (setBit_within_mstatusMask (by decide) h.inv.mstatusMasked))

theorem excCode_lt (e : Exc) : excCode e < 16 := by
  cases e <;> decide

theorem irqCode_lt (i : Irq) : irqCode i < 16 := by
  cases i <;> decide

theorem Sound.raiseExc {s : State} (h : Sound s) (e : Exc) {v : Word} (hv : IsTrapValue s v) :
    Sound (raiseExc e v s) := by
  have hfits := fitsXlen_trapValue h hv
  rw [Machine.raiseExc]
  rcases trapTarget_cases s false (excCode e) with hM | ⟨hS, hsup, -⟩
  · rw [hM]; exact h.takeTrap_machine (excCode_lt e) hfits h.width.pc
  · rw [hS]; exact h.takeTrap_supervisor hsup (excCode_lt e) hfits h.width.pc

/-- A delegated interrupt is one of a hart with S-mode, since without it nothing is delegated. -/
theorem Sound.hasS_of_delegated {s : State} (h : Sound s) {k : Nat} (hd : s.mideleg.getLsbD k = true) :
    hasS s.cfg = true := by
  by_contra hno
  obtain ⟨-, hzero⟩ := h.inv.noDelegation (by simpa using hno)
  rw [hzero] at hd
  exact absurd hd (by simp)

theorem Sound.takeInterrupt {s : State} (h : Sound s) {i : Irq} {target : Priv}
    (hi : interruptTaken s = some (i, target)) : Sound (takeTrap true (irqCode i) 0#64 s.pc target s) := by
  rcases interruptTaken_target hi with rfl | rfl
  · exact h.takeTrap_machine (irqCode_lt i) (fitsXlen_zero _) h.width.pc
  · exact h.takeTrap_supervisor (h.hasS_of_delegated (interruptTaken_supervisor hi).right) (irqCode_lt i)
      (fitsXlen_zero _) h.width.pc

/-- MPP after MRET is the least privileged mode; the clearing of MPRV does not touch it. -/
theorem returnFromM_mstatusMPP (new : Priv) (s : State) :
    mstatusMPP (returnFromM new s).mstatus = privBits (leastMode s.cfg) := by
  simp only [returnFromM]
  split
  · exact mstatusMPP_setMPP _ _
  · rw [setMPRV, mstatusMPP_setBit (by decide) (by decide) (by decide), mstatusMPP_setMPP]

theorem Sound.returnFromM {s : State} (h : Sound s) {new : Priv}
    (hnew : privOfBits (mstatusMPP s.mstatus) = some new) : Sound (returnFromM new s) := by
  refine ⟨{ h.inv with
      pcAligned := h.inv.mepcAligned
      privLegal := ?priv
      mppLegal := ?mpp
      mstatusMasked := ?masked }, { h.width with pc := h.width.mepc }⟩
  case priv =>
    rw [returnFromM_cfg, returnFromM_priv, ← privBits_mem_modeEncodings_iff, ← (privOfBits_eq_some_iff _ _).mp hnew]
    exact h.inv.mppLegal
  case mpp =>
    rw [returnFromM_mstatusMPP, returnFromM_cfg, privBits_mem_modeEncodings_iff]
    exact implementsMode_leastMode s.cfg
  case masked =>
    have hstack := setMPP_within_mstatusMask (p := privBits (leastMode s.cfg))
      (setBit_within_mstatusMask (i := 7) (b := true) (by decide)
        (setBit_within_mstatusMask (i := 3) (b := mstatusMPIE s.mstatus) (by decide) h.inv.mstatusMasked))
    simp only [Machine.returnFromM]
    split
    · exact hstack
    · exact setBit_within (by decide) (by simp) hstack

theorem Sound.returnFromS {s : State} (h : Sound s) (hS : hasS s.cfg = true) : Sound (returnFromS s) := by
  refine ⟨{ h.inv with
      pcAligned := h.inv.sepcAligned
      privLegal := ?priv
      mppLegal := ?mpp
      mstatusMasked := ?masked }, { h.width with pc := h.width.sepc }⟩
  case priv =>
    rw [returnFromS_cfg, returnFromS_priv, sretTarget]
    split
    · exact hS
    · exact implementsMode_user_of_supervisor hS
  case mpp =>
    have hkept : mstatusMPP (Machine.returnFromS s).mstatus = mstatusMPP s.mstatus :=
      mstatusMPP_congr (returnFromS_mstatus_getLsbD s 11) (returnFromS_mstatus_getLsbD s 12)
    rw [hkept, returnFromS_cfg]
    exact h.inv.mppLegal
  case masked =>
    exact setBit_within (by decide) (by simp) (setBit_within_mstatusMask (by decide)
      (setBit_within_mstatusMask (by decide) (setBit_within_mstatusMask (by decide) h.inv.mstatusMasked)))

/-! ### CSR writes -/

/-- A WARL field whose legal values are small takes a legal value if it held one, and the field's width keeps it. -/
theorem legalise_mem {p : WarlPolicy} {legal : List Nat} {old new : Nat} (h : old ∈ legal) :
    legalise p legal old new ∈ legal := by
  rcases legalise_mem_or_old p legal old new with hmem | hold
  · exact hmem
  · rw [hold]; exact h

theorem modeEncodings_lt {c : Config} {n : Nat} (h : n ∈ modeEncodings c) : n < 4 := by
  unfold modeEncodings at h
  revert h
  cases c.modes <;> simp <;> omega

/-- Every write of mstatus goes through this one operation, which keeps MPP legal and the read-only bits zero. -/
theorem Sound.mstatusWrite {s : State} (h : Sound s) (v : Word) :
    Sound { s with mstatus := mstatusWrite s.cfg s.mstatus v } := by
  refine ⟨{ h.inv with mppLegal := ?mpp, mstatusMasked := ?masked }, { h.width with }⟩
  case mpp =>
    have hlegal := legalise_mem (p := s.cfg.warl.mpp) (new := (mstatusMPP v).toNat) h.inv.mppLegal
    have hlt := modeEncodings_lt hlegal
    simp only [Machine.mstatusWrite, mstatusMPP_setMPP, BitVec.toNat_ofNat]
    rwa [Nat.mod_eq_of_lt hlt]
  case masked =>
    exact setMPP_within_mstatusMask (merge_within h.inv.mstatusMasked (by simp))

theorem getLsbD_setFSDirty_kept (m : Word) {k : Nat} (hk : k ≠ 13 ∧ k ≠ 14) :
    (setFSDirty m).getLsbD k = m.getLsbD k := by
  have hmask : 0x6000#64 = bitWord 13 true ||| bitWord 14 true := rfl
  simp only [setFSDirty, hmask, BitVec.getLsbD_or, getLsbD_bitWord, Nat.reduceLT]
  simp [hk.left.symm, hk.right.symm]

theorem mstatusMask_FS {c : Config} (hF : c.hasF = true) : 0x6000#64 &&& ~~~mstatusMask c = 0#64 := by
  unfold mstatusMask hasU hasS
  rw [hF]
  cases c.modes <;> decide

/-- A write of fcsr sets only FS (R89), which such a write requires to be implemented. -/
theorem Sound.writeFcsr {s : State} (h : Sound s) (hF : s.cfg.hasF = true) (v : BitVec 8) : Sound (writeFcsr s v) := by
  refine ⟨{ h.inv with mppLegal := ?mpp, mstatusMasked := ?masked }, { h.width with }⟩
  case mpp =>
    have hkept : mstatusMPP (Machine.writeFcsr s v).mstatus = mstatusMPP s.mstatus :=
      mstatusMPP_congr (getLsbD_setFSDirty_kept s.mstatus (by decide)) (getLsbD_setFSDirty_kept s.mstatus (by decide))
    rw [hkept, writeFcsr_cfg]
    exact h.inv.mppLegal
  case masked => exact or_within h.inv.mstatusMasked (mstatusMask_FS hF)

/-- The low two bits of a written mtvec or stvec are the legalised MODE. -/
theorem toNat_extract_tvecWrite (c : Config) (p : WarlPolicy) (old v : Word) :
    ((tvecWrite c p old v).extractLsb' 0 2).toNat =
      legalise p c.mtvecModes (old.extractLsb' 0 2).toNat (v.extractLsb' 0 2).toNat % 4 := by
  have hbase : (v &&& ~~~3#64).extractLsb' 0 2 = 0#2 := by
    have hlow : (~~~3#64).extractLsb' 0 2 = 0#2 := by decide
    rw [BitVec.extractLsb'_and, hlow, BitVec.and_zero]
  rw [tvecWrite, BitVec.extractLsb'_or, hbase, BitVec.zero_or, BitVec.extractLsb'_toNat, BitVec.toNat_ofNat]
  omega

/-- The MODE field of a written mtvec or stvec is accepted, whatever the policy. -/
theorem tvecWrite_mode_mem {c : Config} (hc : ConfigWf c) (p : WarlPolicy) {old : Word} (v : Word)
    (hold : (old.extractLsb' 0 2).toNat ∈ c.mtvecModes) :
    ((tvecWrite c p old v).extractLsb' 0 2).toNat ∈ c.mtvecModes := by
  have hlegal := legalise_mem (p := p) (new := (v.extractLsb' 0 2).toNat) hold
  have hlt := hc.mtvecModes _ hlegal
  rw [toNat_extract_tvecWrite, Nat.mod_eq_of_lt (by omega)]
  exact hlegal

theorem fitsXlen_tvecWrite (c : Config) (p : WarlPolicy) (old : Word) {v : Word} (hv : FitsXlen c.xlen v) :
    FitsXlen c.xlen (tvecWrite c p old v) := by
  refine fitsXlen_or (fitsXlen_and hv _) (fitsXlen_of_lt ?_)
  simp only [BitVec.toNat_ofNat]
  omega

/-- The mask of satp holds all of MODE, for both widths (R85 b). -/
theorem satpMode_and_satpMask (c : Config) (v : Word) : satpMode c.xlen (v &&& satpMask c) = satpMode c.xlen v := by
  have h64 : (0xF000000000000000#64).extractLsb' 60 4 = BitVec.allOnes 4 := by decide
  have h32 : (0x80000000#64).extractLsb' 31 1 = BitVec.allOnes 1 := by decide
  cases hx : c.xlen with
  | rv64 =>
    simp only [satpMode, satpMask, hx, BitVec.extractLsb'_and, BitVec.extractLsb'_or, h64, BitVec.allOnes_or,
      BitVec.and_allOnes]
  | rv32 =>
    simp only [satpMode, satpMask, hx, BitVec.extractLsb'_and, BitVec.extractLsb'_or, h32, BitVec.allOnes_or,
      BitVec.and_allOnes]

theorem satpMode_satpWrite_mem {c : Config} {old : Word} (v : Word) (hold : satpMode c.xlen old ∈ c.satpModes) :
    satpMode c.xlen (satpWrite c old v) ∈ c.satpModes := by
  unfold satpWrite
  split
  next haccepted => rw [satpMode_and_satpMask]; exact haccepted
  next => exact hold

theorem fitsXlen_satpWrite {c : Config} {old v : Word} (hold : FitsXlen c.xlen old) (hv : FitsXlen c.xlen v) :
    FitsXlen c.xlen (satpWrite c old v) := by
  unfold satpWrite
  split
  · exact fitsXlen_and hv _
  · exact hold

theorem fitsXlen_triggerWrite (s : State) (reg : CsrAddr) (old v : Word) :
    FitsXlen s.cfg.xlen (triggerWrite s reg old v) := fitsXlen_trunc _ _

theorem Sound.selectedTrigger {s : State} (h : Sound s) : TriggerFits s.cfg.xlen (selectedTrigger s) := by
  rw [Machine.selectedTrigger, List.getD_eq_getElem?_getD]
  cases ht : s.triggers[s.tselect.toNat]? with
  | none => exact ⟨fitsXlen_zero _, fitsXlen_zero _, fitsXlen_zero _⟩
  | some t => exact h.width.triggers t (List.mem_of_getElem? ht)

theorem Sound.setTrigger {s : State} (h : Sound s) {t : Trigger} (ht : TriggerFits s.cfg.xlen t) :
    Sound (setTrigger s t) := by
  refine ⟨{ h.inv with }, { h.width with triggers := fun u hu => ?_ }⟩
  rcases List.mem_or_eq_of_mem_set hu with hmem | rfl
  · exact h.width.triggers u hmem
  · exact ht

theorem fitsXlen_tselectWrite {s : State} (h : Sound s) (v : Word) :
    FitsXlen s.cfg.xlen
      (BitVec.ofNat 64 (legalise s.cfg.warl.tselect (List.range s.cfg.numTriggers) s.tselect.toNat v.toNat)) := by
  rcases legalise_mem_or_old s.cfg.warl.tselect (List.range s.cfg.numTriggers) s.tselect.toNat v.toNat with hmem | hold
  · have hlt := Nat.lt_of_lt_of_le (List.mem_range.mp hmem) h.inv.config.numTriggers
    refine fitsXlen_of_lt ?_
    rw [BitVec.toNat_ofNat]
    exact Nat.lt_of_le_of_lt (Nat.mod_le _ _) hlt
  · rw [hold, BitVec.ofNat_toNat, BitVec.setWidth_eq]
    exact h.width.tselect

/-- The delegated interrupts are enables that the configuration has: without S-mode there are none. -/
theorem Sound.delegatedMask_within {s : State} (h : Sound s) : delegatedMask s &&& ~~~mieMask s.cfg = 0#64 := by
  rw [delegatedMask, mieMask]
  split
  next =>
    rw [BitVec.and_assoc]
    exact BitVec.and_zero
  next hno =>
    obtain ⟨-, hzero⟩ := h.inv.noDelegation (by simpa using hno)
    rw [hzero]
    simp

theorem fitsXlen_getElem_set {x : Xlen} {n : Nat} {regs : Vector Word n} {i : Fin n} {v : Word} (hv : FitsXlen x v)
    (h : ∀ k : Fin n, FitsXlen x regs[k]) (k : Fin n) : FitsXlen x (regs.set i.val v)[k] := by
  simp only [Fin.getElem_fin, Vector.getElem_set]
  split
  · exact hv
  · exact h k

/-- A write of a register that exists keeps the invariants, the value written having XLEN bits. -/
theorem Sound.writeCsr {s : State} (h : Sound s) {r : Csr} (hr : csrExists s.cfg r = true) {v : Word}
    (hv : FitsXlen s.cfg.xlen v) : Sound (writeCsr s r v) := by
  cases r with
  | fflags | frm | fcsr => exact h.writeFcsr hr _
  | mstatus => exact h.mstatusWrite v
  | sstatus => exact h.mstatusWrite _
  | sie => exact ⟨{ h.inv with mieMasked := merge_within h.inv.mieMasked h.delegatedMask_within }, { h.width with }⟩
  | mie => exact ⟨{ h.inv with mieMasked := and_mask_within _ _ }, { h.width with }⟩
  | sip =>
    simp only [Machine.writeCsr]
    split
    · exact ⟨{ h.inv with mipMasked := setBit_within (by decide) (fun _ => by decide) h.inv.mipMasked },
        { h.width with }⟩
    · exact h
  | mip => exact ⟨{ h.inv with mipMasked := and_mask_within _ _ }, { h.width with }⟩
  | medeleg =>
    exact ⟨{ h.inv with
      medelegMasked := and_mask_within _ _
      noDelegation := fun hno => absurd hr (Bool.eq_false_iff.mp hno) }, { h.width with }⟩
  | mideleg =>
    exact ⟨{ h.inv with
      midelegMasked := and_mask_within _ _
      noDelegation := fun hno => absurd hr (Bool.eq_false_iff.mp hno) }, { h.width with }⟩
  | mcountinhibit => exact ⟨{ h.inv with inhibitMasked := and_mask_within _ _ }, { h.width with }⟩
  | stvec =>
    exact ⟨{ h.inv with stvecLegal := tvecWrite_mode_mem h.inv.config _ v h.inv.stvecLegal },
      { h.width with stvec := fitsXlen_tvecWrite _ _ _ hv }⟩
  | mtvec =>
    exact ⟨{ h.inv with mtvecLegal := tvecWrite_mode_mem h.inv.config _ v h.inv.mtvecLegal },
      { h.width with mtvec := fitsXlen_tvecWrite _ _ _ hv }⟩
  | sepc =>
    exact ⟨{ h.inv with sepcAligned := clearLow_aligned v }, { h.width with sepc := fitsXlen_and hv _ }⟩
  | mepc =>
    exact ⟨{ h.inv with mepcAligned := clearLow_aligned v }, { h.width with mepc := fitsXlen_and hv _ }⟩
  | satp =>
    exact ⟨{ h.inv with satpLegal := satpMode_satpWrite_mem v h.inv.satpLegal },
      { h.width with satp := fitsXlen_satpWrite h.width.satp hv }⟩
  | sscratch => exact ⟨{ h.inv with }, { h.width with sscratch := hv }⟩
  | scause => exact ⟨{ h.inv with }, { h.width with scause := hv }⟩
  | stval => exact ⟨{ h.inv with }, { h.width with stval := hv }⟩
  | mscratch => exact ⟨{ h.inv with }, { h.width with mscratch := hv }⟩
  | mcause => exact ⟨{ h.inv with }, { h.width with mcause := hv }⟩
  | mtval => exact ⟨{ h.inv with }, { h.width with mtval := hv }⟩
  | mtinst => exact ⟨{ h.inv with }, { h.width with mtinst := hv }⟩
  | mtval2 => exact ⟨{ h.inv with }, { h.width with mtval2 := hv }⟩
  | dpc => exact ⟨{ h.inv with }, { h.width with dpc := fitsXlen_and hv _ }⟩
  | dscratch0 => exact ⟨{ h.inv with }, { h.width with dscratch0 := hv }⟩
  | dscratch1 => exact ⟨{ h.inv with }, { h.width with dscratch1 := hv }⟩
  | tselect => exact ⟨{ h.inv with }, { h.width with tselect := fitsXlen_tselectWrite h v }⟩
  | tdata1 => exact h.setTrigger { h.selectedTrigger with tdata1 := fitsXlen_triggerWrite _ _ _ _ }
  | tdata2 => exact h.setTrigger { h.selectedTrigger with tdata2 := fitsXlen_triggerWrite _ _ _ _ }
  | tdata3 => exact h.setTrigger { h.selectedTrigger with tdata3 := fitsXlen_triggerWrite _ _ _ _ }
  | tcontrol => exact ⟨{ h.inv with }, { h.width with tcontrol := fitsXlen_triggerWrite _ _ _ _ }⟩
  | mcontext => exact ⟨{ h.inv with }, { h.width with mcontext := fitsXlen_triggerWrite _ _ _ _ }⟩
  | scontext => exact ⟨{ h.inv with }, { h.width with scontext := fitsXlen_triggerWrite _ _ _ _ }⟩
  | scounteren | mcounteren | pmpcfg _ | dcsr | mcycle | minstret | mcycleh | minstreth =>
    exact ⟨{ h.inv with }, { h.width with }⟩
  | mhpmevent n =>
    simp only [Machine.writeCsr]
    split
    · exact ⟨{ h.inv with }, { h.width with mhpmevent := fun k => fitsXlen_getElem_set hv h.width.mhpmevent k }⟩
    · exact h
  | pmpaddr i =>
    simp only [Machine.writeCsr]
    split
    · exact ⟨{ h.inv with }, { h.width with pmpaddr := fun k => fitsXlen_getElem_set hv h.width.pmpaddr k }⟩
    · exact h
  | mhpmcounter n =>
    simp only [Machine.writeCsr]
    split
    · exact ⟨{ h.inv with }, { h.width with }⟩
    · exact h
  | mhpmcounterh n =>
    simp only [Machine.writeCsr]
    split
    · exact ⟨{ h.inv with }, { h.width with }⟩
    · exact h
  | misa | mstatush | tinfo | cycle | time | instret | hpmcounter _ | cycleh | timeh | instreth | hpmcounterh _
  | mvendorid | marchid | mimpid | mhartid | mconfigptr => exact h


theorem Sound.csrWrite {s : State} (h : Sound s) (a : CsrAddr) (v : Word) : Sound (csrWrite s a v) := by
  unfold Machine.csrWrite
  split
  next r hr =>
    obtain ⟨-, -, hexists, -⟩ := csrImpl_some hr
    exact h.writeCsr hexists (fitsXlen_trunc _ _)
  next => exact h

theorem Sound.csrResult {s : State} (h : Sound s) (a : CsrAddr) (rd : Reg) (wr rdEn : Bool) (new : Word → Word) :
    Sound (csrResult a rd wr rdEn new s) := by
  have hwritten : Sound (if wr then Machine.csrWrite s a (new (csrModifyBase s a)) else s) := by
    split
    · exact h.csrWrite _ _
    · exact h
  simp only [Machine.csrResult]
  refine Sound.advancePc (Sound.countRetired ?_ _ _)
  split
  · exact hwritten.setX _ _
  · exact hwritten

/-! ### Instructions and steps -/

theorem Sound.exec {s t : State} {i : Instr} (h : Sound s) (he : exec i s = .next t) : Sound t := by
  cases exec_cases he with
  | raises e v hv => exact h.raiseExc e hv
  | csr a rd wr rdEn new _ => exact h.csrResult a rd wr rdEn new
  | mret new _ _ hnew => exact (h.countRetired _ _).returnFromM (by rwa [countRetired_mstatus])
  | sret _ hS _ => exact (h.countRetired _ _).returnFromS (by rwa [countRetired_cfg])
  | wfi => exact ⟨{ h.retire.inv with }, { h.retire.width with }⟩
  | fence rs1 rs2 => exact (h.flushTlb rs1 rs2).retire
  | register rd v => exact (h.setX rd v).retire
  | store addr n v => exact (h.commitStore addr n v).retire

theorem csrResult_cfg (a : CsrAddr) (rd : Reg) (wr rdEn : Bool) (new : Word → Word) (s : State) :
    (csrResult a rd wr rdEn new s).cfg = s.cfg := by
  cases wr <;> cases rdEn <;> simp [csrResult]

theorem exec_cfg {i : Instr} {s t : State} (h : exec i s = .next t) : t.cfg = s.cfg := by
  cases exec_cases h with
  | csr a rd wr rdEn new _ => exact csrResult_cfg a rd wr rdEn new s
  | _ => simp

/-- Settles O54: the agents and the wake keep both invariants, and so does each of the things a step can do then. -/
theorem stepKeepsInvariant : Obligations.StepKeepsInvariant := by
  intro s t hinv hwidth hstep
  have hs : Sound (wake (moveAgents s)) := (Sound.moveAgents ⟨hinv, hwidth⟩).wake
  have hcfg : (wake (moveAgents s)).cfg = s.cfg := by simp
  have hnext : Sound t ∧ t.cfg = (wake (moveAgents s)).cfg := by
    cases step_cases hstep with
    | waits _ => exact ⟨hs, rfl⟩
    | interrupt i target hi => exact ⟨hs.takeInterrupt hi, takeTrap_cfg _ _ _ _ _ _⟩
    | raises e v hv => exact ⟨hs.raiseExc e hv, raiseExc_cfg _ _ _⟩
    | executes bs i t hf hd he => exact ⟨hs.exec he, exec_cfg he⟩
  obtain ⟨ht, htcfg⟩ := hnext
  exact ⟨ht.inv, ht.width, htcfg.trans hcfg⟩

/-- Settles O55: REF64 keeps within its bounds, and every register of the reset state is 0 or a constant. -/
theorem resetHasInvariant : Obligations.ResetHasInvariant := by
  have hconfig : ConfigWf Config.ref64 :=
    ⟨by decide, by decide, by decide, by decide, by decide, ⟨rfl, by decide⟩, ⟨rfl, rfl, rfl, rfl, rfl⟩,
      fun _ hv => absurd hv List.not_mem_nil⟩
  refine ⟨?inv, ?width⟩
  case inv =>
    constructor
    case config => exact hconfig
    all_goals decide
  case width =>
    constructor
    case triggers => exact fun t ht => absurd ht List.not_mem_nil
    all_goals intros; rfl

end Sys2Proof.Proofs

/-! PROOF. What code below M-mode can change (30_encoding.md R171, 60_exceptions.md R294 (c), R297): an instruction that
starts and ends below M-mode reaches only the supervisor's part of the machine. -/

namespace Sys2Proof.Proofs

open Sys2Proof Sys2Proof.Machine

/-! ### Words that agree outside a mask -/

/-- The words differ only in bits of the mask. -/
def AgreeOutside (mask v w : Word) : Prop := w &&& ~~~mask = v &&& ~~~mask

theorem agreeOutside_iff {mask v w : Word} :
    AgreeOutside mask v w ↔ ∀ k, mask.getLsbD k = false → w.getLsbD k = v.getLsbD k := by
  constructor
  · intro h k hk
    have hbit := congrArg (·.getLsbD k) h
    by_cases hlt : k < 64
    · simpa only [BitVec.getLsbD_and, BitVec.getLsbD_not, hk, hlt, decide_true, Bool.not_false, Bool.and_true]
        using hbit
    · rw [BitVec.getLsbD_of_ge w k (Nat.le_of_not_lt hlt), BitVec.getLsbD_of_ge v k (Nat.le_of_not_lt hlt)]
  · intro h
    refine BitVec.eq_of_getLsbD_eq fun k hlt => ?_
    rw [BitVec.getLsbD_and, BitVec.getLsbD_and, BitVec.getLsbD_not]
    cases hk : mask.getLsbD k with
    | true => simp only [Bool.not_true, Bool.and_false]
    | false => rw [h k hk]

theorem AgreeOutside.refl (mask v : Word) : AgreeOutside mask v v := rfl

/-- A merge through a mask that the given one contains. -/
theorem agreeOutside_merge {mask m : Word} (hm : m &&& ~~~mask = 0#64) (v new : Word) :
    AgreeOutside mask v ((v &&& ~~~m) ||| (new &&& m)) := by
  rw [and_not_eq_zero_iff] at hm
  rw [agreeOutside_iff]
  intro k hk
  have hmk : m.getLsbD k = false := Bool.eq_false_iff.mpr fun hbit => by
    rw [hm k hbit] at hk
    exact absurd hk (by decide)
  by_cases hlt : k < 64
  · simp only [BitVec.getLsbD_or, BitVec.getLsbD_and, BitVec.getLsbD_not, hmk, hlt, decide_true, Bool.not_false,
      Bool.and_true, Bool.and_false, Bool.or_false]
  · rw [BitVec.getLsbD_of_ge _ k (Nat.le_of_not_lt hlt), BitVec.getLsbD_of_ge v k (Nat.le_of_not_lt hlt)]

theorem agreeOutside_setBit {mask v : Word} {i : Nat} (hi : i < 64) (hbit : mask.getLsbD i = true) (b : Bool) :
    AgreeOutside mask v (setBit v i b) := by
  rw [agreeOutside_iff]
  intro k hk
  have hne : k ≠ i := fun h => by rw [h, hbit] at hk; exact absurd hk (by decide)
  rw [getLsbD_setBit hi, if_neg hne]

/-! ### A write of mstatus whose MPP is legal (R40, R49, R74) -/

theorem setMPP_mstatusMPP (m : Word) : setMPP m (mstatusMPP m) = m := by
  refine BitVec.eq_of_getLsbD_eq fun k hk => ?_
  rw [getLsbD_setMPP]
  split_ifs with h11 h12
  · rw [h11, mstatusMPP]; simp
  · rw [h12, mstatusMPP]; simp
  · rfl

/-- MPP is written whole, whatever the modes. -/
theorem mstatusMPP_merge (c : Config) (m v : Word) :
    mstatusMPP ((m &&& ~~~mstatusMask c) ||| (v &&& mstatusMask c)) = mstatusMPP v := by
  refine mstatusMPP_congr ?_ ?_
  · simp only [BitVec.getLsbD_or, BitVec.getLsbD_and, BitVec.getLsbD_not, mstatusMask_stacks c (k := 11) (by decide)]
    simp
  · simp only [BitVec.getLsbD_or, BitVec.getLsbD_and, BitVec.getLsbD_not, mstatusMask_stacks c (k := 12) (by decide)]
    simp

/-- Writing a legal MPP replaces the writable bits and does nothing else. -/
theorem mstatusWrite_of_legal {c : Config} {v : Word} (m : Word) (hv : (mstatusMPP v).toNat ∈ modeEncodings c) :
    mstatusWrite c m v = (m &&& ~~~mstatusMask c) ||| (v &&& mstatusMask c) := by
  have hmpp : BitVec.ofNat 2 (legalise c.warl.mpp (modeEncodings c) (mstatusMPP m).toNat (mstatusMPP v).toNat) =
      mstatusMPP ((m &&& ~~~mstatusMask c) ||| (v &&& mstatusMask c)) := by
    rw [legalise_of_mem hv, BitVec.ofNat_toNat, BitVec.setWidth_eq, mstatusMPP_merge]
  rw [mstatusWrite, hmpp, setMPP_mstatusMPP]

/-- Merging twice through two masks merges once through their common bits. -/
theorem merge_merge (m v mask w : Word) :
    (m &&& ~~~mask) ||| (((m &&& ~~~w) ||| (v &&& w)) &&& mask) = (m &&& ~~~(w &&& mask)) ||| (v &&& (w &&& mask)) := by
  refine BitVec.eq_of_getLsbD_eq fun k hk => ?_
  simp only [BitVec.getLsbD_or, BitVec.getLsbD_and, BitVec.getLsbD_not, hk, decide_true, Bool.true_and]
  cases mask.getLsbD k <;> cases w.getLsbD k <;> simp

/-- A write of sstatus leaves MPP to be written back, so it changes its own fields alone, those that are writable. -/
theorem writeCsr_sstatus {s : State} (h : (mstatusMPP s.mstatus).toNat ∈ modeEncodings s.cfg) (v : Word) :
    writeCsr s .sstatus v = { s with
      mstatus := (s.mstatus &&& ~~~(sstatusWriteMask &&& mstatusMask s.cfg)) |||
        (v &&& (sstatusWriteMask &&& mstatusMask s.cfg)) } := by
  have hkept : mstatusMPP ((s.mstatus &&& ~~~sstatusWriteMask) ||| (v &&& sstatusWriteMask)) = mstatusMPP s.mstatus :=
    mstatusMPP_congr (by simp [sstatusWriteMask]) (by simp [sstatusWriteMask])
  simp only [writeCsr]
  rw [mstatusWrite_of_legal _ (by rw [hkept]; exact h), merge_merge]

/-! ### The part of the machine that only M-mode changes -/

/-- The two states agree in all that is not a general register, pc, mode, wait, translation buffer, memory, minstret,
fcsr, mstatus, mie, mip or a supervisor register. -/
def AgreeOnMachineState (s t : State) : Prop :=
  { s with
    x := t.x, pc := t.pc, priv := t.priv, waiting := t.waiting, tlb := t.tlb, mem := t.mem, stored := t.stored,
    minstret := t.minstret, fcsr := t.fcsr, mstatus := t.mstatus, mie := t.mie, mipSw := t.mipSw,
    stvec := t.stvec, scounteren := t.scounteren, sscratch := t.sscratch, sepc := t.sepc, scause := t.scause,
    stval := t.stval, satp := t.satp } = t

theorem AgreeOnMachineState.trans {s t u : State} (hst : AgreeOnMachineState s t) (htu : AgreeOnMachineState t u) :
    AgreeOnMachineState s u := by
  unfold AgreeOnMachineState at *
  rw [← hst] at htu
  exact htu

/-- The fields of mstatus that code below M-mode can change: those of sstatus, and MPRV (R231). -/
def lowerMstatusMask : Word := 0xE6122#64

/-- What an instruction may change of a state below M-mode. -/
structure LowerChange (s t : State) : Prop where
  rest    : AgreeOnMachineState s t
  mstatus : (mstatusMPP s.mstatus).toNat ∈ modeEncodings s.cfg → AgreeOutside lowerMstatusMask s.mstatus t.mstatus
  mie     : AgreeOutside (delegatedMask s) s.mie t.mie
  mip     : AgreeOutside 0x2#64 s.mipSw t.mipSw

/-- What leaves mstatus, mie and mip. -/
theorem LowerChange.of_rest {s t : State} (hrest : AgreeOnMachineState s t) (hmstatus : t.mstatus = s.mstatus)
    (hmie : t.mie = s.mie) (hmip : t.mipSw = s.mipSw) : LowerChange s t :=
  ⟨hrest, fun _ => by rw [hmstatus]; exact .refl _ _, by rw [hmie]; exact .refl _ _, by rw [hmip]; exact .refl _ _⟩

theorem LowerChange.refl (s : State) : LowerChange s s := .of_rest rfl rfl rfl rfl

/-- Writing rd, counting and going on leave the rest. -/
theorem LowerChange.retiring {s u t : State} (h : LowerChange s u) (hut : AgreeButXPcInstret u t) : LowerChange s t := by
  have hrest : AgreeOnMachineState u { u with x := t.x, pc := t.pc, minstret := t.minstret } := rfl
  have hchange : LowerChange s { u with x := t.x, pc := t.pc, minstret := t.minstret } :=
    ⟨h.rest.trans hrest, h.mstatus, h.mie, h.mip⟩
  rw [← hut]
  exact hchange

theorem agree_trans {s t u : State} (hst : AgreeButXPcInstret s t) (htu : AgreeButXPcInstret t u) :
    AgreeButXPcInstret s u := by
  unfold AgreeButXPcInstret at *
  rw [← hst] at htu
  exact htu

theorem agree_setX (s : State) (r : Reg) (v : Word) : AgreeButXPcInstret s (setX s r v) := by
  unfold AgreeButXPcInstret setX
  split <;> rfl

theorem agree_countRetired (inhibit : BitVec 32) (wrote : Bool) (s : State) :
    AgreeButXPcInstret s (countRetired inhibit wrote s) := by
  unfold AgreeButXPcInstret countRetired
  split <;> rfl

theorem agree_advancePc (s : State) : AgreeButXPcInstret s (advancePc s) := rfl

theorem agree_retire (s : State) : AgreeButXPcInstret s (retire s) :=
  agree_trans (agree_countRetired _ _ s) (agree_advancePc _)

theorem agree_csrResult (a : CsrAddr) (rd : Reg) (wr rdEn : Bool) (new : Word → Word) (s : State) :
    AgreeButXPcInstret (if wr then csrWrite s a (new (csrModifyBase s a)) else s) (csrResult a rd wr rdEn new s) := by
  refine agree_trans ?_ (agree_trans (agree_countRetired _ _ _) (agree_advancePc _))
  cases rdEn
  · rfl
  · exact agree_setX _ rd _

/-! ### Each thing an instruction can do -/

theorem lowerChange_raiseExc {s : State} (e : Exc) (v : Word) (h : (raiseExc e v s).priv ≠ .M) :
    LowerChange s (raiseExc e v s) := by
  rw [raiseExc_priv] at h
  rcases trapTarget_cases s false (excCode e) with hM | ⟨hS, -, -⟩
  · exact absurd hM h
  · rw [raiseExc, hS]
    refine ⟨rfl, fun _ => agreeOutside_iff.mpr fun k hk => ?_, .refl _ _, .refl _ _⟩
    refine takeTrap_supervisor_mstatus_kept _ _ _ _ _ fun hmem => ?_
    revert hk; revert k; decide

theorem lowerChange_returnFromS (s : State) : LowerChange s (returnFromS s) :=
  ⟨rfl, fun _ => agreeOutside_iff.mpr fun k hk => by
    rw [returnFromS_mstatus_getLsbD]
    split_ifs with h17 h8 h5 h1
    · subst k; exact absurd hk (by decide)
    · subst k; exact absurd hk (by decide)
    · subst k; exact absurd hk (by decide)
    · subst k; exact absurd hk (by decide)
    · rfl, .refl _ _, .refl _ _⟩

theorem lowerChange_writeFcsr (s : State) (v : BitVec 8) : LowerChange s (writeFcsr s v) :=
  ⟨rfl, fun _ => agreeOutside_iff.mpr fun k hk => getLsbD_setFSDirty_kept _
    ⟨fun h => by subst h; exact absurd hk (by decide), fun h => by subst h; exact absurd hk (by decide)⟩,
    .refl _ _, .refl _ _⟩

theorem lowerChange_writeCsr_sstatus (s : State) (v : Word) : LowerChange s (writeCsr s .sstatus v) := by
  refine ⟨rfl, fun hlegal => ?_, .refl _ _, .refl _ _⟩
  have hfields : sstatusWriteMask &&& mstatusMask s.cfg &&& ~~~lowerMstatusMask = 0#64 := by
    have hsub : sstatusWriteMask &&& ~~~lowerMstatusMask = 0#64 := by decide
    rw [and_not_eq_zero_iff] at hsub ⊢
    intro k hk
    rw [BitVec.getLsbD_and, Bool.and_eq_true] at hk
    exact hsub k hk.left
  rw [writeCsr_sstatus hlegal]
  exact agreeOutside_merge hfields s.mstatus v

theorem lowerChange_writeCsr_sip (s : State) (v : Word) : LowerChange s (writeCsr s .sip v) := by
  simp only [writeCsr]
  split
  · exact ⟨rfl, fun _ => .refl _ _, .refl _ _, agreeOutside_setBit (by decide) (by decide) _⟩
  · exact .refl s

theorem lowerChange_writeCsr {s : State} {r : Csr} (hr : r ∈ lowerWritable) (v : Word) :
    LowerChange s (writeCsr s r v) := by
  simp only [lowerWritable, List.mem_cons, List.not_mem_nil, or_false] at hr
  rcases hr with rfl | rfl | rfl | rfl | rfl | rfl | rfl | rfl | rfl | rfl | rfl | rfl | rfl
  · exact lowerChange_writeFcsr s _
  · exact lowerChange_writeFcsr s _
  · exact lowerChange_writeFcsr s _
  · exact lowerChange_writeCsr_sstatus s v
  · exact ⟨rfl, fun _ => .refl _ _, agreeOutside_merge (by simp) s.mie v, .refl _ _⟩
  · exact .of_rest rfl rfl rfl rfl
  · exact .of_rest rfl rfl rfl rfl
  · exact .of_rest rfl rfl rfl rfl
  · exact .of_rest rfl rfl rfl rfl
  · exact .of_rest rfl rfl rfl rfl
  · exact .of_rest rfl rfl rfl rfl
  · exact lowerChange_writeCsr_sip s v
  · exact .of_rest rfl rfl rfl rfl

/-- A permitted CSR instruction below M-mode writes a register of that list, or no register. -/
theorem lowerChange_csrResult {s : State} {a : CsrAddr} {wr : Bool} (hbelow : s.priv ≠ .M)
    (hp : csrPermitted s a wr = true) (rd : Reg) (rdEn : Bool) (new : Word → Word) :
    LowerChange s (csrResult a rd wr rdEn new s) := by
  refine LowerChange.retiring ?_ (agree_csrResult a rd wr rdEn new s)
  cases wr with
  | false => exact .refl s
  | true =>
    simp only [if_true, csrWrite]
    split
    next r hr => exact lowerChange_writeCsr (lowerWritable_of_permitted hbelow hp hr) _
    next => exact .refl s

theorem lowerChange_exec {i : Instr} {s t : State} (hs : s.priv ≠ .M) (h : exec i s = .next t) (ht : t.priv ≠ .M) :
    LowerChange s t := by
  cases exec_cases h with
  | raises e v _ => exact lowerChange_raiseExc e v ht
  | csr a rd wr rdEn new hp => exact lowerChange_csrResult hs hp rd rdEn new
  | mret new _ hM _ => exact absurd hM hs
  | sret _ _ _ =>
    rw [countRetired_eq]
    have hreturn := lowerChange_returnFromS { s with minstret := countOne s }
    exact ⟨hreturn.rest, hreturn.mstatus, hreturn.mie, hreturn.mip⟩
  | wfi =>
    have hretire := (LowerChange.refl s).retiring (agree_retire s)
    exact ⟨hretire.rest.trans rfl, hretire.mstatus, hretire.mie, hretire.mip⟩
  | fence rs1 rs2 =>
    have hflush : LowerChange s (flushTlb rs1 rs2 s) := .of_rest rfl rfl rfl rfl
    exact hflush.retiring (agree_retire _)
  | register rd v => exact ((LowerChange.refl s).retiring (agree_setX s rd v)).retiring (agree_retire _)
  | store addr n v =>
    have hstore : LowerChange s (commitStore addr n v s) := .of_rest rfl rfl rfl rfl
    exact hstore.retiring (agree_retire _)

/-- Settles O57: an instruction that stays below M-mode makes only the changes of `LowerChange`. -/
theorem lowerModesCannotChangeMachineState : Obligations.LowerModesCannotChangeMachineState := by
  intro i s t hs hexec ht
  obtain ⟨hrest, hmstatus, hmie, hmip⟩ := lowerChange_exec hs hexec ht
  exact ⟨hrest, hmstatus, hmie, hmip⟩

end Sys2Proof.Proofs

/-! PROOF. The table of CSR addresses (10_state.md R27), and the CSR instructions (40_csr_instructions.md R200 to R212):
what a denied one does, and what a permitted one reads, writes and keeps. -/

namespace Sys2Proof.Proofs

open Sys2Proof Sys2Proof.Machine

/-! ### The table is one to one (R27) -/

/-- No register with a row of its own has an address in the range of another row. -/
theorem csrInRange_of_single : ∀ r ∈ singleCsrs, csrInRange (csrAddr r).toNat = none := by decide

theorem csrAt_of_csrInRange {a : CsrAddr} {r : Csr} (h : csrInRange a.toNat = some r) : csrAt a = some r := by
  have hsingle : singleCsrs.find? (fun c => csrAddr c == a) = none := by
    refine List.find?_eq_none.mpr fun c hc heq => ?_
    rw [← eq_of_beq heq, csrInRange_of_single c hc] at h
    exact absurd h (by simp)
  rw [csrAt, hsingle, h]

theorem toNat_ofNat_12 {n : Nat} (h : n < 2 ^ 12) : (BitVec.ofNat 12 n).toNat = n := Nat.mod_eq_of_lt h

theorem csrAt_csrAddr (r : Csr) : csrAt (csrAddr r) = some r := by
  cases r with
  | mhpmevent n | pmpcfg n | pmpaddr n | mhpmcounter n | mhpmcounterh n | hpmcounter n | hpmcounterh n =>
    refine csrAt_of_csrInRange ?_
    rw [csrAddr, toNat_ofNat_12 (by omega)]
    grind [csrInRange]
  | _ => rfl

/-- Settles O6: the addresses of the single registers are looked up, and those of each range are counted from its first. -/
theorem csrTableIsOneToOne : Obligations.CsrTableIsOneToOne :=
  ⟨csrAt_csrAddr, fun _ _ h => csrAt_addr h⟩

/-- The register implemented at an address is the one the table lists there. -/
theorem csrImpl_of_csrAt {c : Config} {a : CsrAddr} {r : Csr} (hr : csrAt a = some r) (h : csrImpl c a ≠ none) :
    csrImpl c a = some r := by
  cases hq : csrImpl c a with
  | none => exact absurd hq h
  | some q =>
    obtain ⟨hat, -, -, -⟩ := csrImpl_some hq
    rw [← hat, hr]

theorem csrGateAt_of_csrAt {s : State} {a : CsrAddr} {r : Csr} (h : csrAt a = some r) (wr : Bool) :
    csrGateAt s a wr = csrGate s a wr r := by
  rw [csrGateAt, h]

/-! ### What a permitted CSR instruction leaves (R203 to R206) -/

/-- A permitted CSR instruction that does not write a writable misa completes. -/
theorem csrInstr_retires {word : InstrWord} {a : CsrAddr} {rd : Reg} {wr rdEn : Bool} {new : Word → Word} {s : State}
    (hrd : rdEn = false → rd = 0#5) (hp : csrPermitted s a wr = true) (hm : misaWriteOpen s a wr = false) :
    let u := if wr then csrWrite s a (new (csrModifyBase s a)) else s
    ∃ t, csrInstr word a rd wr rdEn new s = .next t ∧
      RetiresWriting s u t rd (trunc s.cfg.xlen (csrRead s a)) ∧
      t.minstret = if wr = true ∧ namesMinstret s a = true then u.minstret else countOne s :=
  ⟨_, csrInstr_next hp hm, csrResult_retires a rd wr rdEn new s hrd⟩

theorem exec_csr_retires {i : Instr} {a : CsrAddr} {s : State} (hi : csrNamed i = some a)
    (hp : csrPermitted s a (csrWrites i) = true) (hm : misaWriteOpen s a (csrWrites i) = false) :
    ∃ v t, let u := if csrWrites i then csrWrite s a v else s
      exec i s = .next t ∧ RetiresWriting s u t (destReg i) (trunc s.cfg.xlen (csrRead s a)) ∧
      t.minstret = if csrWrites i = true ∧ namesMinstret s a = true then u.minstret else countOne s := by
  obtain ⟨rdEn, new, hrd, hexec⟩ := exec_csr hi s
  obtain ⟨t, hnext, hretires, hcount⟩ := csrInstr_retires (new := new) hrd hp hm
  exact ⟨new (csrModifyBase s a), t, hexec.trans hnext, hretires, hcount⟩

theorem misaWriteOpen_of_csrImpl {s : State} {a : CsrAddr} {r : Csr} (h : csrImpl s.cfg a = some r) (hne : r ≠ .misa)
    (wr : Bool) : misaWriteOpen s a wr = false := by
  simp [misaWriteOpen, h, hne]

/-- An instruction that only reads changes rd, pc and minstret. -/
theorem exec_csr_reads {i : Instr} {a : CsrAddr} {s : State} (hi : csrNamed i = some a) (hw : csrWrites i = false)
    (hp : csrPermitted s a false = true) :
    ∃ t, exec i s = .next t ∧ RetiresWriting s s t (destReg i) (trunc s.cfg.xlen (csrRead s a)) ∧
      t.minstret = countOne s := by
  obtain ⟨v, t, hexec, hretires, hcount⟩ := exec_csr_retires hi (by rw [hw]; exact hp) (by rw [hw]; rfl)
  simp only [hw, Bool.false_eq_true, if_false, false_and] at hretires hcount
  exact ⟨t, hexec, hretires, hcount⟩

/-- What a permitted access to a register leaves unread and unwritten where writes of it change nothing. -/
theorem exec_csr_of_write_ignored {i : Instr} {a : CsrAddr} {s : State} (hi : csrNamed i = some a)
    (hp : csrPermitted s a (csrWrites i) = true) (hm : misaWriteOpen s a (csrWrites i) = false)
    (hignored : ∀ v, csrWrite s a v = s) (hnames : namesMinstret s a = false) :
    ∃ t, exec i s = .next t ∧ RetiresWriting s s t (destReg i) (trunc s.cfg.xlen (csrRead s a)) ∧
      t.minstret = countOne s := by
  obtain ⟨v, t, hexec, hretires, hcount⟩ := exec_csr_retires hi hp hm
  simp only [hignored, ite_self, hnames, Bool.false_eq_true, and_false, if_false] at hretires hcount
  exact ⟨t, hexec, hretires, hcount⟩

theorem trunc_zero (x : Xlen) : trunc x 0#64 = 0#64 := by cases x <;> rfl

/-! ### An address outside IMPL (R201) -/

/-- Settles O8: check 3 denies where the policy traps, the gate by itself, and past all checks nothing is written. -/
theorem unimplementedCsrTrapsOrReadsZero : Obligations.UnimplementedCsrTrapsOrReadsZero := by
  intro i a s hi hnone
  refine ⟨fun hpolicy => ?traps, fun hgate => ?gated, fun hpolicy hlevel hkind hgate => ?readsZero⟩
  case traps =>
    refine exec_csr_of_denied hi ?_
    rw [csrPermitted_of_unimplemented hnone, hpolicy, Bool.and_false, Bool.false_and]
  case gated => exact exec_csr_of_denied hi (csrPermitted_of_gate_closed hgate)
  case readsZero =>
    have hkind' : (csrWrites i && csrReadOnly a) = false := by
      rw [← Bool.not_eq_true, Bool.and_eq_true, csrReadOnly_iff]
      exact hkind
    have hp : csrPermitted s a (csrWrites i) = true := by
      rw [csrPermitted_of_unimplemented hnone, csrLevel, decide_eq_true hlevel, hkind', hpolicy, hgate]
      rfl
    have hread : trunc s.cfg.xlen (csrRead s a) = 0#64 := by
      rw [csrRead, hnone]
      exact trunc_zero _
    rw [← hread]
    refine exec_csr_of_write_ignored hi hp ?_ (fun v => ?_) ?_
    · simp [misaWriteOpen, hnone]
    · rw [csrWrite, hnone]
    · simp [namesMinstret, hnone]

/-! ### The gates (R85, R89, R95, R99) -/

theorem exec_csr_of_gate_closed {i : Instr} {a : CsrAddr} {s : State} {r : Csr} (hi : csrNamed i = some a)
    (hr : csrAt a = some r) (hgate : csrGate s a (csrWrites i) r = false) :
    exec i s = .next (raiseIllegal (encode i) s) :=
  exec_csr_of_denied hi (csrPermitted_of_gate_closed (by rw [csrGateAt_of_csrAt hr, hgate]))

/-- Settles O9: the table lists a debug register at each of the four addresses, and its gate is Debug Mode. -/
theorem debugCsrTrapsOutsideDebugMode : Obligations.DebugCsrTrapsOutsideDebugMode := by
  intro i a s hi ha hdebug
  simp only [List.mem_cons, List.not_mem_nil, or_false] at ha
  rcases ha with rfl | rfl | rfl | rfl
  · exact exec_csr_of_gate_closed hi (csrAt_csrAddr .dcsr) hdebug
  · exact exec_csr_of_gate_closed hi (csrAt_csrAddr .dpc) hdebug
  · exact exec_csr_of_gate_closed hi (csrAt_csrAddr .dscratch0) hdebug
  · exact exec_csr_of_gate_closed hi (csrAt_csrAddr .dscratch1) hdebug

/-- The floating-point registers. -/
def floatCsrs : List Csr := [.fflags, .frm, .fcsr]

theorem csrGate_floatCsrs {r : Csr} (hr : r ∈ floatCsrs) (s : State) (a : CsrAddr) (wr : Bool) :
    csrGate s a wr r = (mstatusFS s.mstatus != 0#2) := by
  simp only [floatCsrs, List.mem_cons, List.not_mem_nil, or_false] at hr
  rcases hr with rfl | rfl | rfl <;> rfl

theorem mstatus_writeCsr_floatCsrs {r : Csr} (hr : r ∈ floatCsrs) (s : State) (v : Word) :
    (writeCsr s r v).mstatus = s.mstatus ||| 0x6000#64 := by
  simp only [floatCsrs, List.mem_cons, List.not_mem_nil, or_false] at hr
  rcases hr with rfl | rfl | rfl <;> rfl

theorem csrLevel_floatCsrs {r : Csr} (hr : r ∈ floatCsrs) :
    csrLevel (csrAddr r) = 0 ∧ csrReadOnly (csrAddr r) = false ∧ r ≠ .misa := by
  revert r; decide

/-- A CSR access leaves what the write of the register leaves, but for x, pc and minstret. -/
theorem mstatus_of_agree {s t : State} (h : AgreeButXPcInstret s t) : t.mstatus = s.mstatus := by
  rw [← h]

theorem fcsr_of_agree {s t : State} (h : AgreeButXPcInstret s t) : t.fcsr = s.fcsr := by
  rw [← h]

theorem priv_of_agree {s t : State} (h : AgreeButXPcInstret s t) : t.priv = s.priv := by
  rw [← h]

/-- Settles O10: FS is the gate of the three registers, and each of their writes makes it dirty. -/
theorem floatCsrsGatedByFS : Obligations.FloatCsrsGatedByFS := by
  intro i a s hi ha
  obtain ⟨r, hr, rfl⟩ : ∃ r ∈ floatCsrs, csrAddr r = a := by
    simp only [List.mem_cons, List.not_mem_nil, or_false] at ha
    rcases ha with rfl | rfl | rfl
    · exact ⟨.fflags, by decide, rfl⟩
    · exact ⟨.frm, by decide, rfl⟩
    · exact ⟨.fcsr, by decide, rfl⟩
  refine ⟨fun hoff => ?off, fun hon himpl => ?on⟩
  case off =>
    refine exec_csr_of_gate_closed hi (csrAt_csrAddr r) ?_
    rw [csrGate_floatCsrs hr, hoff]
    rfl
  case on =>
    have himpl := csrImpl_of_csrAt (csrAt_csrAddr r) himpl
    obtain ⟨hlevel, hro, hmisa⟩ := csrLevel_floatCsrs hr
    have hp : csrPermitted s (csrAddr r) (csrWrites i) = true := by
      refine csrPermitted_of_checks himpl (by rw [hlevel]; exact Nat.zero_le _) (by simp [hro]) ?_
      rw [csrGate_floatCsrs hr]
      exact bne_iff_ne.mpr hon
    obtain ⟨v, t, hexec, hretires, -⟩ := exec_csr_retires hi hp (misaWriteOpen_of_csrImpl himpl hmisa _)
    have hpriv : t.priv = s.priv := by
      rw [priv_of_agree hretires.rest]
      split
      · exact csrWrite_priv _ _ _
      · rfl
    refine ⟨t, hexec, hpriv, hretires.pc, fun hw => ?dirty, fun hw => ?clean⟩
    case dirty =>
      rw [mstatus_of_agree hretires.rest, if_pos hw, csrWrite_of_csrImpl himpl, mstatus_writeCsr_floatCsrs hr]
    case clean =>
      rw [mstatus_of_agree hretires.rest, fcsr_of_agree hretires.rest, hw]
      exact ⟨rfl, rfl⟩

end Sys2Proof.Proofs

/-! PROOF. The counter enables (10_state.md R95), satp under TVM (R85), the six CSR instructions one by one
(40_csr_instructions.md R207 to R212), and the writes of misa (R52) and mip (R62). -/

namespace Sys2Proof.Proofs

open Sys2Proof Sys2Proof.Machine

/-! ### The counter enables (R95) -/

/-- The user counters: the registers whose gate is the counter enables. -/
def IsUserCounter : Csr → Prop
  | .cycle | .time | .instret | .hpmcounter _ | .cycleh | .timeh | .instreth | .hpmcounterh _ => True
  | _ => False

theorem csrGate_userCounter {r : Csr} (hr : IsUserCounter r) (s : State) (a : CsrAddr) (wr : Bool) :
    csrGate s a wr r = counterEnabled s (a.extractLsb' 0 5).toNat := by
  cases r <;> first | rfl | exact hr.elim

theorem exists_userCounter_at {a : CsrAddr}
    (ha : (0xC00 ≤ a.toNat ∧ a.toNat ≤ 0xC1F) ∨ (0xC80 ≤ a.toNat ∧ a.toNat ≤ 0xC9F)) :
    ∃ r, csrAt a = some r ∧ IsUserCounter r := by
  have hlisted : ∀ {r : Csr}, IsUserCounter r → (csrAddr r).toNat = a.toNat → ∃ r, csrAt a = some r ∧ IsUserCounter r :=
    fun {r} hr h => ⟨r, by rw [← BitVec.eq_of_toNat_eq h, csrAt_csrAddr], hr⟩
  rcases ha with ⟨hlow, hhigh⟩ | ⟨hlow, hhigh⟩
  · rcases Nat.lt_or_ge a.toNat 0xC03 with hfixed | hrange
    · obtain h | h | h : 0xC00 = a.toNat ∨ 0xC01 = a.toNat ∨ 0xC02 = a.toNat := by omega
      · exact hlisted (r := .cycle) trivial h
      · exact hlisted (r := .time) trivial h
      · exact hlisted (r := .instret) trivial h
    · refine hlisted (r := .hpmcounter ⟨a.toNat - 0xC03, by omega⟩) trivial ?_
      rw [csrAddr, toNat_ofNat_12] <;> dsimp only <;> omega
  · rcases Nat.lt_or_ge a.toNat 0xC83 with hfixed | hrange
    · obtain h | h | h : 0xC80 = a.toNat ∨ 0xC81 = a.toNat ∨ 0xC82 = a.toNat := by omega
      · exact hlisted (r := .cycleh) trivial h
      · exact hlisted (r := .timeh) trivial h
      · exact hlisted (r := .instreth) trivial h
    · refine hlisted (r := .hpmcounterh ⟨a.toNat - 0xC83, by omega⟩) trivial ?_
      rw [csrAddr, toNat_ofNat_12] <;> dsimp only <;> omega

/-- Every mode has the level of the addresses from 0xC00 to 0xCFF. -/
theorem csrLevel_user {a : CsrAddr} (h : 0xC00 ≤ a.toNat ∧ a.toNat ≤ 0xCFF) : csrLevel a = 0 := by
  rw [csrLevel, BitVec.extractLsb'_toNat, Nat.shiftRight_eq_div_pow]
  omega

theorem counterEnabled_eq_false_iff (s : State) (n : Nat) :
    counterEnabled s n = false ↔
      (s.priv = .S ∧ s.mcounteren.getLsbD n = false) ∨
      (s.priv = .U ∧ (s.mcounteren.getLsbD n = false ∨ (hasS s.cfg = true ∧ s.scounteren.getLsbD n = false))) := by
  unfold counterEnabled
  cases s.priv with
  | U => cases s.mcounteren.getLsbD n <;> simp
  | S => simp
  | M => simp

/-- Settles O11: the enables are the only check that can deny a read of a user counter that is implemented. -/
theorem counterEnableCheck : Obligations.CounterEnableCheck := by
  intro i a s hi hw ha n denied
  obtain ⟨r, hr, huser⟩ := exists_userCounter_at ha
  have hgate : ∀ wr, csrGate s a wr r = counterEnabled s n := csrGate_userCounter huser s a
  refine ⟨fun hdenied => ?denied, fun hallowed himpl => ?allowed⟩
  case denied =>
    exact exec_csr_of_gate_closed hi hr (by rw [hgate]; exact (counterEnabled_eq_false_iff s n).mpr hdenied)
  case allowed =>
    have hopen : counterEnabled s n = true := by
      rw [← Bool.not_eq_false, counterEnabled_eq_false_iff]
      exact hallowed
    refine exec_csr_reads hi hw (csrPermitted_of_checks (csrImpl_of_csrAt hr himpl) ?_ (by simp) ?_)
    · rw [csrLevel_user (by omega)]; exact Nat.zero_le _
    · rw [hgate, hopen]

/-! ### satp under TVM (R85 a) -/

theorem csrGate_satp (s : State) (a : CsrAddr) (wr : Bool) :
    csrGate s a wr .satp = false ↔
      s.priv = .S ∧ mstatusTVM s.mstatus = true ∧ (s.cfg.tvmTrapsReads = true ∨ wr = true) := by
  simp [csrGate, and_assoc, or_iff_not_imp_left]

/-- Settles O12: satp is open to S-mode and M-mode but for its gate. -/
theorem tvmTrapsSatpAccess : Obligations.TvmTrapsSatpAccess := by
  intro i s hi hmode trapped
  refine ⟨fun htrapped => ?trapped, fun hfree himpl => ?completes⟩
  case trapped => exact exec_csr_of_gate_closed hi (csrAt_csrAddr .satp) ((csrGate_satp s _ _).mpr htrapped)
  case completes =>
    have himpl := csrImpl_of_csrAt (csrAt_csrAddr .satp) himpl
    have hlevel : csrLevel 0x180#12 ≤ (privBits s.priv).toNat := by
      cases hp : s.priv with
      | U => exact absurd hp hmode
      | S => decide
      | M => decide
    have hgate : csrGate s 0x180#12 (csrWrites i) .satp = true := by
      rw [← Bool.not_eq_false, csrGate_satp]
      exact hfree
    exact exec_csr_of_permitted hi (csrPermitted_of_checks himpl hlevel (by simp [csrReadOnly]) hgate)
      (misaWriteOpen_of_csrImpl himpl (by decide) _)

/-! ### The six CSR instructions (R207 to R212) -/

theorem csrModifyBase_of_ne_mip {s : State} {a : CsrAddr} (h : csrImpl s.cfg a ≠ some .mip) :
    csrModifyBase s a = csrRead s a := by
  unfold csrModifyBase
  split
  next hmip => exact absurd hmip h
  next => rfl

theorem zextUimm_eq (uimm : BitVec 5) : zextUimm uimm = BitVec.ofNat 64 uimm.toNat := by
  apply BitVec.eq_of_toNat_eq
  simp [zextUimm]

/-- The forms that always write: what they write does not depend on the old value. -/
theorem csrInstr_writes (word : InstrWord) (a : CsrAddr) (rd : Reg) (v : Word) (s : State)
    (hp : csrPermitted s a true = true) (hm : misaWriteOpen s a true = false) :
    ∃ t, csrInstr word a rd true (rd != 0#5) (fun _ => v) s = .next t ∧
      RetiresWriting s (csrWrite s a v) t rd (trunc s.cfg.xlen (csrRead s a)) ∧
      t.minstret = if namesMinstret s a then (csrWrite s a v).minstret else countOne s := by
  obtain ⟨t, hnext, hretires, hcount⟩ :=
    csrInstr_retires (word := word) (rd := rd) (rdEn := rd != 0#5) (new := fun _ => v) (by simp) hp hm
  exact ⟨t, hnext, hretires, by simpa using hcount⟩

/-- The forms that write unless their operand, a register number or an immediate, is 0. -/
theorem csrInstr_modifies (word : InstrWord) (a : CsrAddr) (rd : Reg) (src : BitVec 5) (new : Word → Word) (s : State)
    (hp : csrPermitted s a (src != 0#5) = true) (hm : misaWriteOpen s a (src != 0#5) = false) :
    let u := if src = 0#5 then s else csrWrite s a (new (csrModifyBase s a))
    ∃ t, csrInstr word a rd (src != 0#5) true new s = .next t ∧
      RetiresWriting s u t rd (trunc s.cfg.xlen (csrRead s a)) ∧
      t.minstret = if src ≠ 0#5 ∧ namesMinstret s a = true then u.minstret else countOne s := by
  obtain ⟨t, hnext, hretires, hcount⟩ :=
    csrInstr_retires (word := word) (rd := rd) (rdEn := true) (new := new) (by simp) hp hm
  simp only [bne_iff_ne, ite_not] at hretires hcount
  exact ⟨t, hnext, hretires, hcount⟩

theorem exec_csrrw (rd : Reg) (a : CsrAddr) (rs1 : Reg) (s : State) :
    exec (.csrrw rd a rs1) s =
      csrInstr (encode (.csrrw rd a rs1)) a rd true (rd != 0#5) (fun _ => readX s rs1) s := rfl

theorem exec_csrrs (rd : Reg) (a : CsrAddr) (rs1 : Reg) (s : State) :
    exec (.csrrs rd a rs1) s =
      csrInstr (encode (.csrrs rd a rs1)) a rd (rs1 != 0#5) true (fun t => t ||| readX s rs1) s := rfl

theorem exec_csrrc (rd : Reg) (a : CsrAddr) (rs1 : Reg) (s : State) :
    exec (.csrrc rd a rs1) s =
      csrInstr (encode (.csrrc rd a rs1)) a rd (rs1 != 0#5) true (fun t => t &&& ~~~readX s rs1) s := rfl

theorem exec_csrrwi (rd : Reg) (a : CsrAddr) (uimm : BitVec 5) (s : State) :
    exec (.csrrwi rd a uimm) s =
      csrInstr (encode (.csrrwi rd a uimm)) a rd true (rd != 0#5) (fun _ => zextUimm uimm) s := rfl

theorem exec_csrrsi (rd : Reg) (a : CsrAddr) (uimm : BitVec 5) (s : State) :
    exec (.csrrsi rd a uimm) s =
      csrInstr (encode (.csrrsi rd a uimm)) a rd (uimm != 0#5) true (fun t => t ||| zextUimm uimm) s := rfl

theorem exec_csrrci (rd : Reg) (a : CsrAddr) (uimm : BitVec 5) (s : State) :
    exec (.csrrci rd a uimm) s =
      csrInstr (encode (.csrrci rd a uimm)) a rd (uimm != 0#5) true (fun t => t &&& ~~~zextUimm uimm) s := rfl

/-- Settles O13. -/
theorem csrrwSwapsCsr : Obligations.CsrrwSwapsCsr := by
  intro rd a rs1 s
  obtain ⟨hword, -⟩ := Laws.TableRow.csrrw rd a rs1
  rw [exec_csrrw]
  exact ⟨hword, fun hp => csrInstr_illegal hp, fun hp hm => csrInstr_writes _ a rd (readX s rs1) s hp hm⟩

/-- Settles O14. -/
theorem csrrsSetsBits : Obligations.CsrrsSetsBits := by
  intro rd a rs1 s
  obtain ⟨hword, -⟩ := Laws.TableRow.csrrs rd a rs1
  rw [exec_csrrs]
  exact ⟨hword, csrModifyBase_of_ne_mip, fun hp => csrInstr_illegal hp,
    fun hp hm => csrInstr_modifies _ a rd rs1 (fun t => t ||| readX s rs1) s hp hm⟩

/-- Settles O15. -/
theorem csrrcClearsBits : Obligations.CsrrcClearsBits := by
  intro rd a rs1 s
  obtain ⟨hword, -⟩ := Laws.TableRow.csrrc rd a rs1
  rw [exec_csrrc]
  exact ⟨hword, csrModifyBase_of_ne_mip, fun hp => csrInstr_illegal hp,
    fun hp hm => csrInstr_modifies _ a rd rs1 (fun t => t &&& ~~~readX s rs1) s hp hm⟩

/-- Settles O16. -/
theorem csrrwiWritesImmediate : Obligations.CsrrwiWritesImmediate := by
  intro rd a uimm s
  obtain ⟨hword, -⟩ := Laws.TableRow.csrrwi rd a uimm
  rw [exec_csrrwi, ← zextUimm_eq]
  exact ⟨hword, fun hp => csrInstr_illegal hp, fun hp hm => csrInstr_writes _ a rd (zextUimm uimm) s hp hm⟩

/-- Settles O17. -/
theorem csrrsiSetsImmediateBits : Obligations.CsrrsiSetsImmediateBits := by
  intro rd a uimm s
  obtain ⟨hword, -⟩ := Laws.TableRow.csrrsi rd a uimm
  rw [exec_csrrsi, ← zextUimm_eq]
  exact ⟨hword, csrModifyBase_of_ne_mip, fun hp => csrInstr_illegal hp,
    fun hp hm => csrInstr_modifies _ a rd uimm (fun t => t ||| zextUimm uimm) s hp hm⟩

/-- Settles O18. -/
theorem csrrciClearsImmediateBits : Obligations.CsrrciClearsImmediateBits := by
  intro rd a uimm s
  obtain ⟨hword, -⟩ := Laws.TableRow.csrrci rd a uimm
  rw [exec_csrrci, ← zextUimm_eq]
  exact ⟨hword, csrModifyBase_of_ne_mip, fun hp => csrInstr_illegal hp,
    fun hp hm => csrInstr_modifies _ a rd uimm (fun t => t &&& ~~~zextUimm uimm) s hp hm⟩

/-! ### Access in M-mode -/

theorem csrLevel_le (a : CsrAddr) : csrLevel a ≤ 3 := Nat.le_of_lt_succ (a.extractLsb' 8 2).isLt

/-- In M-mode only the read-only kind and a gate are left of R200. -/
theorem csrPermitted_machine {s : State} {a : CsrAddr} {r : Csr} (hM : s.priv = .M) (hr : csrImpl s.cfg a = some r)
    (hro : csrReadOnly a = false) {wr : Bool} (hgate : csrGate s a wr r = true) : csrPermitted s a wr = true := by
  refine csrPermitted_of_checks hr ?_ (by simp [hro]) hgate
  rw [hM]
  exact csrLevel_le a

/-! ### A write of misa (I8, R52) -/

/-- Settles O19: in M-mode every check passes; a writable misa refuses the write, and another ignores it. -/
theorem misaWriteRefusedOrIgnored : Obligations.MisaWriteRefusedOrIgnored := by
  intro i s hi hw hM himpl
  have himpl : csrImpl s.cfg 0x301#12 = some .misa := csrImpl_of_csrAt (csrAt_csrAddr .misa) himpl
  have hp : csrPermitted s 0x301#12 (csrWrites i) = true := csrPermitted_machine hM himpl (by decide) rfl
  have hopen : misaWriteOpen s 0x301#12 (csrWrites i) = s.cfg.misaWritable := by
    simp only [misaWriteOpen, hw, himpl, Bool.true_and, beq_self_eq_true, Bool.and_true]
  refine ⟨fun hwritable => ?refused, fun hreadOnly => ?ignored⟩
  case refused =>
    obtain ⟨rdEn, new, -, hexec⟩ := exec_csr hi s
    exact hexec.trans (csrInstr_misa hp (hopen.trans hwritable))
  case ignored =>
    refine exec_csr_of_write_ignored hi hp (hopen.trans hreadOnly) (fun v => ?_) ?_
    · exact csrWrite_of_csrImpl himpl v
    · simp [namesMinstret, himpl]

/-! ### mip: the software bits and the wires (R62) -/

/-- Every bit mip reads: a software bit or a wire. -/
theorem getLsbD_mipRead (s : State) (k : Nat) :
    (mipRead s).getLsbD k = (s.mipSw.getLsbD k || (s.meip && decide (11 = k)) || (s.mtip && decide (7 = k)) ||
      (s.msip && decide (3 = k)) || (s.seipExt && decide (9 = k))) := by
  simp only [mipRead, BitVec.getLsbD_or, getLsbD_bitWord, Nat.reduceLT]

/-- The software bits of mip are bits 9, 5 and 1. -/
theorem mipSw_getLsbD_eq_false {s : State} (h : s.mipSw &&& ~~~0x222#64 = 0#64) {k : Nat} (hk : k ∉ [1, 5, 9]) :
    s.mipSw.getLsbD k = false := by
  rw [and_not_eq_zero_iff] at h
  refine Bool.eq_false_iff.mpr fun hbit => ?_
  have hmask := h k hbit
  have hlt := BitVec.lt_of_getLsbD hmask
  revert hk
  interval_cases k <;> simp_all

/-- What mip reads lies within the six bits of R62. -/
theorem mipRead_within {s : State} (h : s.mipSw &&& ~~~0x222#64 = 0#64) : mipRead s &&& ~~~0xAAA#64 = 0#64 := by
  have hsub : 0x222#64 &&& ~~~0xAAA#64 = 0#64 := by decide
  rw [and_not_eq_zero_iff] at h hsub ⊢
  intro k hk
  simp only [getLsbD_mipRead, Bool.or_eq_true, Bool.and_eq_true, decide_eq_true_eq] at hk
  rcases hk with (((hsw | ⟨-, rfl⟩) | ⟨-, rfl⟩) | ⟨-, rfl⟩) | ⟨-, rfl⟩
  · exact hsub k (h k hsw)
  all_goals decide

theorem and_eq_self_of_within {n : Nat} {v m : BitVec n} (h : v &&& ~~~m = 0#n) : v &&& m = v := by
  rw [and_not_eq_zero_iff] at h
  refine BitVec.eq_of_getLsbD_eq fun k _ => ?_
  rw [BitVec.getLsbD_and, Bool.and_eq_left_iff_imp]
  exact h k

theorem fitsXlen_mipRead (x : Xlen) {s : State} (h : s.mipSw &&& ~~~0x222#64 = 0#64) : FitsXlen x (mipRead s) := by
  rw [← and_eq_self_of_within (mipRead_within h), BitVec.and_comm]
  exact fitsXlen_and (fitsXlen_of_lt (by decide)) _

/-- Of the value the set and clear forms combine, the writable bits are the software bits: no wire is among them but
the external part of bit 9, which is left out. -/
theorem csrModifyBase_mip_and {s : State} (himpl : csrImpl s.cfg 0x344#12 = some .mip)
    (h : s.mipSw &&& ~~~0x222#64 = 0#64) : csrModifyBase s 0x344#12 &&& 0x222#64 = s.mipSw := by
  have hbase : csrModifyBase s 0x344#12 = mipRead { s with seipExt := false } := by rw [csrModifyBase, himpl]
  have hwires : mipRead { s with seipExt := false } &&& 0x222#64 = s.mipSw &&& 0x222#64 := by
    refine BitVec.eq_of_getLsbD_eq fun k _ => ?_
    rw [BitVec.getLsbD_and, BitVec.getLsbD_and, getLsbD_mipRead]
    cases hk : (0x222#64).getLsbD k with
    | false => rw [Bool.and_false, Bool.and_false]
    | true =>
      have h11 : 11 ≠ k := by rintro rfl; exact absurd hk (by decide)
      have h7 : 7 ≠ k := by rintro rfl; exact absurd hk (by decide)
      have h3 : 3 ≠ k := by rintro rfl; exact absurd hk (by decide)
      simp [h11, h7, h3]
  rw [hbase, hwires, and_eq_self_of_within h]

theorem csrWrite_mip {s : State} (himpl : csrImpl s.cfg 0x344#12 = some .mip) (v : Word) :
    csrWrite s 0x344#12 v = { s with mipSw := v &&& 0x222#64 } := by
  have hfits : FitsXlen s.cfg.xlen 0x222#64 := fitsXlen_of_lt (by decide)
  rw [csrWrite_of_csrImpl himpl]
  simp only [writeCsr, supervisorIrqMask, trunc_and_of_fitsXlen hfits]

/-- What the forms that set or clear bits of mip leave, their operand not being 0. -/
theorem csrInstr_mip {s : State} (hM : s.priv = .M) (himpl : csrImpl s.cfg 0x344#12 = some .mip)
    (h : s.mipSw &&& ~~~0x222#64 = 0#64) (word : InstrWord) (rd : Reg) {src : BitVec 5} (hsrc : src ≠ 0#5)
    (new : Word → Word) :
    ∃ t, csrInstr word 0x344#12 rd (src != 0#5) true new s = .next t ∧
      t.mipSw = new (csrModifyBase s 0x344#12) &&& 0x222#64 ∧ t.seipExt = s.seipExt ∧
      (rd ≠ 0#5 → readX t rd = csrRead s 0x344#12) := by
  have hp : csrPermitted s 0x344#12 (src != 0#5) = true := csrPermitted_machine hM himpl (by decide) rfl
  obtain ⟨t, hnext, hretires, -⟩ := csrInstr_modifies word 0x344#12 rd src new s hp
    (misaWriteOpen_of_csrImpl himpl (by decide) _)
  rw [if_neg hsrc, csrWrite_mip himpl] at hretires
  refine ⟨t, hnext, ?_, ?_, fun hrd => ?_⟩
  · rw [← hretires.rest]
  · rw [← hretires.rest]
  · rw [hretires.regs, if_pos ⟨rfl, hrd⟩, csrRead_of_csrImpl himpl]
    exact fitsXlen_mipRead _ h

/-- Settles O23. -/
theorem mipWritesSoftwareBitsOnly : Obligations.MipWritesSoftwareBitsOnly := by
  intro s v rd rs1 uimm himpl hsw
  have hbase := csrModifyBase_mip_and himpl hsw
  have hset : ∀ w : Word, (csrModifyBase s 0x344#12 ||| w) &&& 0x222#64 = s.mipSw ||| (w &&& 0x222#64) := fun w => by
    rw [BitVec.and_or_distrib_right, hbase]
  have hclear : ∀ w : Word, (csrModifyBase s 0x344#12 &&& ~~~w) &&& 0x222#64 = s.mipSw &&& ~~~w := fun w => by
    rw [BitVec.and_assoc, BitVec.and_comm (~~~w), ← BitVec.and_assoc, hbase]
  refine ⟨?read, csrWrite_mip himpl v, fun hM hrs1 => ?registers, fun hM huimm => ?immediates⟩
  case read =>
    rw [csrRead_of_csrImpl himpl]
    have h11 := mipSw_getLsbD_eq_false hsw (k := 11) (by decide)
    have h7 := mipSw_getLsbD_eq_false hsw (k := 7) (by decide)
    have h3 := mipSw_getLsbD_eq_false hsw (k := 3) (by decide)
    simp only [readCsr, getLsbD_mipRead, h11, h7, h3]
    refine ⟨?_, ?_, ?_, ?_, ?_, ?_, mipRead_within hsw⟩ <;> simp
  case registers =>
    rw [exec_csrrs, exec_csrrc, ← hset, ← hclear]
    exact ⟨csrInstr_mip hM himpl hsw _ rd hrs1 _, csrInstr_mip hM himpl hsw _ rd hrs1 _⟩
  case immediates =>
    rw [exec_csrrsi, exec_csrrci, ← zextUimm_eq, ← hset, ← hclear]
    exact ⟨csrInstr_mip hM himpl hsw _ rd huimm _, csrInstr_mip hM himpl hsw _ rd huimm _⟩

end Sys2Proof.Proofs

/-! PROOF. What the trap and status registers read and take when they are written (10_state.md R37 to R61, R74 to R88,
R100 to R104). -/

namespace Sys2Proof.Proofs

open Sys2Proof Sys2Proof.Machine

/-! ### Reading one register after a write by address -/

theorem csrRead_csrWrite {s : State} {a b : CsrAddr} {r q : Csr} (hr : csrImpl s.cfg a = some r)
    (hq : csrImpl s.cfg b = some q) (v : Word) :
    csrRead (csrWrite s a v) b = readCsr (writeCsr s r (trunc s.cfg.xlen v)) q := by
  rw [csrWrite_of_csrImpl hr]
  exact csrRead_of_csrImpl (by rw [writeCsr_cfg]; exact hq)

/-- A field below bit 32 is not touched by the truncation of the value written. -/
theorem extract_trunc (x : Xlen) (v : Word) {start len : Nat} (h : start + len ≤ 32) :
    (trunc x v).extractLsb' start len = v.extractLsb' start len := by
  have hx : 32 ≤ xlenBits x := by cases x <;> decide
  refine BitVec.eq_of_getLsbD_eq fun k hk => ?_
  have hlt : start + k < xlenBits x := by omega
  simp only [BitVec.getLsbD_extractLsb', getLsbD_trunc, hlt, decide_true, Bool.true_and]

/-! ### mstatus (R37 to R50) -/

/-- With every mode and floating point the writable bits are those of R49. -/
theorem mstatusMask_full {c : Config} (hm : c.modes = .msu) (hF : c.hasF = true) : mstatusMask c = 0x7E79AA#64 := by
  simp [mstatusMask, hasU, hasS, hm, hF]

/-- MPP as the bits of mstatus that hold it. -/
theorem mppField_eq (m : Word) : (mstatusMPP m).setWidth 64 <<< 11 = m &&& 0x1800#64 := by
  have hmask : 0x1800#64 = bitWord 11 true ||| bitWord 12 true := rfl
  have hfield : (mstatusMPP m).setWidth 64 <<< 11 = setMPP 0#64 (mstatusMPP m) := by simp [setMPP]
  refine BitVec.eq_of_getLsbD_eq fun k _ => ?_
  rw [hfield, getLsbD_setMPP, hmask]
  simp only [BitVec.getLsbD_and, BitVec.getLsbD_or, getLsbD_bitWord, Nat.reduceLT]
  split_ifs with h11 h12
  · subst h11; simp [mstatusMPP]
  · subst h12; simp [mstatusMPP]
  · simp [Ne.symm h11, Ne.symm h12]

/-- XS is read-only 0 (R45), so SD summarises FS alone. -/
theorem mstatusSD_of_within {m : Word} (h : m &&& ~~~0x7E79AA#64 = 0#64) :
    mstatusSD m = decide (m.extractLsb' 13 2 = 3#2) := by
  have hxs : mstatusXS m = 0#2 := by
    rw [mstatusXS, ← and_eq_self_of_within h, BitVec.extractLsb'_and]
    exact BitVec.and_zero
  rw [mstatusSD, hxs, mstatusFS]
  exact Bool.or_false _

theorem bitWord_decide (i : Nat) (p : Prop) [Decidable p] : bitWord i (decide p) = if p then 1#64 <<< i else 0#64 := by
  by_cases h : p <;> simp [bitWord, h]

/-- An MPP that no mode has leaves the old one under the spec's policy (R40, D5). -/
theorem mstatusWrite_of_reserved {c : Config} (hp : c.warl.mpp = .keepOld) (m : Word) {v : Word}
    (hv : (mstatusMPP v).toNat ∉ modeEncodings c) :
    mstatusWrite c m v = setMPP ((m &&& ~~~mstatusMask c) ||| (v &&& mstatusMask c)) (mstatusMPP m) := by
  simp [mstatusWrite, legalise, hv, hp]

/-- Settles O20: SD summarises FS, and a write replaces the writable bits, MPP only where the new one is legal. -/
theorem mstatusReadAndWrite : Obligations.MstatusReadAndWrite := by
  intro s v hmodes hF hpolicy hwithin himpl
  have hmask := mstatusMask_full hmodes hF
  have hfits : FitsXlen s.cfg.xlen 0x7E79AA#64 := fitsXlen_of_lt (by decide)
  have hmpp : mstatusMPP (trunc s.cfg.xlen v) = v.extractLsb' 11 2 := extract_trunc _ v (by decide)
  rw [csrRead_of_csrImpl himpl, csrWrite_of_csrImpl himpl]
  refine ⟨fun hx => ?read64, fun hx => ?read32, fun hlegal => ?legal, fun hreserved => ?reserved⟩
  case read64 =>
    simp only [readCsr, mstatusRead, hx, mstatusSD_of_within hwithin, bitWord_decide]
    rw [BitVec.or_comm s.mstatus]
    rfl
  case read32 =>
    simp only [readCsr, mstatusRead, hx, mstatusSD_of_within hwithin, bitWord_decide]
    rfl
  case legal =>
    have hmem : (mstatusMPP (trunc s.cfg.xlen v)).toNat ∈ modeEncodings s.cfg := by
      rw [hmpp, modeEncodings, hmodes]
      revert hlegal
      generalize v.extractLsb' 11 2 = p
      revert p
      decide
    simp only [writeCsr, mstatusWrite_of_legal _ hmem, hmask, trunc_and_of_fitsXlen hfits]
  case reserved =>
    have hmem : (mstatusMPP (trunc s.cfg.xlen v)).toNat ∉ modeEncodings s.cfg := by
      rw [hmpp, modeEncodings, hmodes, hreserved]
      decide
    simp only [writeCsr, mstatusWrite_of_reserved hpolicy _ hmem, hmask, trunc_and_of_fitsXlen hfits, hwithin,
      BitVec.zero_or, setMPP, mppField_eq]
    rw [BitVec.or_comm, BitVec.and_assoc]
    rfl

/-! ### sstatus (R74) -/

theorem sstatusReadMask_eq (c : Config) :
    sstatusReadMask c = if c.xlen = .rv64 then 0x80000003000DE122#64 else 0x800DE122#64 := by
  cases hx : c.xlen <;> simp [sstatusReadMask, hx]

/-- Settles O21: with floating point and S-mode every field of sstatus is writable. -/
theorem sstatusIsViewOfMstatus : Obligations.SstatusIsViewOfMstatus := by
  intro s v hsstatus hmstatus hF hmpp
  have hfields : sstatusWriteMask &&& mstatusMask s.cfg = 0xC6122#64 := by
    obtain ⟨-, -, hS, -⟩ := csrImpl_some hsstatus
    rw [mstatusMask_full (by simpa [csrExists, hasS] using hS) hF]
    decide
  have hfits : FitsXlen s.cfg.xlen 0xC6122#64 := fitsXlen_of_lt (by decide)
  rw [csrRead_of_csrImpl hsstatus, csrRead_of_csrImpl hmstatus, csrWrite_of_csrImpl hsstatus, writeCsr_sstatus hmpp,
    hfields, trunc_and_of_fitsXlen hfits, ← sstatusReadMask_eq]
  exact ⟨rfl, rfl⟩

/-! ### mtvec and stvec (R56, R76) -/

theorem ofNat_extract_low (v : Word) : BitVec.ofNat 64 ((v.extractLsb' 0 2).toNat % 4) = v &&& 3#64 := by
  apply BitVec.eq_of_toNat_eq
  have hand : v.toNat &&& 3 = v.toNat % 4 := Nat.and_two_pow_sub_one_eq_mod v.toNat 2
  rw [BitVec.toNat_and, BitVec.toNat_ofNat, BitVec.extractLsb'_toNat]
  simp only [Nat.shiftRight_zero, BitVec.toNat_ofNat, Nat.reducePow, Nat.reduceMod, hand]
  omega

theorem clearLow_or_low (v : Word) : (v &&& ~~~3#64) ||| (v &&& 3#64) = v := by
  rw [← BitVec.and_or_distrib_left]
  exact BitVec.and_allOnes

/-- Under the spec's policy MODE is written when it is accepted, and kept when it is not. -/
theorem tvecWrite_keepOld {c : Config} (hmodes : c.mtvecModes = [0, 1]) (old v : Word) :
    tvecWrite c .keepOld old v =
      if v.extractLsb' 0 2 = 0#2 ∨ v.extractLsb' 0 2 = 1#2 then v else (v &&& ~~~3#64) ||| (old &&& 3#64) := by
  have hmem : (v.extractLsb' 0 2).toNat ∈ c.mtvecModes ↔ v.extractLsb' 0 2 = 0#2 ∨ v.extractLsb' 0 2 = 1#2 := by
    rw [hmodes, ← BitVec.toNat_inj, ← BitVec.toNat_inj]
    simp
  rw [tvecWrite, legalise]
  simp only [hmem]
  split
  · rw [ofNat_extract_low, clearLow_or_low]
  · rw [ofNat_extract_low]

/-- Settles O24: both registers are written by the same rule, each over its own old value. -/
theorem tvecWriteKeepsLegalMode : Obligations.TvecWriteKeepsLegalMode := by
  intro s v hmtvec hstvec hmodes new
  have hnew : ∀ old, tvecWrite s.cfg .keepOld old (trunc s.cfg.xlen v) = new old := fun old => by
    rw [tvecWrite_keepOld hmodes, extract_trunc _ v (by decide)]
  refine ⟨fun himpl => ⟨csrRead_of_csrImpl himpl, ?_⟩, fun himpl => ⟨csrRead_of_csrImpl himpl, ?_⟩⟩
  · rw [csrWrite_of_csrImpl himpl, writeCsr, hmtvec, hnew]
  · rw [csrWrite_of_csrImpl himpl, writeCsr, hstvec, hnew]

/-! ### satp (R83 to R85) -/

/-- A run of ones. -/
theorem getLsbD_ones (n start k : Nat) :
    (BitVec.ofNat 64 ((2 ^ n - 1) * 2 ^ start)).getLsbD k = decide (k < 64 ∧ start ≤ k ∧ k < start + n) := by
  rw [BitVec.getLsbD_ofNat, Nat.testBit_mul_two_pow, Nat.testBit_two_pow_sub_one]
  grind


theorem getLsbD_low_ones (n k : Nat) : (BitVec.ofNat 64 (2 ^ n - 1)).getLsbD k = decide (k < 64 ∧ k < n) := by
  have hones := getLsbD_ones n 0 k
  simpa using hones

/-- The bits of satp that a write sets with XLEN = 64: MODE, the implemented ASID and PPN. -/
theorem getLsbD_satpMask_rv64 {c : Config} (hx : c.xlen = .rv64) {k : Nat} (hk : k < 64) :
    (satpMask c).getLsbD k = true ↔
      60 ≤ k ∨ (44 ≤ k ∧ k < 60 ∧ k < 44 + c.asidLen) ∨ (k < 44 ∧ k < c.ppnLen) := by
  have hmode : 0xF000000000000000#64 = BitVec.ofNat 64 ((2 ^ 4 - 1) * 2 ^ 60) := rfl
  simp only [satpMask, hx, hmode, BitVec.getLsbD_or, getLsbD_ones, getLsbD_low_ones, Bool.or_eq_true,
    decide_eq_true_eq]
  omega

/-- The bits of satp that a write sets with XLEN = 32. -/
theorem getLsbD_satpMask_rv32 {c : Config} (hx : c.xlen = .rv32) {k : Nat} (hk : k < 64) :
    (satpMask c).getLsbD k = true ↔
      k = 31 ∨ (22 ≤ k ∧ k < 31 ∧ k < 22 + c.asidLen) ∨ (k < 22 ∧ k < c.ppnLen) := by
  have hmode : 0x80000000#64 = BitVec.ofNat 64 ((2 ^ 1 - 1) * 2 ^ 31) := rfl
  simp only [satpMask, hx, hmode, BitVec.getLsbD_or, getLsbD_ones, getLsbD_low_ones, Bool.or_eq_true,
    decide_eq_true_eq]
  omega

theorem writeCsr_satp_of_accepted {s : State} {v : Word} (h : satpMode s.cfg.xlen v ∈ s.cfg.satpModes) :
    writeCsr s .satp v = { s with satp := v &&& satpMask s.cfg } := by
  simp only [writeCsr, satpWrite, h, if_true]

theorem writeCsr_satp_of_refused {s : State} {v : Word} (h : satpMode s.cfg.xlen v ∉ s.cfg.satpModes) :
    writeCsr s .satp v = s := by
  simp only [writeCsr, satpWrite, h, if_false]

/-- Settles O25: an accepted write stores the value through the mask, read bit by bit. -/
theorem satpWriteLegalises : Obligations.SatpWriteLegalises := by
  intro s v himpl
  rw [csrWrite_of_csrImpl himpl]
  refine ⟨fun hx => ?rv64, fun hx => ?rv32⟩
  case rv64 =>
    have hmode : satpMode s.cfg.xlen (trunc s.cfg.xlen v) = (v.extractLsb' 60 4).toNat := by rw [hx]; rfl
    rw [← hmode]
    refine ⟨writeCsr_satp_of_refused, fun haccepted => ⟨_, writeCsr_satp_of_accepted haccepted, fun k hk => ?_⟩⟩
    rw [BitVec.getLsbD_and, Bool.and_eq_true, getLsbD_satpMask_rv64 hx hk, hx, trunc_rv64]
  case rv32 =>
    have hmode : satpMode s.cfg.xlen (trunc s.cfg.xlen v) = (v.extractLsb' 31 1).toNat := by
      rw [hx, satpMode, extract_trunc _ v (by decide)]
    rw [← hmode]
    refine ⟨writeCsr_satp_of_refused, fun haccepted => ⟨_, writeCsr_satp_of_accepted haccepted, fun k hk => ?_⟩⟩
    have hlow : (k = 31 ∨ (22 ≤ k ∧ k < 31 ∧ k < 22 + s.cfg.asidLen) ∨ (k < 22 ∧ k < s.cfg.ppnLen)) →
        k < xlenBits .rv32 := by
      simp only [xlenBits]
      omega
    rw [BitVec.getLsbD_and, Bool.and_eq_true, getLsbD_satpMask_rv32 hx hk, hx, getLsbD_trunc, Bool.and_eq_true,
      decide_eq_true_eq]
    tauto

/-! ### fcsr and its views (R86 to R88) -/

/-- The low bits of a word, as a mask. -/
theorem setWidth_extract_low (v : Word) (len : Nat) :
    (v.extractLsb' 0 len).setWidth 64 = v &&& BitVec.ofNat 64 (2 ^ len - 1) := by
  refine BitVec.eq_of_getLsbD_eq fun k hk => ?_
  rw [BitVec.getLsbD_setWidth, BitVec.getLsbD_extractLsb', BitVec.getLsbD_and, getLsbD_low_ones]
  simp [hk, Bool.and_comm]

/-- Settles O26: frm over fflags is the stored register, and each view writes its own part. -/
theorem fcsrViews : Obligations.FcsrViews := by
  intro s v hfflags hfrm hfcsr
  have hlow : ∀ len, len ≤ 32 →
      ((trunc s.cfg.xlen v).extractLsb' 0 len).setWidth 64 = v &&& BitVec.ofNat 64 (2 ^ len - 1) := fun len hlen => by
    rw [extract_trunc _ v (by omega), setWidth_extract_low]
  rw [csrRead_csrWrite hfcsr hfcsr, csrRead_csrWrite hfflags hfflags, csrRead_csrWrite hfflags hfrm,
    csrRead_csrWrite hfrm hfrm, csrRead_csrWrite hfrm hfflags, csrRead_of_csrImpl hfflags, csrRead_of_csrImpl hfrm,
    csrRead_of_csrImpl hfcsr]
  simp only [readCsr, writeCsr, writeFcsr]
  refine ⟨⟨trivial, ?fflags, ?frm⟩, ?fcsrWritten, ⟨?fflagsWritten, ?frmKept⟩, ?frmWritten, ?fflagsKept⟩
  case fflags =>
    have hlen : (s.fcsr.setWidth 64).extractLsb' 0 5 = s.fcsr.extractLsb' 0 5 :=
      BitVec.extractLsb'_setWidth_of_le (by decide)
    rw [← hlen, setWidth_extract_low]
    rfl
  case frm =>
    apply BitVec.eq_of_toNat_eq
    simp only [BitVec.toNat_setWidth, BitVec.extractLsb'_toNat, BitVec.toNat_ushiftRight, Nat.shiftRight_eq_div_pow]
    omega
  case fcsrWritten => exact hlow 8 (by decide)
  case fflagsWritten => rw [BitVec.extractLsb'_append_eq_right]; exact hlow 5 (by decide)
  case frmKept => rw [BitVec.extractLsb'_append_eq_left]
  case frmWritten => rw [BitVec.extractLsb'_append_eq_left]; exact hlow 3 (by decide)
  case fflagsKept => rw [BitVec.extractLsb'_append_eq_right]

/-! ### The registers with a plain mask (R53 to R64, R71, R77 to R81) -/

/-- Settles O27: each register stores its operand through its mask, and reads what it stores. -/
theorem maskedCsrWrites : Obligations.MaskedCsrWrites := by
  intro s v after v'
  have hmask : ∀ m : Word, m.toNat < 2 ^ 32 → v' &&& m = v &&& m := fun m hm =>
    trunc_and_of_fitsXlen (fitsXlen_of_lt hm) v
  have hlow : ((v'.extractLsb' 0 32).setWidth 64 : Word) = v &&& 0xFFFFFFFF#64 := by
    rw [extract_trunc _ v (by decide), setWidth_extract_low]
    rfl
  refine ⟨fun h => ?medeleg, fun h => ?mideleg, fun h => ?mie, fun h => ?mcounteren, fun h => ?scounteren,
    fun h hnone => ?mcountinhibit, fun h => ?mepc, fun h => ?sepc, fun r hr h => ?plain⟩
  case medeleg => exact (csrRead_csrWrite h h v).trans (hmask _ (by decide))
  case mideleg => exact (csrRead_csrWrite h h v).trans (hmask _ (by decide))
  case mie =>
    refine (csrRead_csrWrite h h v).trans ?_
    have hmodes : mieMask s.cfg = if s.cfg.modes = .msu then 0xAAA#64 else 0x888#64 := by
      simp [mieMask, hasS]
    simp only [readCsr, writeCsr, hmodes]
    split
    · exact hmask _ (by decide)
    · exact hmask _ (by decide)
  case mcounteren => exact (csrRead_csrWrite h h v).trans hlow
  case scounteren => exact (csrRead_csrWrite h h v).trans hlow
  case mcountinhibit =>
    refine (csrRead_csrWrite h h v).trans ?_
    have hcounters : mcountinhibitMask s.cfg = 0x5#32 := by rw [mcountinhibitMask, hnone]; rfl
    simp only [readCsr, writeCsr, hcounters, BitVec.setWidth_and]
    rw [hlow, BitVec.and_assoc]
    rfl
  case mepc => exact csrRead_csrWrite h h v
  case sepc => exact csrRead_csrWrite h h v
  case plain =>
    refine (csrRead_csrWrite h h v).trans ?_
    simp only [List.mem_cons, List.not_mem_nil, or_false] at hr
    rcases hr with rfl | rfl | rfl | rfl | rfl | rfl | rfl | rfl <;> rfl


/-! ### The triggers (R100 to R104) -/

theorem writeCsr_tselect_keepOld {s : State} (hpolicy : s.cfg.warl.tselect = .keepOld) (v : Word) :
    writeCsr s .tselect v = if v.toNat < s.cfg.numTriggers then { s with tselect := v } else s := by
  simp only [writeCsr, legalise, List.mem_range, hpolicy]
  split
  · rw [BitVec.ofNat_toNat, BitVec.setWidth_eq]
  · rw [BitVec.ofNat_toNat, BitVec.setWidth_eq]

/-- Replacing the selected trigger changes the list of triggers alone, and in it no other. -/
theorem setTrigger_frame (s : State) (t : Trigger) :
    { s with triggers := (setTrigger s t).triggers } = setTrigger s t ∧
    (setTrigger s t).triggers.length = s.triggers.length ∧
    ∀ k, k ≠ s.tselect.toNat → (setTrigger s t).triggers[k]? = s.triggers[k]? :=
  ⟨rfl, List.length_set, fun _ hk => List.getElem?_set_ne hk.symm⟩

/-- Settles O28: the index is legalised like any field, and a data register belongs to the selected trigger. -/
theorem triggerSelection : Obligations.TriggerSelection := by
  intro s v hpolicy _
  refine ⟨writeCsr_tselect_keepOld hpolicy v, rfl, rfl, fun r hr => ?_⟩
  simp only [List.mem_cons, List.not_mem_nil, or_false] at hr
  rcases hr with rfl | rfl | rfl <;> exact setTrigger_frame s _

end Sys2Proof.Proofs

/-! PROOF. The counters and their views (10_state.md R67 to R73, R90 to R94), the PMP registers (R65, R66), the
registers that ignore writes (R32 to R36, R51, R52), and which registers exist (R28). -/

namespace Sys2Proof.Proofs

open Sys2Proof Sys2Proof.Machine

/-! ### A 64-bit counter and its two halves with XLEN = 32 (R67, R70) -/

theorem toNat_counterLow_rv32 (c : BitVec 64) : (counterLow .rv32 c).toNat = c.toNat % 2 ^ 32 := toNat_trunc .rv32 c

theorem toNat_counterHigh (c : BitVec 64) : (counterHigh c).toNat = c.toNat / 2 ^ 32 := by
  rw [counterHigh, BitVec.toNat_ushiftRight, Nat.shiftRight_eq_div_pow]

/-- A counter put together from two halves. -/
theorem toNat_append_halves (hi lo : BitVec 32) : (hi ++ lo).toNat = hi.toNat * 2 ^ 32 + lo.toNat := by
  rw [BitVec.toNat_append, ← Nat.shiftLeft_add_eq_or_of_lt lo.isLt, Nat.shiftLeft_eq]

theorem toNat_counterWriteLow_rv32 (old : BitVec 64) (v : Word) :
    (counterWriteLow .rv32 old v).toNat = old.toNat / 2 ^ 32 * 2 ^ 32 + v.toNat % 2 ^ 32 := by
  simp only [counterWriteLow, toNat_append_halves, BitVec.extractLsb'_toNat, Nat.shiftRight_eq_div_pow]
  omega

theorem toNat_counterWriteHigh (old : BitVec 64) (v : Word) :
    (counterWriteHigh old v).toNat = v.toNat % 2 ^ 32 * 2 ^ 32 + old.toNat % 2 ^ 32 := by
  simp only [counterWriteHigh, toNat_append_halves, BitVec.extractLsb'_toNat, Nat.shiftRight_eq_div_pow]
  omega

/-- `lo` and `hi` are the two halves of the counter that `counter` reads off a state. -/
structure IsHalves (s : State) (lo hi : Csr) (counter : State → BitVec 64) : Prop where
  readLow   : ∀ t : State, t.cfg = s.cfg → readCsr t lo = counterLow s.cfg.xlen (counter t)
  readHigh  : ∀ t : State, t.cfg = s.cfg → readCsr t hi = counterHigh (counter t)
  writeLow  : ∀ v, counter (writeCsr s lo v) = counterWriteLow s.cfg.xlen (counter s) v
  writeHigh : ∀ v, counter (writeCsr s hi v) = counterWriteHigh (counter s) v

theorem isHalves_mcycle (s : State) : IsHalves s .mcycle .mcycleh State.mcycle :=
  ⟨fun t ht => by rw [← ht]; rfl, fun _ _ => rfl, fun _ => rfl, fun _ => rfl⟩

theorem isHalves_minstret (s : State) : IsHalves s .minstret .minstreth State.minstret :=
  ⟨fun t ht => by rw [← ht]; rfl, fun _ _ => rfl, fun _ => rfl, fun _ => rfl⟩

theorem isHalves_mhpmcounter {s : State} {n : Fin 29} (hn : n.val < s.cfg.numHpm) :
    IsHalves s (.mhpmcounter n) (.mhpmcounterh n) (fun t => t.mhpmcounter[n]) := by
  refine ⟨fun t ht => ?_, fun t ht => ?_, fun v => ?_, fun v => ?_⟩
  · simp [readCsr, hpmValue, ht, hn]
  · simp [readCsr, hpmValue, ht, hn]
  · simp [writeCsr, hn]
  · simp [writeCsr, hn]

/-- What two halves read, and that a write of one keeps the other (R70). -/
theorem IsHalves.spec {s : State} {lo hi : Csr} {counter : State → BitVec 64} (h : IsHalves s lo hi counter)
    (hx : s.cfg.xlen = .rv32) (v : Word) (hlo : csrImpl s.cfg (csrAddr lo) = some lo)
    (hhi : csrImpl s.cfg (csrAddr hi) = some hi) :
    (csrRead s (csrAddr lo)).toNat = (counter s).toNat % 2 ^ 32 ∧
    (csrRead s (csrAddr hi)).toNat = (counter s).toNat / 2 ^ 32 ∧
    csrRead (csrWrite s (csrAddr lo) v) (csrAddr hi) = csrRead s (csrAddr hi) ∧
    (csrRead (csrWrite s (csrAddr lo) v) (csrAddr lo)).toNat = v.toNat % 2 ^ 32 ∧
    csrRead (csrWrite s (csrAddr hi) v) (csrAddr lo) = csrRead s (csrAddr lo) ∧
    (csrRead (csrWrite s (csrAddr hi) v) (csrAddr hi)).toNat = v.toNat % 2 ^ 32 := by
  have hv : (trunc .rv32 v).toNat = v.toNat % 2 ^ 32 := toNat_trunc .rv32 v
  have hcfg : ∀ r w, (writeCsr s r w).cfg = s.cfg := fun r w => writeCsr_cfg s r w
  rw [csrRead_csrWrite hlo hhi, csrRead_csrWrite hlo hlo, csrRead_csrWrite hhi hlo, csrRead_csrWrite hhi hhi,
    csrRead_of_csrImpl hlo, csrRead_of_csrImpl hhi, h.readLow s rfl, h.readHigh s rfl, h.readHigh _ (hcfg _ _),
    h.readLow _ (hcfg _ _), h.readLow _ (hcfg _ _), h.readHigh _ (hcfg _ _), h.writeLow, h.writeHigh, hx]
  simp only [← BitVec.toNat_inj, toNat_counterLow_rv32, toNat_counterHigh, toNat_counterWriteLow_rv32,
    toNat_counterWriteHigh, hv, true_and]
  have hc := (counter s).isLt
  omega

theorem csrAddr_mhpmcounter (n : Fin 29) : (csrAddr (.mhpmcounter n)).toNat = 0xB03 + n.val := toNat_ofNat_12 (by omega)
theorem csrAddr_mhpmcounterh (n : Fin 29) : (csrAddr (.mhpmcounterh n)).toNat = 0xB83 + n.val := toNat_ofNat_12 (by omega)
theorem csrAddr_hpmcounter (n : Fin 29) : (csrAddr (.hpmcounter n)).toNat = 0xC03 + n.val := toNat_ofNat_12 (by omega)
theorem csrAddr_hpmcounterh (n : Fin 29) : (csrAddr (.hpmcounterh n)).toNat = 0xC83 + n.val := toNat_ofNat_12 (by omega)
theorem csrAddr_mhpmevent (n : Fin 29) : (csrAddr (.mhpmevent n)).toNat = 0x323 + n.val := toNat_ofNat_12 (by omega)

/-- The event selector of a counter that counts (R72; log 18). -/
theorem mhpmevent_spec {s : State} {n : Fin 29} (hn : n.val < s.cfg.numHpm)
    (himpl : csrImpl s.cfg (csrAddr (.mhpmevent n)) = some (.mhpmevent n)) (v : Word) :
    csrRead s (csrAddr (.mhpmevent n)) = s.mhpmevent[n] ∧
    csrWrite s (csrAddr (.mhpmevent n)) v =
      { s with mhpmevent := s.mhpmevent.set n.val (trunc s.cfg.xlen v) } ∧
    csrRead (csrWrite s (csrAddr (.mhpmevent n)) v) (csrAddr (.mhpmevent n)) = trunc s.cfg.xlen v := by
  rw [csrRead_csrWrite himpl himpl, csrRead_of_csrImpl himpl, csrWrite_of_csrImpl himpl]
  simp [readCsr, writeCsr, hn]

/-- Settles O29: each pair of RV32 registers is the two halves of one counter, and the user counters read the machine's. -/
theorem countersAndShadows : Obligations.CountersAndShadows := by
  intro s v halves
  refine ⟨fun hx hmcycle hminstret => ?whole, fun hx n hn => ?hpmWhole,
    fun n hn => ⟨csrAddr_mhpmevent n, fun himpl => mhpmevent_spec hn himpl v⟩, fun hx => ?pairs,
    fun hcycle hmcycle => ?cycle, fun htime => csrRead_of_csrImpl htime, fun hinstret hminstret => ?instret,
    fun n => ⟨rfl, rfl, csrAddr_mhpmcounter n, csrAddr_mhpmcounterh n, csrAddr_hpmcounter n, csrAddr_hpmcounterh n⟩,
    rfl⟩
  case whole =>
    rw [csrRead_of_csrImpl hmcycle, csrRead_of_csrImpl hminstret, csrWrite_of_csrImpl hmcycle,
      csrWrite_of_csrImpl hminstret]
    simp only [readCsr, writeCsr, counterLow, counterWriteLow, hx, trunc_rv64, true_and]
  case hpmWhole =>
    simp [readCsr, writeCsr, hpmValue, hn, counterLow, counterWriteLow, hx]
  case pairs =>
    refine ⟨(isHalves_mcycle s).spec hx v, (isHalves_minstret s).spec hx v,
      fun n hn => (isHalves_mhpmcounter hn).spec hx v, fun h => ?_, fun h => ?_, fun h => ?_⟩
    · rw [csrRead_of_csrImpl h]; exact toNat_counterHigh s.mcycle
    · rw [csrRead_of_csrImpl h]; exact toNat_counterHigh s.time
    · rw [csrRead_of_csrImpl h]; exact toNat_counterHigh s.minstret
  case cycle => rw [csrRead_of_csrImpl hcycle, csrRead_of_csrImpl hmcycle]; rfl
  case instret => rw [csrRead_of_csrImpl hinstret, csrRead_of_csrImpl hminstret]; rfl

/-! ### PMP (R65, R66) -/

theorem pmpBytesPerReg_rv64 : pmpBytesPerReg .rv64 = 8 := rfl
theorem pmpBytesPerReg_rv32 : pmpBytesPerReg .rv32 = 4 := rfl

/-- Where an entry lies: `i` is one of the entries of register `k`, which start at 4k, and no other register holds
one of these. -/
theorem pmpcfg_slot {x : Xlen} {i k : Nat}
    (h : (x = .rv64 ∧ k = 2 * (i / 8)) ∨ (x = .rv32 ∧ k = i / 4)) :
    pmpcfgExists x k = true ∧ 4 * k ≤ i ∧ i < 4 * k + pmpBytesPerReg x ∧ i % pmpBytesPerReg x = i - 4 * k ∧
    ∀ j : Fin 64, 4 * k ≤ j.val → j.val < 4 * k + pmpBytesPerReg x →
      j.val / pmpBytesPerReg x = i / pmpBytesPerReg x := by
  rcases h with ⟨rfl, rfl⟩ | ⟨rfl, rfl⟩
  · rw [pmpBytesPerReg_rv64]
    exact ⟨by simp [pmpcfgExists], by omega, by omega, by omega, fun j _ _ => by omega⟩
  · rw [pmpBytesPerReg_rv32]
    exact ⟨by simp [pmpcfgExists], by omega, by omega, by omega, fun j _ _ => by omega⟩

theorem pmpByte_eq (s : State) (i : Fin 64) : pmpByte s i.val = if i.val < s.cfg.pmpEntries then s.pmpcfg[i] else 0#8 := by
  simp [pmpByte]

/-- A write of a pmpcfg register leaves every entry that stands elsewhere, and every entry that is not implemented. -/
theorem getElem_pmpcfgWrite_kept {s : State} {j : Fin 64} {k : Nat} (v : Word)
    (h : 4 * k ≤ j.val → j.val < 4 * k + pmpBytesPerReg s.cfg.xlen → s.cfg.pmpEntries ≤ j.val) :
    (pmpcfgWrite s k v)[j] = s.pmpcfg[j] := by
  refine (getElem_pmpcfgWrite s k v j.val j.isLt).trans (if_neg ?_)
  rintro ⟨-, hlo, hhi, hlt⟩
  exact absurd (h hlo hhi) (by omega)

/-- What the pmpcfg register that holds an entry reads of it, and what a write of it does to the entries (R65; log 16). -/
theorem pmpcfg_entry {s : State} {i : Fin 64} {k : Nat} (v : Word)
    (hk : (s.cfg.xlen = .rv64 ∧ k = 2 * (i.val / 8)) ∨ (s.cfg.xlen = .rv32 ∧ k = i.val / 4)) :
    let place := 8 * (i.val % pmpBytesPerReg s.cfg.xlen)
    (pmpcfgRead s k).extractLsb' place 8 = pmpByte s i.val ∧
    (i.val < s.cfg.pmpEntries → (pmpcfgWrite s k v)[i] = v.extractLsb' place 8) ∧
    ∀ j : Fin 64, j.val / pmpBytesPerReg s.cfg.xlen ≠ i.val / pmpBytesPerReg s.cfg.xlen →
      (pmpcfgWrite s k v)[j] = s.pmpcfg[j] := by
  obtain ⟨hexists, hlo, hhi, hplace, hother⟩ := pmpcfg_slot hk
  intro place
  have hplace : place = 8 * (i.val - 4 * k) := congrArg (8 * ·) hplace
  refine ⟨?_, fun hi => ?_, fun j hj => getElem_pmpcfgWrite_kept v fun hjlo hjhi => absurd (hother j hjlo hjhi) hj⟩
  · rw [hplace, extract_pmpcfgRead s hexists (by omega), Nat.add_sub_cancel' hlo]
  · rw [hplace]
    exact (getElem_pmpcfgWrite s k v i.val i.isLt).trans (if_pos ⟨hexists, hlo, hhi, hi⟩)

/-- Settles O31: with either XLEN the entry's place in its register is the difference to the register's first entry. -/
theorem pmpEntryByteLayout : Obligations.PmpEntryByteLayout := by
  intro s i v hi
  have hentry : pmpByte s i.val = s.pmpcfg[i] := by rw [pmpByte_eq, if_pos hi]
  refine ⟨fun hx k hk => ?_, fun hx k hk => ?_, by simp [readCsr, writeCsr, hi]⟩
  · obtain ⟨hread, hwrite, hkept⟩ := pmpcfg_entry v (.inl ⟨hx, hk⟩)
    rw [hx, pmpBytesPerReg_rv64] at hread hwrite hkept
    exact ⟨hread.trans hentry, hwrite hi, hkept⟩
  · obtain ⟨hread, hwrite, hkept⟩ := pmpcfg_entry v (.inr ⟨hx, hk⟩)
    rw [hx, pmpBytesPerReg_rv32] at hread hwrite hkept
    exact ⟨hread.trans hentry, hwrite hi, hkept⟩

/-- Settles O30: the registers read their configuration values, and what is not implemented reads 0 and keeps its storage. -/
theorem readOnlyRegistersIgnoreWrites : Obligations.ReadOnlyRegistersIgnoreWrites := by
  intro s v
  refine ⟨⟨rfl, rfl, rfl, rfl, rfl, rfl, rfl⟩, fun r hr => ?ignored, fun n hn => ?hpm, fun i hi => ?pmp⟩
  case ignored =>
    simp only [List.mem_cons, List.not_mem_nil, or_false] at hr
    rcases hr with rfl | rfl | rfl <;> rfl
  case hpm => simp [readCsr, writeCsr, hpmValue, Nat.not_lt.mpr hn, counterLow, trunc_zero]
  case pmp =>
    have hentry : pmpByte s i.val = 0#8 := by rw [pmpByte_eq, if_neg (Nat.not_lt.mpr hi)]
    have haddr : readCsr s (.pmpaddr i) = 0#64 ∧ writeCsr s (.pmpaddr i) v = s := by
      simp [readCsr, writeCsr, Nat.not_lt.mpr hi]
    refine ⟨haddr.1, haddr.2, hentry, fun k => getElem_pmpcfgWrite_kept v fun _ _ => hi, fun hx k hk => ?_,
      fun hx k hk => ?_⟩
    · obtain ⟨hread, -, -⟩ := pmpcfg_entry v (.inl ⟨hx, hk⟩)
      rw [hx, pmpBytesPerReg_rv64] at hread
      exact hread.trans hentry
    · obtain ⟨hread, -, -⟩ := pmpcfg_entry v (.inr ⟨hx, hk⟩)
      rw [hx, pmpBytesPerReg_rv32] at hread
      exact hread.trans hentry

/-! ### Which registers exist (R28; log 31) -/

/-- What the configuration must have for the listed register at an address to exist. -/
def OptionsAt (c : Config) (n : Nat) : Prop :=
  (n = 0x310 ∨ (0x3A0 ≤ n ∧ n ≤ 0x3AF ∧ n % 2 = 1) ∨ (0xB80 ≤ n ∧ n ≤ 0xB9F) ∨ (0xC80 ≤ n ∧ n ≤ 0xC9F) →
    c.xlen = .rv32) ∧
  ((0x100 ≤ n ∧ n ≤ 0x180) ∨ n = 0x302 ∨ n = 0x303 → c.modes = .msu) ∧ (n ≤ 0x003 → c.hasF = true) ∧
  (0x3A0 ≤ n ∧ n ≤ 0x3EF → c.pmpEntries ≠ 0) ∧ (0x7A0 ≤ n ∧ n ≤ 0x7AA → c.numTriggers ≠ 0) ∧
  (n = 0x34A ∨ n = 0x34B → c.hasHtrap = true)

theorem csrExists_iff (c : Config) (r : Csr) : csrExists c r = true ↔ OptionsAt c (csrAddr r).toNat := by
  cases r with
  | mhpmevent n | pmpaddr n | mhpmcounter n | mhpmcounterh n | hpmcounter n | hpmcounterh n =>
    rw [csrAddr, toNat_ofNat_12 (by omega)]
    simp only [csrExists, OptionsAt, bne_iff_ne, beq_iff_eq, true_iff]
    grind
  | pmpcfg k =>
    rw [csrAddr, toNat_ofNat_12 (by omega)]
    simp only [csrExists, OptionsAt, pmpcfgExists, Bool.and_eq_true, Bool.or_eq_true, bne_iff_ne, beq_iff_eq]
    grind
  | _ => simp [csrExists, csrAddr, OptionsAt, hasS]

theorem csrImpl_ne_none_iff (c : Config) (a : CsrAddr) :
    csrImpl c a ≠ none ↔ csrAt a ≠ none ∧ a ∉ c.absent ∧ OptionsAt c a.toNat := by
  constructor
  · intro h
    obtain ⟨r, hr⟩ := Option.ne_none_iff_exists'.mp h
    obtain ⟨hat, haddr, hexists, habsent⟩ := csrImpl_some hr
    exact ⟨by simp [hat], habsent, haddr ▸ (csrExists_iff c r).mp hexists⟩
  · rintro ⟨h, habsent, hoptions⟩
    obtain ⟨r, hr⟩ := Option.ne_none_iff_exists'.mp h
    have hexists : csrExists c r = true := (csrExists_iff c r).mpr (csrTableIsOneToOne.2 a r hr ▸ hoptions)
    simp [csrImpl, hr, hexists, habsent]

/-- Settles O59: a listed register exists by the options its address asks for. -/
theorem implementedCsrs : Obligations.ImplementedCsrs := by
  refine ⟨csrImpl_ne_none_iff, fun c a r h => ?_, fun a => ?_⟩
  · obtain ⟨-, haddr, -, -⟩ := csrImpl_some h
    exact haddr
  · rw [csrImpl_ne_none_iff]
    simp only [OptionsAt, Config.ref64, BitVec.le_def, ← BitVec.toNat_inj, BitVec.toNat_ofNat]
    grind

end Sys2Proof.Proofs

/-! PROOF. The system and base instructions: MRET (41_system_instructions.md R230), WFI (R232), SFENCE.VMA (R235), SRLI
and SD (42_support_instructions.md R253, R254), and the memory they write (20_memory.md R141 to R155). -/

namespace Sys2Proof.Proofs

open Sys2Proof Sys2Proof.Machine

/-! ### MRET (R230) -/

/-- Every bit of mstatus after MRET: MPRV is kept only for M-mode, MPP is the least privileged mode, MPIE is 1, MIE is the
old MPIE, and the rest is kept. -/
theorem returnFromM_mstatus_getLsbD (new : Priv) (s : State) (k : Nat) :
    (returnFromM new s).mstatus.getLsbD k =
      if k = 17 then (if new = .M then mstatusMPRV s.mstatus else false)
      else if k = 11 then (privBits (leastMode s.cfg)).getLsbD 0
      else if k = 12 then (privBits (leastMode s.cfg)).getLsbD 1
      else if k = 7 then true else if k = 3 then mstatusMPIE s.mstatus else s.mstatus.getLsbD k := by
  by_cases hnew : new = .M
  · simp only [returnFromM, if_pos hnew, setMPIE, setMIE, getLsbD_setMPP, getLsbD_setBit, Nat.reduceLT]
    by_cases hk : k = 17
    · rw [if_pos hk, hk]; rfl
    · rw [if_neg hk]
  · simp only [returnFromM, if_neg hnew, setMPRV, setMPIE, setMIE, getLsbD_setMPP, getLsbD_setBit, Nat.reduceLT]

/-- Counting comes before the return, and neither sees the field that the other writes. -/
theorem exec_mret_of_machine {s : State} {new : Priv} (hpriv : s.priv = .M)
    (hnew : mstatusMPP s.mstatus = privBits new) :
    exec .mret s = .next { s with
      mstatus := (returnFromM new s).mstatus, priv := new, pc := s.mepc, minstret := countOne s } := by
  change execMret s = _
  have hmode : privOfBits (mstatusMPP s.mstatus) = some new := (privOfBits_eq_some_iff _ _).mpr hnew
  rw [execMret, if_neg (not_not.mpr hpriv), hmode, countRetired_eq]
  rfl

/-- Settles O33: the word of mstatus is the one the return leaves, read bit by bit. -/
theorem mretReturns : Obligations.MretReturns := by
  intro s
  refine ⟨fun hpriv => if_pos hpriv, fun new hpriv hnew => ⟨(returnFromM new s).mstatus,
    exec_mret_of_machine hpriv hnew, returnFromM_mstatus_getLsbD new s 3, returnFromM_mstatus_getLsbD new s 7,
    returnFromM_mstatusMPP new s, returnFromM_mstatus_getLsbD new s 17, fun k hk => ?kept⟩, fun hpriv hmpp => ?reserved⟩
  case kept =>
    simp only [List.mem_cons, List.not_mem_nil, or_false, not_or] at hk
    obtain ⟨hmie, hmpie, hmpp0, hmpp1, hmprv⟩ := hk
    rw [returnFromM_mstatus_getLsbD, if_neg hmprv, if_neg hmpp0, if_neg hmpp1, if_neg hmpie, if_neg hmie]
  case reserved =>
    change execMret s = _
    rw [execMret, if_neg (not_not.mpr hpriv), hmpp]
    rfl

/-! ### WFI (R232) -/

/-- Settles O35: the two branches of WFI; the one that retires only sets the flag besides. -/
theorem wfiRetiresAndMayStall : Obligations.WfiRetiresAndMayStall := by
  intro s illegal
  refine ⟨fun h => if_pos h, fun h => ?_⟩
  calc exec .wfi s
      = .next { retire s with waiting := wfiWaits s } := if_neg h
    _ = _ := by rw [retire_eq]; rfl

/-! ### SFENCE.VMA (R235) -/

theorem samePage_iff (a b : Word) : samePage a b = true ↔ a.toNat / 4096 = b.toNat / 4096 := by
  rw [samePage, beq_iff_eq, ← BitVec.toNat_inj, BitVec.toNat_ushiftRight, BitVec.toNat_ushiftRight,
    Nat.shiftRight_eq_div_pow, Nat.shiftRight_eq_div_pow]

theorem mem_flushTlb_iff (rs1 rs2 : Reg) (s : State) (e : TlbEntry) :
    e ∈ (flushTlb rs1 rs2 s).tlb ↔ e ∈ s.tlb ∧
      ¬ ((rs1 = 0#5 ∨ e.vaddr.toNat / 4096 = (readX s rs1).toNat / 4096) ∧ (rs2 = 0#5 ∨ e.asid = readX s rs2)) := by
  rw [flushTlb, List.mem_filter, Bool.not_eq_true', ← Bool.not_eq_true, Bool.and_eq_true, Bool.or_eq_true,
    Bool.or_eq_true, samePage_iff, beq_iff_eq, beq_iff_eq, beq_iff_eq]

/-- Settles O38: the entries kept are those that do not match, and a page number is the address divided by 4096. -/
theorem sfenceVmaFlushes : Obligations.SfenceVmaFlushes := by
  intro rs1 rs2 s illegal
  refine ⟨fun h => if_pos h, fun h => ⟨(flushTlb rs1 rs2 s).tlb, ?_, mem_flushTlb_iff rs1 rs2 s⟩⟩
  calc exec (.sfenceVma rs1 rs2) s
      = .next (retire (flushTlb rs1 rs2 s)) := if_neg h
    _ = _ := by rw [retire_eq]; rfl

/-! ### SRLI (R253) -/

/-- Settles O41: the shift is a division, and the quotient still fits XLEN bits. -/
theorem srliShiftsRight : Obligations.SrliShiftsRight := by
  intro rd rs1 shamt s hshamt hx
  have hwf : Instr.wf s.cfg.xlen (.srli rd rs1 shamt) = true := by
    cases hx : s.cfg.xlen <;> rw [hx] at hshamt
    · exact decide_eq_true hshamt
    · rfl
  refine exec_retires_of_writeResult (w := readX s rs1 >>> shamt.toNat) (if_pos hwf) ?_
  rw [toNat_trunc, BitVec.toNat_ushiftRight, Nat.shiftRight_eq_div_pow]
  exact Nat.mod_eq_of_lt ((Nat.div_le_self _ _).trans_lt hx)

/-! ### Memory (R145 to R155) -/

theorem not_mem_accessAddrs {x : Xlen} {addr : Word} {n b : Nat} (haddr : addr.toNat < 2 ^ xlenBits x)
    (h : ∀ k < n, b ≠ (addr.toNat + k) % 2 ^ xlenBits x) : b ∉ accessAddrs x addr n := by
  rw [mem_accessAddrs]
  rintro ⟨k, hk, rfl⟩
  exact h k hk (byteAddr_eq x addr k haddr)

/-- Settles O44: the addresses of the access are distinct, so each byte keeps what was written to it. -/
theorem memWriteIsLittleEndian : Obligations.MemWriteIsLittleEndian := by
  intro x m addr v n hn haddr
  exact ⟨fun k hk => memRead_writeBytes_get x m addr v n (hn.trans (by decide)) haddr k hk,
    fun b hb => memRead_writeBytes_frame x m addr v n b (not_mem_accessAddrs haddr hb),
    fun hwf => writeBytes_wf hwf x addr n v⟩

/-- `isMemory` of R155, with R141 on RV64 (log 15). -/
theorem isMemory_iff (c : Config) (a : Nat) :
    isMemory c a = true ↔
      (∃ r ∈ c.memoryMap, r.base ≤ a ∧ a < r.base + r.size) ∧ (c.xlen = .rv64 → a < 2 ^ 56) := by
  have hbound : (c.xlen == .rv32 || decide (a < 2 ^ 56)) = true ↔ (c.xlen = .rv64 → a < 2 ^ 56) := by
    cases c.xlen <;> simp
  rw [isMemory, Bool.and_eq_true, hbound, List.any_eq_true]
  simp only [Bool.and_eq_true, decide_eq_true_eq]

theorem memoryAnswers_iff {c : Config} {addr : Word} (haddr : addr.toNat < 2 ^ xlenBits c.xlen) (n : Nat) :
    memoryAnswers c addr n = true ↔ ∀ k < n, isMemory c ((addr.toNat + k) % 2 ^ xlenBits c.xlen) = true := by
  simp only [memoryAnswers, accessAddrs, List.all_map, List.all_eq_true, List.mem_range, Function.comp_apply,
    byteAddr_eq c.xlen addr _ haddr]

/-- MODE of satp is not 0 (R83, R84). -/
theorem satpMode_ne_zero_iff (x : Xlen) (v : Word) :
    satpMode x v ≠ 0 ↔ (x = .rv64 → v.toNat / 2 ^ 60 ≠ 0) ∧ (x = .rv32 → v.getLsbD 31 = true) := by
  cases x with
  | rv64 =>
    have hmode : satpMode .rv64 v = v.toNat / 2 ^ 60 := by
      have hv := v.isLt
      rw [satpMode, BitVec.extractLsb'_toNat, Nat.shiftRight_eq_div_pow]
      omega
    simp [hmode]
  | rv32 =>
    have hmode : satpMode .rv32 v ≠ 0 ↔ v.getLsbD 31 = true := by
      rw [satpMode, BitVec.extractLsb'_toNat, BitVec.getLsbD, Nat.testBit_eq_decide_div_mod_eq,
        Nat.shiftRight_eq_div_pow, decide_eq_true_eq]
      omega
    simpa using hmode

/-- Settles O60: the definitions of R151 and R155, with each byte of the access counted modulo 2^XLEN. -/
theorem accessChecks : Obligations.AccessChecks := by
  intro s p
  refine ⟨fun hmprv => ?current, fun hmprv hmpp => ?previous, ?active, fun addr n haddr => ?answers⟩
  case current => simp [dataPriv, hmprv]
  case previous => simpa [dataPriv, hmprv] using (privOfBits_eq_some_iff _ _).mpr hmpp
  case active =>
    have hbelow : p ≠ .M ↔ p = .S ∨ p = .U := by cases p <;> decide
    rw [translationActive, Bool.and_eq_true, Bool.and_eq_true, bne_iff_ne, bne_iff_ne, satpMode_ne_zero_iff, hbelow,
      hasS, beq_iff_eq]
    tauto
  case answers =>
    rw [memoryAnswers_iff haddr]
    exact forall₂_congr fun k _ => isMemory_iff s.cfg _

/-! ### SD (R254) -/

theorem exec_sd_rv64 {s : State} (hx : s.cfg.xlen = .rv64) (rs2 rs1 : Reg) (imm : BitVec 12) :
    exec (.sd rs2 rs1 imm) s = storeInstr (storeAddress s rs1 imm) 8 (readX s rs2) s := by
  have hwf : Instr.wf s.cfg.xlen (.sd rs2 rs1 imm) = true := by rw [hx]; rfl
  exact if_pos hwf

/-- Settles O42: the checks pass, so the bytes land and the instruction retires. -/
theorem sdStoresEightBytes : Obligations.SdStoresEightBytes := by
  intro rs2 rs1 imm s p hx addr haligned hpriv htranslated hpmp hmemory
  have hexec : exec (.sd rs2 rs1 imm) s = .next (retire (commitStore addr 8 (readX s rs2) s)) := by
    rw [exec_sd_rv64 hx, storeInstr_next ?_ hpriv htranslated hpmp hmemory]
    rintro ⟨htrap, hmis⟩
    exact haligned.elim hmis fun hemulate => by simp [hemulate] at htrap
  have haddr : addr.toNat < 2 ^ xlenBits .rv64 := addr.isLt
  have hbyte (k : Nat) : byteAddr .rv64 addr k = (addr.toNat + k) % 2 ^ 64 := byteAddr_eq .rv64 addr k haddr
  refine ⟨_, hexec, ?frame, ?address, fun k hk => ?landed, fun a ha => ?kept, fun a => ?stored⟩
  case frame => rw [retire_eq]; rfl
  case address =>
    have hsum := toNat_trunc_add_sextImm s.cfg.xlen (readX s rs1) imm
    have hxlen : xlenBits s.cfg.xlen = 64 := by rw [hx]; rfl
    rw [hxlen] at hsum
    exact hsum
  all_goals rw [retire_eq]
  case landed =>
    change memRead (writeBytes s.cfg.xlen s.mem addr 8 (readX s rs2)) _ = _
    rw [hx]
    exact memRead_writeBytes_get .rv64 s.mem addr (readX s rs2) 8 (by decide) haddr k hk
  case kept =>
    change memRead (writeBytes s.cfg.xlen s.mem addr 8 (readX s rs2)) _ = _
    rw [hx]
    exact memRead_writeBytes_frame .rv64 s.mem addr _ 8 a (not_mem_accessAddrs haddr ha)
  case stored =>
    change a ∈ (accessAddrs s.cfg.xlen addr 8).foldl insertAddr s.stored ↔ _
    rw [hx, mem_foldl_insertAddr, mem_accessAddrs, or_comm]
    simp only [hbyte]

/-- Settles O43: the branches of a store in their order. -/
theorem sdTrapsAndRefusals : Obligations.SdTrapsAndRefusals := by
  intro rs2 rs1 imm s hx addr misaligned
  rw [exec_sd_rv64 hx]
  refine ⟨fun hmis => if_pos hmis, fun p hmis hpriv htranslated => ?translated,
    fun p hmis hpriv htranslated hdenied => ?denied, fun hmis hpriv => ?reserved, fun _ _ _ _ _ => takeTrap_mem ..⟩
  all_goals rw [storeInstr, if_neg hmis, hpriv]
  case translated => exact if_pos htranslated
  case denied =>
    have hchecks : ¬ (pmpAllows s addr 8 .store p && memoryAnswers s.cfg addr 8) = true := by
      rcases hdenied with h | h <;> simp [h]
    exact (if_neg (by simp [htranslated])).trans (if_neg hchecks)

end Sys2Proof.Proofs

/-! PROOF. The step of the hart: the agents (00_scope.md R4, 10_state.md R73), waking (41_system_instructions.md R232),
the choice of an interrupt (60_exceptions.md R286, R287), fetch and what follows it, and the state after reset (R330,
R331). -/

namespace Sys2Proof.Proofs

open Sys2Proof Sys2Proof.Machine

/-! ### Which interrupt is taken (R286, R287) -/

/-- The interrupt is pending and enabled, is not delegated, and M-mode takes interrupts. -/
def MachineBound (s : State) (i : Irq) : Prop :=
  (s.priv ≠ .M ∨ mstatusMIE s.mstatus = true) ∧ (mipRead s &&& s.mie).getLsbD (irqCode i) = true ∧
    s.mideleg.getLsbD (irqCode i) = false

/-- The interrupt is pending and enabled, is delegated, and S-mode takes interrupts. -/
def SupervisorBound (s : State) (i : Irq) : Prop :=
  (s.priv = .U ∨ (s.priv = .S ∧ mstatusSIE s.mstatus = true)) ∧ (mipRead s &&& s.mie).getLsbD (irqCode i) = true ∧
    s.mideleg.getLsbD (irqCode i) = true ∧ irqSupervisor i = true

/-- The interrupt the model finds for M-mode. -/
def machineChoice (s : State) : Option Irq :=
  if machineEnabled s then machineOrder.find? (fun i => irqPending s i && !irqDelegated s i) else none

/-- The interrupt the model finds for S-mode. -/
def supervisorChoice (s : State) : Option Irq :=
  if supervisorEnabled s then supervisorOrder.find? (fun i => irqPending s i && irqDelegated s i) else none

theorem irqPending_iff (s : State) (i : Irq) :
    irqPending s i = true ↔ (mipRead s &&& s.mie).getLsbD (irqCode i) = true := by
  rw [irqPending, BitVec.getLsbD_and, Bool.and_comm]

theorem machineEnabled_iff (s : State) : machineEnabled s = true ↔ s.priv ≠ .M ∨ mstatusMIE s.mstatus = true := by
  rw [machineEnabled, Bool.or_eq_true, bne_iff_ne]

theorem supervisorEnabled_iff (s : State) :
    supervisorEnabled s = true ↔ s.priv = .U ∨ (s.priv = .S ∧ mstatusSIE s.mstatus = true) := by
  unfold supervisorEnabled
  cases s.priv <;> simp

theorem machineBound_iff (s : State) (i : Irq) :
    MachineBound s i ↔ machineEnabled s = true ∧ (irqPending s i && !irqDelegated s i) = true := by
  rw [MachineBound, machineEnabled_iff, Bool.and_eq_true, irqPending_iff, Bool.not_eq_true', irqDelegated]

theorem supervisorBound_iff (s : State) (i : Irq) :
    SupervisorBound s i ↔
      supervisorEnabled s = true ∧ (irqPending s i && irqDelegated s i) = true ∧ irqSupervisor i = true := by
  rw [SupervisorBound, supervisorEnabled_iff, Bool.and_eq_true, irqPending_iff, irqDelegated, and_assoc]

theorem machineChoice_eq_some_iff (s : State) (i : Irq) :
    machineChoice s = some i ↔ MachineBound s i ∧ ∀ j, irqRank j < irqRank i → ¬ MachineBound s j := by
  simp only [machineBound_iff, machineChoice]
  by_cases henabled : machineEnabled s = true
  · simp only [henabled, if_true, machineOrder_find_some, true_and, Bool.not_eq_true]
  · simp [henabled]

theorem machineChoice_eq_none_iff (s : State) : machineChoice s = none ↔ ∀ j, ¬ MachineBound s j := by
  simp only [machineBound_iff, machineChoice]
  by_cases henabled : machineEnabled s = true
  · simp only [henabled, if_true, machineOrder_find_none, true_and, Bool.not_eq_true]
  · simp [henabled]

theorem supervisorChoice_eq_some_iff (s : State) (i : Irq) :
    supervisorChoice s = some i ↔ SupervisorBound s i ∧ ∀ j, irqRank j < irqRank i → ¬ SupervisorBound s j := by
  simp only [supervisorBound_iff, supervisorChoice]
  by_cases henabled : supervisorEnabled s = true
  · simp only [henabled, if_true, supervisorOrder_find_some, true_and]
  · simp [henabled]

theorem supervisorChoice_eq_none_iff (s : State) : supervisorChoice s = none ↔ ∀ j, ¬ SupervisorBound s j := by
  simp only [supervisorBound_iff, supervisorChoice]
  by_cases henabled : supervisorEnabled s = true
  · simp only [henabled, if_true, supervisorOrder_find_none, true_and]
  · simp [henabled]

/-- M-mode's choice comes first. -/
theorem interruptTaken_eq (s : State) :
    interruptTaken s = ((machineChoice s).map (·, Priv.M)).or ((supervisorChoice s).map (·, Priv.S)) := by
  cases hmachine : machineChoice s <;> cases hsupervisor : supervisorChoice s <;>
  · rw [machineChoice] at hmachine
    rw [supervisorChoice] at hsupervisor
    rw [interruptTaken, hmachine, hsupervisor]
    rfl

theorem interruptTaken_machine_iff (s : State) (i : Irq) :
    interruptTaken s = some (i, .M) ↔ machineChoice s = some i := by
  rw [interruptTaken_eq]
  cases machineChoice s <;> simp

theorem interruptTaken_supervisor_iff (s : State) (i : Irq) :
    interruptTaken s = some (i, .S) ↔ machineChoice s = none ∧ supervisorChoice s = some i := by
  rw [interruptTaken_eq]
  cases machineChoice s <;> simp

theorem interruptTaken_none_iff (s : State) :
    interruptTaken s = none ↔ machineChoice s = none ∧ supervisorChoice s = none := by
  rw [interruptTaken_eq]
  cases machineChoice s <;> simp

/-- Settles O48: the two orders list the interrupts by rank, so the first that is bound has none of higher rank. -/
theorem interruptSelection : Obligations.InterruptSelection := by
  intro s
  refine ⟨fun i => (interruptTaken_machine_iff s i).trans (machineChoice_eq_some_iff s i), fun i => ?_, ?_⟩
  · rw [interruptTaken_supervisor_iff, machineChoice_eq_none_iff, supervisorChoice_eq_some_iff]
    rfl
  · rw [interruptTaken_none_iff, machineChoice_eq_none_iff, supervisorChoice_eq_none_iff]
    exact forall_and.symm

/-! ### What the hart does once the agents have moved (R3, R232) -/

theorem step_eq_hartAct (s : State) : step s = hartAct (wake (moveAgents s)) := rfl

theorem hartAct_of_interrupt {s : State} {i : Irq} {target : Priv} (hwait : s.waiting = false)
    (hirq : interruptTaken s = some (i, target)) :
    hartAct s = .next (takeTrap true (irqCode i) 0#64 s.pc target s) := by
  rw [hartAct, hwait, hirq]
  rfl

theorem hartAct_of_no_interrupt {s : State} (hwait : s.waiting = false) (hirq : interruptTaken s = none) :
    hartAct s = runAtPc s := by
  rw [hartAct, hwait, hirq]
  rfl

theorem wake_of_waiting {s : State} (h : s.waiting = true) :
    wake s = if mipRead s &&& s.mie = 0#64 then s else { s with waiting := false } := by
  rw [wake, h, Bool.true_and]
  simp only [bne_iff_ne, ne_eq, ite_not]

/-- Settles O36: the hart wakes exactly when an interrupt is pending and individually enabled. -/
theorem waitingHartWakesOnPendingInterrupt : Obligations.WaitingHartWakesOnPendingInterrupt := by
  intro s hwaiting s'
  have hwait : s'.waiting = true := hwaiting
  refine ⟨fun hnone => ?_, fun hsome => ?_⟩
  · rw [step_eq_hartAct, wake_of_waiting hwait, if_pos hnone]
    exact if_pos hwait
  · rw [step_eq_hartAct, wake_of_waiting hwait, if_neg hsome]

theorem pc_wake_moveAgents (s : State) : (wake (moveAgents s)).pc = s.pc := by rw [wake_pc, moveAgents_pc]

/-- Settles O51: the hart takes the interrupt before it fetches; the agents have left pc. -/
theorem stepTakesInterruptBeforeFetch : Obligations.StepTakesInterruptBeforeFetch := by
  intro s i target s' hwait hirq
  rw [step_eq_hartAct, hartAct_of_interrupt hwait hirq, pc_wake_moveAgents]

/-- Settles O49: no interrupt is taken and the bytes decode, so the step is the meaning of the instruction. -/
theorem stepRunsDecodedInstruction : Obligations.StepRunsDecodedInstruction := by
  intro s bs i s' hwait hirq hfetch hdecode _
  rw [step_eq_hartAct, hartAct_of_no_interrupt hwait hirq, runAtPc, hfetch]
  change runBytes bs s' = exec i s'
  rw [runBytes, hdecode]

/-- The only exception a fetch raises (R150; log 14). -/
theorem eq_instructionAccessFault_of_fetch {s : State} {e : Exc} (h : fetch s = .raises e) :
    e = .instructionAccessFault := by
  rcases fetch_cases s with hc | hc | hc | hc <;> rw [hc] at h <;> cases h
  rfl

/-- Settles O50: the four ways in which a fetch gives no instruction. -/
theorem stepOnOtherWords : Obligations.StepOnOtherWords := by
  intro s s' hwait hirq
  have hstep : step s = runAtPc s' := (step_eq_hartAct s).trans (hartAct_of_no_interrupt hwait hirq)
  refine ⟨fun w hfetch => ?word, fun e hfetch => ?raises, fun r hfetch => ?refused⟩
  all_goals rw [hstep, runAtPc, hfetch]
  case word =>
    have hword : wordOfBytes (bytesOfWord w) = some w := by
      simpa only [List.append_nil] using wordOfBytes_bytesOfWord w []
    have hdecode : decode s'.cfg.xlen (bytesOfWord w) = decodeWord s'.cfg.xlen w := by rw [decode, hword]
    refine ⟨fun hillegal => ?_, fun houtside => ?_⟩
    · simp only [runBytes, hdecode, hillegal, hword, Option.getD_some]
    · simp only [runBytes, hdecode, houtside]
  case raises =>
    rw [eq_instructionAccessFault_of_fetch hfetch]
    have hpc : s'.pc = s.pc := pc_wake_moveAgents s
    simp only [raiseExc, hpc, excCode]

/-! ### Fetch (R150, R160) -/

theorem readBytes_fetchAddrs (s : State) :
    readBytes s.mem (fetchAddrs s) =
      (List.range 4).map fun k => memByte s.mem (byteAddr s.cfg.xlen s.pc k) := by
  rw [readBytes, fetchAddrs, accessAddrs, List.map_map]
  rfl

theorem memByte_eq (m : Memory) (a : Nat) :
    memByte m a =
      match memRead m a with
      | some b => b
      | none => Config.memoryAtReset a := by
  rw [memByte]
  cases memRead m a <;> rfl

/-- Settles O52: the checks of a fetch in their order, then the four bytes. -/
theorem fetchOutcomes : Obligations.FetchOutcomes := by
  intro s denied byteAt
  have hchecked (htranslated : translationActive s s.priv = false) (hallowed : ¬ denied) :
      fetch s = if (fetchAddrs s).any (fun a => s.stored.contains a) then .refused .modifiedCode
        else .bytes (readBytes s.mem (fetchAddrs s)) := by
    simp only [denied, not_or, Bool.not_eq_false] at hallowed
    obtain ⟨hpmp, hmemory⟩ := hallowed
    simp [fetch, htranslated, hpmp, hmemory]
  refine ⟨fun htranslated => if_pos htranslated, fun htranslated hdenied => ?denied,
    fun htranslated hallowed hstored => ?modified, fun htranslated hallowed hstored => ?bytes⟩
  case denied => rcases hdenied with h | h <;> simp [fetch, htranslated, h]
  case modified => rw [hchecked htranslated hallowed, if_pos (by simpa using hstored)]
  case bytes =>
    rw [hchecked htranslated hallowed, if_neg (by simpa using hstored), readBytes_fetchAddrs]
    simp only [memByte_eq]
    rfl

/-! ### The agents (R4, R73) -/

/-- The performance counters after the first `m` of them have been advanced. -/
def advanceHpmUpTo (s : State) (amounts : List Nat) (m : Nat) : Vector (BitVec 64) 29 :=
  (List.range m).foldl
    (fun v k =>
      if s.mcountinhibit.getLsbD (k + 3) then v
      else v.setIfInBounds k (v[k]?.getD 0#64 + BitVec.ofNat 64 (amounts.getD k 0)))
    s.mhpmcounter

theorem advanceHpmUpTo_succ (s : State) (amounts : List Nat) (m : Nat) :
    advanceHpmUpTo s amounts (m + 1) =
      if s.mcountinhibit.getLsbD (m + 3) then advanceHpmUpTo s amounts m
      else (advanceHpmUpTo s amounts m).setIfInBounds m
        ((advanceHpmUpTo s amounts m)[m]?.getD 0#64 + BitVec.ofNat 64 (amounts.getD m 0)) := by
  rw [advanceHpmUpTo, List.range_succ, List.foldl_append]
  rfl

/-- Each counter below `m` has moved once, by its own amount, and the others not at all. -/
theorem getElem_advanceHpmUpTo (s : State) (amounts : List Nat) (m : Nat) (n : Fin 29) :
    (advanceHpmUpTo s amounts m)[n] =
      if m ≤ n.val ∨ s.mcountinhibit.getLsbD (n.val + 3) = true then s.mhpmcounter[n]
      else s.mhpmcounter[n] + BitVec.ofNat 64 (amounts.getD n.val 0) := by
  induction m with
  | zero => rw [if_pos (.inl (Nat.zero_le _))]; rfl
  | succ m ih =>
    rw [advanceHpmUpTo_succ]
    by_cases hn : m = n.val
    · subst hn
      rw [if_pos (.inl le_rfl)] at ih
      by_cases hinhibit : s.mcountinhibit.getLsbD (n.val + 3) = true
      · rw [if_pos hinhibit, ih, if_pos (.inr hinhibit)]
      · rw [if_neg hinhibit, if_neg (by simp [hinhibit])]
        simp [← ih]
    · have hle : (m + 1 ≤ n.val) = (m ≤ n.val) := propext (by omega)
      simp only [hle, ← ih]
      split
      · rfl
      · simp [hn]

theorem getElem_moveAgents_mhpmcounter (s : State) (n : Fin 29) :
    (moveAgents s).mhpmcounter[n] =
      if s.cfg.numHpm ≤ n.val ∨ s.mcountinhibit.getLsbD (n.val + 3) = true then s.mhpmcounter[n]
      else s.mhpmcounter[n] + BitVec.ofNat 64 ((nextInput s).hpm.getD n.val 0) := by
  have hcounts : min s.cfg.numHpm 29 ≤ n.val ↔ s.cfg.numHpm ≤ n.val := by omega
  have hadvanced := getElem_advanceHpmUpTo s (nextInput s).hpm (min s.cfg.numHpm 29) n
  simp only [hcounts] at hadvanced
  exact hadvanced

/-- Settles O53: each counting counter moves once, by its own amount. -/
theorem agentsMoveCountersAndWires : Obligations.AgentsMoveCountersAndWires := by
  intro s input t
  refine ⟨rfl, rfl, fun n hn => ?_, fun n hn => ?_, rfl⟩
  · simp only [t, getElem_moveAgents_mhpmcounter, or_iff_right (Nat.not_le.mpr hn)]
    rfl
  · rw [getElem_moveAgents_mhpmcounter, if_pos (.inl hn)]

/-! ### Reset (R330, R331) -/

/-- Every gate but that of the Debug Mode registers is open after reset: the mode is M, and FS is 1 (log 5). -/
theorem csrGate_reset {a : CsrAddr} {r : Csr} (h : r ∉ [.dcsr, .dpc, .dscratch0, .dscratch1]) :
    csrGate State.reset a false r = true := by
  cases r with
  | dcsr | dpc | dscratch0 | dscratch1 => exact absurd (by decide) h
  | _ => rfl

/-- Settles O58: the values after reset are read off the state, and M-mode reads every register whose gate is open. -/
theorem resetState : Obligations.ResetState := by
  refine ⟨rfl, rfl, by decide, by decide, rfl, ?misa, rfl, rfl, rfl, rfl, fun a => rfl, fun a r hr hdebug => ?readable⟩
  case misa => exact csrRead_of_csrImpl (r := .misa) rfl
  case readable => exact csrPermitted_of_checks hr (csrLevel_le a) (by simp) (csrGate_reset hdebug)

end Sys2Proof.Proofs

/-! PROOF. What a CSR write leaves (10_state.md section 5): for each part of the CSR file, which registers show it; then
that a write of a register changes a part that only the registers `mayAffect` names for it show, and nothing outside the
CSR file. -/

namespace Sys2Proof.Proofs

open Sys2Proof Sys2Proof.Machine

/-! ### Which registers show a part of the CSR file -/

theorem readCsr_with_mstatus (s : State) (m : Word) {q : Csr} (h : q ∉ [.mstatus, .sstatus]) :
    readCsr { s with mstatus := m } q = readCsr s q := by
  cases q with
  | mstatus | sstatus => exact absurd (by decide) h
  | _ => rfl

theorem readCsr_writeFcsr (s : State) (v : BitVec 8) {q : Csr} (h : q ∉ [.fflags, .frm, .fcsr, .mstatus, .sstatus]) :
    readCsr (writeFcsr s v) q = readCsr s q := by
  cases q with
  | fflags | frm | fcsr | mstatus | sstatus => exact absurd (by decide) h
  | _ => rfl

theorem readCsr_with_mie (s : State) (w : Word) {q : Csr} (h : q ∉ [.mie, .sie]) :
    readCsr { s with mie := w } q = readCsr s q := by
  cases q with
  | mie | sie => exact absurd (by decide) h
  | _ => rfl

theorem readCsr_with_mipSw (s : State) (w : Word) {q : Csr} (h : q ∉ [.mip, .sip]) :
    readCsr { s with mipSw := w } q = readCsr s q := by
  cases q with
  | mip | sip => exact absurd (by decide) h
  | _ => rfl

theorem readCsr_with_mideleg (s : State) (w : Word) {q : Csr} (h : q ∉ [.mideleg, .sie, .sip]) :
    readCsr { s with mideleg := w } q = readCsr s q := by
  cases q with
  | mideleg | sie | sip => exact absurd (by decide) h
  | _ => rfl

theorem readCsr_with_mcycle (s : State) (c : BitVec 64) {q : Csr} (h : q ∉ [.mcycle, .mcycleh, .cycle, .cycleh]) :
    readCsr { s with mcycle := c } q = readCsr s q := by
  cases q with
  | mcycle | mcycleh | cycle | cycleh => exact absurd (by decide) h
  | _ => rfl

theorem readCsr_with_minstret (s : State) (c : BitVec 64) {q : Csr}
    (h : q ∉ [.minstret, .minstreth, .instret, .instreth]) :
    readCsr { s with minstret := c } q = readCsr s q := by
  cases q with
  | minstret | minstreth | instret | instreth => exact absurd (by decide) h
  | _ => rfl

/-- One performance counter is shown by the four registers of its number (R70, R93, R94). -/
theorem readCsr_set_mhpmcounter (s : State) (n : Fin 29) (c : BitVec 64) {q : Csr}
    (h : q ∉ [.mhpmcounter n, .mhpmcounterh n, .hpmcounter n, .hpmcounterh n]) :
    readCsr { s with mhpmcounter := s.mhpmcounter.set n.val c } q = readCsr s q := by
  cases q with
  | mhpmcounter k | mhpmcounterh k | hpmcounter k | hpmcounterh k =>
    have hne : n.val ≠ k.val := fun heq => by simp [Fin.ext heq] at h
    simp [readCsr, hpmValue, hne]
  | _ => rfl

theorem readCsr_set_mhpmevent (s : State) (n : Fin 29) (w : Word) {q : Csr} (h : .mhpmevent n ≠ q) :
    readCsr { s with mhpmevent := s.mhpmevent.set n.val w } q = readCsr s q := by
  cases q with
  | mhpmevent k =>
    have hne : n.val ≠ k.val := fun heq => h (congrArg Csr.mhpmevent (Fin.ext heq))
    simp [readCsr, hne]
  | _ => rfl

theorem readCsr_set_pmpaddr (s : State) (i : Fin 64) (w : Word) {q : Csr} (h : .pmpaddr i ≠ q) :
    readCsr { s with pmpaddr := s.pmpaddr.set i.val w } q = readCsr s q := by
  cases q with
  | pmpaddr k =>
    have hne : i.val ≠ k.val := fun heq => h (congrArg Csr.pmpaddr (Fin.ext heq))
    simp [readCsr, hne]
  | _ => rfl

/-- Two registers that exist hold no entry in common, so a write of one leaves what the other reads (R65). -/
theorem pmpcfgRead_pmpcfgWrite (s : State) (v : Word) {k j : Nat} (h : k ≠ j) :
    pmpcfgRead { s with pmpcfg := pmpcfgWrite s k v } j = pmpcfgRead s j := by
  by_cases hj : pmpcfgExists s.cfg.xlen j = true
  · rw [pmpcfgRead, pmpcfgRead, if_pos hj, if_pos hj]
    refine List.foldl_ext _ _ _ fun acc b hb => ?_
    have hb := List.mem_range.mp hb
    have hbyte : (pmpcfgWrite s k v)[4 * j + b]? = s.pmpcfg[4 * j + b]? := by
      by_cases hi : 4 * j + b < 64
      · rw [Vector.getElem?_eq_getElem hi, Vector.getElem?_eq_getElem hi, getElem_pmpcfgWrite, if_neg]
        rintro ⟨hk, hlo, hhi, -⟩
        cases hx : s.cfg.xlen <;> simp [hx, pmpcfgExists, pmpBytesPerReg, xlenBits] at hj hk hhi hb <;> omega
      · rw [Vector.getElem?_eq_none (by omega), Vector.getElem?_eq_none (by omega)]
    simp only [pmpByte, hbyte]
  · rw [pmpcfgRead, pmpcfgRead, if_neg hj, if_neg hj]

theorem readCsr_with_pmpcfgWrite (s : State) (k : Fin 16) (v : Word) {q : Csr} (h : .pmpcfg k ≠ q) :
    readCsr { s with pmpcfg := pmpcfgWrite s k.val v } q = readCsr s q := by
  cases q with
  | pmpcfg j => exact pmpcfgRead_pmpcfgWrite s v fun heq => h (congrArg Csr.pmpcfg (Fin.ext heq))
  | _ => rfl

theorem readCsr_with_tselect (s : State) (w : Word) {q : Csr} (h : q ∉ [.tselect, .tdata1, .tdata2, .tdata3, .tinfo]) :
    readCsr { s with tselect := w } q = readCsr s q := by
  cases q with
  | tselect | tdata1 | tdata2 | tdata3 | tinfo => exact absurd (by decide) h
  | _ => rfl

/-- A part that the new trigger has in common with the selected one is the same after the replacement. -/
theorem selectedTrigger_setTrigger {α : Type} (part : Trigger → α) {s : State} {t : Trigger}
    (h : part t = part (selectedTrigger s)) :
    part (selectedTrigger (setTrigger s t)) = part (selectedTrigger s) := by
  by_cases hlt : s.tselect.toNat < s.triggers.length
  · have hselected : selectedTrigger (setTrigger s t) = t := by simp [selectedTrigger, setTrigger, hlt]
    rw [hselected, h]
  · have hkept : selectedTrigger (setTrigger s t) = selectedTrigger s := by simp [selectedTrigger, setTrigger, hlt]
    rw [hkept]

/-- A register of the trigger module reads as before when the replacement leaves its own register. -/
theorem readCsr_setTrigger {s : State} {t : Trigger} {q : Csr}
    (h1 : q = .tdata1 → t.tdata1 = (selectedTrigger s).tdata1) (h2 : q = .tdata2 → t.tdata2 = (selectedTrigger s).tdata2)
    (h3 : q = .tdata3 → t.tdata3 = (selectedTrigger s).tdata3) : readCsr (setTrigger s t) q = readCsr s q := by
  cases q with
  | tdata1 => exact selectedTrigger_setTrigger Trigger.tdata1 (h1 rfl)
  | tdata2 => exact selectedTrigger_setTrigger Trigger.tdata2 (h2 rfl)
  | tdata3 => exact selectedTrigger_setTrigger Trigger.tdata3 (h3 rfl)
  | _ => rfl

/-! ### Registers that only they show -/

/-- The supervisor registers with a storage of their own. -/
theorem readCsr_writeCsr_of_own_supervisor {r : Csr}
    (hr : r ∈ [Csr.stvec, .scounteren, .sscratch, .sepc, .scause, .stval, .satp]) (s : State) (v : Word) {q : Csr}
    (h : r ≠ q) : readCsr (writeCsr s r v) q = readCsr s q := by
  simp only [List.mem_cons, List.not_mem_nil, or_false] at hr
  rcases hr with rfl | rfl | rfl | rfl | rfl | rfl | rfl <;> cases q <;> first | rfl | exact absurd rfl h

/-- The machine trap registers with a storage of their own. -/
theorem readCsr_writeCsr_of_own_machine {r : Csr}
    (hr : r ∈ [Csr.medeleg, .mtvec, .mcounteren, .mcountinhibit, .mscratch, .mepc, .mcause, .mtval, .mtinst, .mtval2])
    (s : State) (v : Word) {q : Csr} (h : r ≠ q) : readCsr (writeCsr s r v) q = readCsr s q := by
  simp only [List.mem_cons, List.not_mem_nil, or_false] at hr
  rcases hr with rfl | rfl | rfl | rfl | rfl | rfl | rfl | rfl | rfl | rfl <;> cases q <;>
    first | rfl | exact absurd rfl h

/-- The debug and trigger registers with a storage of their own. -/
theorem readCsr_writeCsr_of_own_debug {r : Csr}
    (hr : r ∈ [Csr.tcontrol, .mcontext, .scontext, .dcsr, .dpc, .dscratch0, .dscratch1]) (s : State) (v : Word) {q : Csr}
    (h : r ≠ q) : readCsr (writeCsr s r v) q = readCsr s q := by
  simp only [List.mem_cons, List.not_mem_nil, or_false] at hr
  rcases hr with rfl | rfl | rfl | rfl | rfl | rfl | rfl <;> cases q <;> first | rfl | exact absurd rfl h

/-! ### The frame of a CSR write -/

theorem ne_of_not_mayAffect {r q : Csr} (h : mayAffect r q = false) : r ≠ q := by
  rintro rfl
  simp [mayAffect] at h

/-- None of the registers that a write of `r` may affect is `q`. -/
theorem not_mem_of_not_mayAffect {r q : Csr} {shown : List Csr} (h : mayAffect r q = false)
    (hshown : ∀ p ∈ shown, mayAffect r p = true) : q ∉ shown := by
  intro hq
  rw [hshown q hq] at h
  exact absurd h (by decide)

theorem readCsr_writeCsr_of_not_mayAffect (s : State) {r q : Csr} (v : Word) (h : mayAffect r q = false) :
    readCsr (writeCsr s r v) q = readCsr s q := by
  cases r with
  | fflags | frm | fcsr => exact readCsr_writeFcsr s _ (not_mem_of_not_mayAffect h (by decide))
  | mstatus | sstatus => exact readCsr_with_mstatus s _ (not_mem_of_not_mayAffect h (by decide))
  | mie | sie => exact readCsr_with_mie s _ (not_mem_of_not_mayAffect h (by decide))
  | mip => exact readCsr_with_mipSw s _ (not_mem_of_not_mayAffect h (by decide))
  | sip =>
    rw [writeCsr]
    split
    · exact readCsr_with_mipSw s _ (not_mem_of_not_mayAffect h (by decide))
    · rfl
  | mideleg => exact readCsr_with_mideleg s _ (not_mem_of_not_mayAffect h (by decide))
  | mcycle | mcycleh => exact readCsr_with_mcycle s _ (not_mem_of_not_mayAffect h (by decide))
  | minstret | minstreth => exact readCsr_with_minstret s _ (not_mem_of_not_mayAffect h (by decide))
  | mhpmcounter n | mhpmcounterh n =>
    rw [writeCsr]
    split
    · exact readCsr_set_mhpmcounter s n _ (not_mem_of_not_mayAffect h (by simp [mayAffect]))
    · rfl
  | mhpmevent n =>
    rw [writeCsr]
    split
    · exact readCsr_set_mhpmevent s n v (ne_of_not_mayAffect h)
    · rfl
  | pmpaddr i =>
    rw [writeCsr]
    split
    · exact readCsr_set_pmpaddr s i v (ne_of_not_mayAffect h)
    · rfl
  | pmpcfg k => exact readCsr_with_pmpcfgWrite s k v (ne_of_not_mayAffect h)
  | tselect => exact readCsr_with_tselect s _ (not_mem_of_not_mayAffect h (by decide))
  | tdata1 => exact readCsr_setTrigger (fun hq => absurd hq.symm (ne_of_not_mayAffect h)) (fun _ => rfl) fun _ => rfl
  | tdata2 => exact readCsr_setTrigger (fun _ => rfl) (fun hq => absurd hq.symm (ne_of_not_mayAffect h)) fun _ => rfl
  | tdata3 => exact readCsr_setTrigger (fun _ => rfl) (fun _ => rfl) fun hq => absurd hq.symm (ne_of_not_mayAffect h)
  | stvec | scounteren | sscratch | sepc | scause | stval | satp =>
    exact readCsr_writeCsr_of_own_supervisor (by decide) s v (ne_of_not_mayAffect h)
  | medeleg | mtvec | mcounteren | mcountinhibit | mscratch | mepc | mcause | mtval | mtinst | mtval2 =>
    exact readCsr_writeCsr_of_own_machine (by decide) s v (ne_of_not_mayAffect h)
  | tcontrol | mcontext | scontext | dcsr | dpc | dscratch0 | dscratch1 =>
    exact readCsr_writeCsr_of_own_debug (by decide) s v (ne_of_not_mayAffect h)
  | misa | mstatush | tinfo | mvendorid | marchid | mimpid | mhartid | mconfigptr => rfl
  | cycle | time | instret | hpmcounter n | cycleh | timeh | instreth | hpmcounterh n => rfl

/-- The two states agree in everything outside the CSR file. -/
def AgreeOutsideCsrs (s t : State) : Prop :=
  { t with
    x := s.x, pc := s.pc, priv := s.priv, debugMode := s.debugMode, waiting := s.waiting, tlb := s.tlb, meip := s.meip,
    mtip := s.mtip, msip := s.msip, seipExt := s.seipExt, mem := s.mem, stored := s.stored, time := s.time, cfg := s.cfg,
    inputs := s.inputs, draws := s.draws, stallDraw := s.stallDraw } = t

theorem agreeOutsideCsrs_writeCsr (s : State) (r : Csr) (v : Word) : AgreeOutsideCsrs s (writeCsr s r v) := by
  cases r with
  | sip | mhpmevent n | pmpaddr i | mhpmcounter n | mhpmcounterh n => rw [writeCsr]; split <;> rfl
  | _ => rfl

/-- Settles O32: a write changes one part of the CSR file, which only the registers it may affect show. -/
theorem csrWriteFrame : Obligations.CsrWriteFrame := by
  intro s r v t
  have hrest : AgreeOutsideCsrs s t := agreeOutsideCsrs_writeCsr s r v
  refine ⟨fun q h => readCsr_writeCsr_of_not_mayAffect s v h, ?_⟩
  rw [← hrest]
  exact ⟨rfl, rfl, rfl, rfl, rfl, rfl, rfl, rfl, rfl, rfl, rfl, rfl, rfl, rfl, rfl, rfl, rfl⟩

end Sys2Proof.Proofs
